-- ==== Sys2Proof/Word.lean ====
section
/-! DEFINITION. The value widths of the block (`00_scope.md` R6): Byte, Halfword, Word. A value of width N lies in
`[0, 2^N - 1]` and addition wraps, which is what `BitVec N` does. -/

namespace Sys2Proof

/-- 8 bits, the addressable unit (R6, R35). -/
abbrev Byte := BitVec 8

/-- 16 bits, the instruction unit (R6, R90). -/
abbrev Halfword := BitVec 16

/-- 32 bits: registers, addresses, data words (R6, R35). -/
abbrev Word := BitVec 32

end Sys2Proof
end

