-- ==== Sys2Proof/Syntax.lean ====
section
/-! DEFINITION. The instructions: one constructor per row of spec/opcode_table.json, in the table's order, with the
fields the row names (`30_encoding.md` R105, R98). Register fields are register numbers, immediates are the bits of the
field, unscaled: `Machine/Operands.lean` gives each its value (R107). -/

namespace Sys2Proof

/-- One of the sixteen registers, `x[0]` to `x[15]` (R20): SP is 13, LR is 14, PC is 15. -/
abbrev Reg := Fin 16

/-- A register a 3-bit field can name: R0 to R7 (R21). -/
abbrev LowReg := Fin 8

/-- The fourteen conditions of `B<cond>`, in the order of their 4-bit field (R109, R145). -/
inductive Cond where
  | eq | ne | cs | cc | mi | pl | vs | vc | hi | ls | ge | lt | gt | le
  deriving DecidableEq, Repr, Inhabited

inductive Instr where
  -- 41_shift_addsub_imm.md
  | lslsImm (rd rm : LowReg) (imm5 : BitVec 5)          -- R160
  | movsReg (rd rm : LowReg)                            -- R161
  | lsrsImm (rd rm : LowReg) (imm5 : BitVec 5)          -- R162
  | asrsImm (rd rm : LowReg) (imm5 : BitVec 5)          -- R163
  | addsReg (rd rn rm : LowReg)                         -- R164
  | subsReg (rd rn rm : LowReg)                         -- R165
  | addsImm3 (rd rn : LowReg) (imm3 : BitVec 3)         -- R166
  | subsImm3 (rd rn : LowReg) (imm3 : BitVec 3)         -- R167
  | movsImm (rd : LowReg) (imm8 : BitVec 8)             -- R168
  | cmpImm (rn : LowReg) (imm8 : BitVec 8)              -- R169
  | addsImm8 (rdn : LowReg) (imm8 : BitVec 8)           -- R170
  | subsImm8 (rdn : LowReg) (imm8 : BitVec 8)           -- R171
  -- 42_data_processing.md
  | ands (rdn rm : LowReg)                              -- R180
  | eors (rdn rm : LowReg)                              -- R181
  | lslsReg (rdn rm : LowReg)                           -- R182
  | lsrsReg (rdn rm : LowReg)                           -- R183
  | asrsReg (rdn rm : LowReg)                           -- R184
  | adcs (rdn rm : LowReg)                              -- R185
  | sbcs (rdn rm : LowReg)                              -- R186
  | rors (rdn rm : LowReg)                              -- R187
  | tst (rn rm : LowReg)                                -- R188
  | rsbs (rd rn : LowReg)                               -- R189
  | cmpReg (rn rm : LowReg)                             -- R190
  | cmn (rn rm : LowReg)                                -- R191
  | orrs (rdn rm : LowReg)                              -- R192
  | muls (rdm rn : LowReg)                              -- R193
  | bics (rdn rm : LowReg)                              -- R194
  | mvns (rd rm : LowReg)                               -- R195
  -- 43_hireg_bx.md
  | addHi (rdn rm : Reg)                                -- R200
  | cmpHi (rn rm : Reg)                                 -- R201
  | movHi (rd rm : Reg)                                 -- R202
  | bx (rm : Reg)                                       -- R203
  | blx (rm : Reg)                                      -- R204
  -- 44_load_store.md
  | ldrLit (rt : LowReg) (imm8 : BitVec 8)              -- R211
  | strReg (rt rn rm : LowReg)                          -- R212
  | strhReg (rt rn rm : LowReg)                         -- R213
  | strbReg (rt rn rm : LowReg)                         -- R214
  | ldrsbReg (rt rn rm : LowReg)                        -- R215
  | ldrReg (rt rn rm : LowReg)                          -- R216
  | ldrhReg (rt rn rm : LowReg)                         -- R217
  | ldrbReg (rt rn rm : LowReg)                         -- R218
  | ldrshReg (rt rn rm : LowReg)                        -- R219
  | strImm (rt rn : LowReg) (imm5 : BitVec 5)           -- R220
  | ldrImm (rt rn : LowReg) (imm5 : BitVec 5)           -- R221
  | strbImm (rt rn : LowReg) (imm5 : BitVec 5)          -- R222
  | ldrbImm (rt rn : LowReg) (imm5 : BitVec 5)          -- R223
  | strhImm (rt rn : LowReg) (imm5 : BitVec 5)          -- R224
  | ldrhImm (rt rn : LowReg) (imm5 : BitVec 5)          -- R225
  | strSp (rt : LowReg) (imm8 : BitVec 8)               -- R226
  | ldrSp (rt : LowReg) (imm8 : BitVec 8)               -- R227
  -- 45_misc.md
  | adr (rd : LowReg) (imm8 : BitVec 8)                 -- R240
  | addRdSp (rd : LowReg) (imm8 : BitVec 8)             -- R241
  | addSp (imm7 : BitVec 7)                             -- R242
  | subSp (imm7 : BitVec 7)                             -- R243
  | sxth (rd rm : LowReg)                               -- R244
  | sxtb (rd rm : LowReg)                               -- R245
  | uxth (rd rm : LowReg)                               -- R246
  | uxtb (rd rm : LowReg)                               -- R247
  -- 46_stack_multiple.md, with the refused and remaining rows where the table has them
  | push (m : Bool) (list : BitVec 8)                   -- R260
  | cps (im : Bool)                                     -- R111 (refused)
  | rev (rd rm : LowReg)                                -- R248
  | rev16 (rd rm : LowReg)                              -- R249
  | revsh (rd rm : LowReg)                              -- R250
  | pop (p : Bool) (list : BitVec 8)                    -- R261
  | bkpt (imm8 : BitVec 8)                              -- R111 (refused)
  | nop                                                 -- R251
  | yield                                               -- R116 (refused)
  | wfe                                                 -- R116 (refused)
  | wfi                                                 -- R116 (refused)
  | sev                                                 -- R116 (refused)
  | stm (rn : LowReg) (list : BitVec 8)                 -- R262
  | ldm (rn : LowReg) (list : BitVec 8)                 -- R263
  -- 47_branch.md
  | bcond (cond : Cond) (imm8 : BitVec 8)               -- R270
  | udf (imm8 : BitVec 8)                               -- R111 (refused)
  | svc (imm8 : BitVec 8)                               -- R111 (refused)
  | b (imm11 : BitVec 11)                               -- R271
  | bl (s : BitVec 1) (imm10 : BitVec 10) (j1 j2 : BitVec 1) (imm11 : BitVec 11)   -- R272, R98
  -- two-halfword rows refused by R112
  | msr (rn : Reg) (sysm : BitVec 8)
  | mrs (rd : Reg) (sysm : BitVec 8)
  | dsb (option : BitVec 4)
  | dmb (option : BitVec 4)
  | isb (option : BitVec 4)
  deriving DecidableEq, Repr, Inhabited

end Sys2Proof
end

