-- ==== Sys2Proof/WellFormed.lean ====
section
/-! DEFINITION. Which instruction terms stand for an encoding. Field widths are carried by the types of `Instr`; one
check is left. -/

namespace Sys2Proof

/-- A term is well formed when some halfword decodes to it: "`LSLS Rd, Rm, #0` is not a valid operand list (UAL allows
1..31 for `LSLS`), because its halfword decodes as `MOVS Rd, Rm`" (`30_encoding.md` R125, R104). Every other term has an
encoding of its own, the UNPREDICTABLE forms of R115 and the refused rows included: they decode, and raise a fault when
they execute. -/
def Instr.wellFormed : Instr → Bool
  | .lslsImm _ _ imm5 => imm5 != 0
  | _ => true

end Sys2Proof
end

