-- ==== Sys2Proof/Decode.lean ====
section
/-! DEFINITION. From bits to instructions and back: the opcode pattern engine (`30_encoding.md` R92 to R97), the opcode
table and the selection among its rows (R103, R104), the decoder by the opcode map (R105, R98, R110), total on any
halfwords and any bytes, and the encoder (the Encoding lines of R160 to R272). -/

namespace Sys2Proof

/-! ## The opcode pattern engine -/

/-- A digit of a ternary pattern (R9). -/
inductive Trit where
  | zero | one | any
  deriving DecidableEq, Repr, Inhabited

/-- A pattern's digits, LEAST significant bit first: digit j stands at bit j. The source's strings are written the other
way round, most significant bit first (R9): `parsePattern` turns them. -/
abbrev Pattern := List Trit

/-- The validation error of R92: "if pattern length ≠ 16 or contains characters outside". -/
inductive PatternError where
  | wrongLength (length : Nat)
  | badCharacter (c : Char)
  deriving DecidableEq, Repr

def tritOfChar (c : Char) : Option Trit :=
  if c = '0' then some .zero else if c = '1' then some .one else if c = 'X' then some .any else none

/-- The digits of a string read most significant first, collected least significant first. -/
def parseDigits : List Char → Pattern → Except PatternError Pattern
  | [], acc => .ok acc
  | c :: cs, acc =>
    match tritOfChar c with
    | some t => parseDigits cs (t :: acc)
    | none => .error (.badCharacter c)

/-- A pattern is valid iff it has exactly 16 characters, each `0`, `1` or `X` (R92). -/
def parsePattern (cs : List Char) : Except PatternError Pattern :=
  if cs.length = 16 then parseDigits cs [] else .error (.wrongLength cs.length)

/-- A pattern as the engine takes it once validated. -/
def Pattern.valid (p : Pattern) : Bool := p.length == 16

/-- How many `X` digits a pattern has: the `k` of R95. -/
def Pattern.freeDigits : Pattern → Nat
  | [] => 0
  | .any :: ts => Pattern.freeDigits ts + 1
  | _ :: ts => Pattern.freeDigits ts

/-- Whether the literal digit agrees with the bit (R93). -/
def Trit.agrees : Trit → Bool → Bool
  | .any, _ => true
  | .zero, bit => !bit
  | .one, bit => bit

/-- `match` on the bits of a number, least significant first (R93). -/
def fitsDigits : Pattern → Nat → Bool
  | [], _ => true
  | t :: ts, w => t.agrees (w % 2 == 1) && fitsDigits ts (w / 2)

/-- `match(word, pattern)`: "for every position where pattern has `0` or `1`, the corresponding bit of `word` equals that
literal; `X` positions are ignored" (R93). -/
def fits (w : Halfword) (p : Pattern) : Bool := fitsDigits p w.toNat

/-- The literal bits as a number, 0 at every `X` (R94). -/
def valueDigits : Pattern → Nat
  | [] => 0
  | .one :: ts => 2 * valueDigits ts + 1
  | _ :: ts => 2 * valueDigits ts

/-- `create(pattern)` (R94), the `value` of R93. -/
def create (p : Pattern) : Halfword := BitVec.ofNat 16 (valueDigits p)

/-- 1 at every literal position as a number (R93). -/
def maskDigits : Pattern → Nat
  | [] => 0
  | .any :: ts => 2 * maskDigits ts
  | _ :: ts => 2 * maskDigits ts + 1

/-- The `mask` of R93. -/
def literalMask (p : Pattern) : Halfword := BitVec.ofNat 16 (maskDigits p)

/-- `setBits` on numbers: the lowest bit of the value fills the rightmost `X` (R95). -/
def setDigits : Pattern → Nat → Nat → Nat
  | [], w, _ => w
  | .any :: ts, w, v => 2 * setDigits ts (w / 2) (v / 2) + v % 2
  | _ :: ts, w, v => 2 * setDigits ts (w / 2) v + w % 2

/-- `setBits(word, pattern, v)` (R95): the `X` positions take the low bits of `v`, every other bit is unchanged. -/
def setBits (w : Halfword) (p : Pattern) (v : Nat) : Halfword := BitVec.ofNat 16 (setDigits p w.toNat v)

/-- `getBits` on numbers. -/
def getDigits : Pattern → Nat → Nat
  | [], _ => 0
  | .any :: ts, w => 2 * getDigits ts (w / 2) + w % 2
  | _ :: ts, w => getDigits ts (w / 2)

/-- `getBits(word, pattern)` (R96): the bits at the `X` positions, the rightmost lowest. -/
def getBits (w : Halfword) (p : Pattern) : Nat := getDigits p w.toNat

/-- The engine's entry points take the pattern as text and fail on an invalid one (R92). -/
def matchText (w : Halfword) (cs : List Char) : Except PatternError Bool := (parsePattern cs).map (fits w)

def createText (cs : List Char) : Except PatternError Halfword := (parsePattern cs).map create

def setBitsText (w : Halfword) (cs : List Char) (v : Nat) : Except PatternError Halfword :=
  (parsePattern cs).map (setBits w · v)

/-! ## The opcode table and its selection -/

/-- A row of spec/opcode_table.json: `mask`/`match` of the first halfword and, for a two-halfword row, of the second. -/
structure OpcodeRow where
  mnemonic : String
  admitted : Bool
  mask     : Halfword
  value    : Halfword
  second   : Option (Halfword × Halfword)
  deriving DecidableEq, Repr

def opcodeRows0 : List OpcodeRow := [
  ⟨"LSLS", true, 0xF800, 0x0000, none⟩,
  ⟨"MOVS", true, 0xFFC0, 0x0000, none⟩,
  ⟨"LSRS", true, 0xF800, 0x0800, none⟩,
  ⟨"ASRS", true, 0xF800, 0x1000, none⟩,
  ⟨"ADDS", true, 0xFE00, 0x1800, none⟩,
  ⟨"SUBS", true, 0xFE00, 0x1A00, none⟩,
  ⟨"ADDS", true, 0xFE00, 0x1C00, none⟩,
  ⟨"SUBS", true, 0xFE00, 0x1E00, none⟩,
  ⟨"MOVS", true, 0xF800, 0x2000, none⟩,
  ⟨"CMP", true, 0xF800, 0x2800, none⟩,
  ⟨"ADDS", true, 0xF800, 0x3000, none⟩,
  ⟨"SUBS", true, 0xF800, 0x3800, none⟩,
  ⟨"ANDS", true, 0xFFC0, 0x4000, none⟩,
  ⟨"EORS", true, 0xFFC0, 0x4040, none⟩,
  ⟨"LSLS", true, 0xFFC0, 0x4080, none⟩,
  ⟨"LSRS", true, 0xFFC0, 0x40C0, none⟩]

def opcodeRows1 : List OpcodeRow := [
  ⟨"ASRS", true, 0xFFC0, 0x4100, none⟩,
  ⟨"ADCS", true, 0xFFC0, 0x4140, none⟩,
  ⟨"SBCS", true, 0xFFC0, 0x4180, none⟩,
  ⟨"RORS", true, 0xFFC0, 0x41C0, none⟩,
  ⟨"TST", true, 0xFFC0, 0x4200, none⟩,
  ⟨"RSBS", true, 0xFFC0, 0x4240, none⟩,
  ⟨"CMP", true, 0xFFC0, 0x4280, none⟩,
  ⟨"CMN", true, 0xFFC0, 0x42C0, none⟩,
  ⟨"ORRS", true, 0xFFC0, 0x4300, none⟩,
  ⟨"MULS", true, 0xFFC0, 0x4340, none⟩,
  ⟨"BICS", true, 0xFFC0, 0x4380, none⟩,
  ⟨"MVNS", true, 0xFFC0, 0x43C0, none⟩,
  ⟨"ADD", true, 0xFF00, 0x4400, none⟩,
  ⟨"CMP", true, 0xFF00, 0x4500, none⟩,
  ⟨"MOV", true, 0xFF00, 0x4600, none⟩,
  ⟨"BX", true, 0xFF87, 0x4700, none⟩]

def opcodeRows2 : List OpcodeRow := [
  ⟨"BLX", true, 0xFF87, 0x4780, none⟩,
  ⟨"LDR", true, 0xF800, 0x4800, none⟩,
  ⟨"STR", true, 0xFE00, 0x5000, none⟩,
  ⟨"STRH", true, 0xFE00, 0x5200, none⟩,
  ⟨"STRB", true, 0xFE00, 0x5400, none⟩,
  ⟨"LDRSB", true, 0xFE00, 0x5600, none⟩,
  ⟨"LDR", true, 0xFE00, 0x5800, none⟩,
  ⟨"LDRH", true, 0xFE00, 0x5A00, none⟩,
  ⟨"LDRB", true, 0xFE00, 0x5C00, none⟩,
  ⟨"LDRSH", true, 0xFE00, 0x5E00, none⟩,
  ⟨"STR", true, 0xF800, 0x6000, none⟩,
  ⟨"LDR", true, 0xF800, 0x6800, none⟩,
  ⟨"STRB", true, 0xF800, 0x7000, none⟩,
  ⟨"LDRB", true, 0xF800, 0x7800, none⟩,
  ⟨"STRH", true, 0xF800, 0x8000, none⟩,
  ⟨"LDRH", true, 0xF800, 0x8800, none⟩]

def opcodeRows3 : List OpcodeRow := [
  ⟨"STR", true, 0xF800, 0x9000, none⟩,
  ⟨"LDR", true, 0xF800, 0x9800, none⟩,
  ⟨"ADR", true, 0xF800, 0xA000, none⟩,
  ⟨"ADD", true, 0xF800, 0xA800, none⟩,
  ⟨"ADD", true, 0xFF80, 0xB000, none⟩,
  ⟨"SUB", true, 0xFF80, 0xB080, none⟩,
  ⟨"SXTH", true, 0xFFC0, 0xB200, none⟩,
  ⟨"SXTB", true, 0xFFC0, 0xB240, none⟩,
  ⟨"UXTH", true, 0xFFC0, 0xB280, none⟩,
  ⟨"UXTB", true, 0xFFC0, 0xB2C0, none⟩,
  ⟨"PUSH", true, 0xFE00, 0xB400, none⟩,
  ⟨"CPS", false, 0xFFEF, 0xB662, none⟩,
  ⟨"REV", true, 0xFFC0, 0xBA00, none⟩,
  ⟨"REV16", true, 0xFFC0, 0xBA40, none⟩,
  ⟨"REVSH", true, 0xFFC0, 0xBAC0, none⟩,
  ⟨"POP", true, 0xFE00, 0xBC00, none⟩]

def opcodeRows4 : List OpcodeRow := [
  ⟨"BKPT", false, 0xFF00, 0xBE00, none⟩,
  ⟨"NOP", true, 0xFFFF, 0xBF00, none⟩,
  ⟨"YIELD", false, 0xFFFF, 0xBF10, none⟩,
  ⟨"WFE", false, 0xFFFF, 0xBF20, none⟩,
  ⟨"WFI", false, 0xFFFF, 0xBF30, none⟩,
  ⟨"SEV", false, 0xFFFF, 0xBF40, none⟩,
  ⟨"STM", true, 0xF800, 0xC000, none⟩,
  ⟨"LDM", true, 0xF800, 0xC800, none⟩,
  ⟨"B<cond>", true, 0xF000, 0xD000, none⟩,
  ⟨"UDF", false, 0xFF00, 0xDE00, none⟩,
  ⟨"SVC", false, 0xFF00, 0xDF00, none⟩,
  ⟨"B", true, 0xF800, 0xE000, none⟩,
  ⟨"BL", true, 0xF800, 0xF000, (some (0xD000, 0xD000))⟩,
  ⟨"MSR", false, 0xFFF0, 0xF380, (some (0xFF00, 0x8800))⟩,
  ⟨"MRS", false, 0xFFFF, 0xF3EF, (some (0xF000, 0x8000))⟩,
  ⟨"DSB", false, 0xFFFF, 0xF3BF, (some (0xFFF0, 0x8F40))⟩]

def opcodeRows5 : List OpcodeRow := [
  ⟨"DMB", false, 0xFFFF, 0xF3BF, (some (0xFFF0, 0x8F50))⟩,
  ⟨"ISB", false, 0xFFFF, 0xF3BF, (some (0xFFF0, 0x8F60))⟩]

/-- spec/opcode_table.json, 82 rows in its order (R110). -/
def opcodeTable : List OpcodeRow := opcodeRows0 ++ opcodeRows1 ++ opcodeRows2 ++ opcodeRows3 ++ opcodeRows4 ++ opcodeRows5

/-- Length from the first halfword alone: two halfwords iff `hw1[15:11]` is `0b11101`, `0b11110` or `0b11111` (R102). -/
def isLong (hw1 : Halfword) : Bool := 0b11101 ≤ (hw1.extractLsb' 11 5).toNat

/-- "A row fits iff `(hw1 AND mask) = match` and, when `ilen = 4`, also `(hw2 AND mask2) = match2`; one-halfword rows are
considered only when `ilen = 2` and two-halfword rows only when `ilen = 4`" (R103). -/
def OpcodeRow.fits (r : OpcodeRow) (hw1 hw2 : Halfword) : Bool :=
  hw1 &&& r.mask == r.value &&
    match r.second with
    | none => !isLong hw1
    | some (mask2, value2) => isLong hw1 && hw2 &&& mask2 == value2

/-- How many bits of a mask are literal. -/
def countOnes : Nat → Nat → Nat
  | 0, _ => 0
  | n + 1, m => m % 2 + countOnes n (m / 2)

/-- The number of literal bits of a row's pattern or patterns. -/
def OpcodeRow.literals (r : OpcodeRow) : Nat :=
  countOnes 16 r.mask.toNat +
    match r.second with
    | none => 0
    | some (mask2, _) => countOnes 16 mask2.toNat

/-- The most specific of two candidate rows, each with its number; the later one wins only with MORE literal bits. -/
def moreSpecific (best : Option (Nat × OpcodeRow)) (row : Nat × OpcodeRow) : Option (Nat × OpcodeRow) :=
  match best with
  | none => some row
  | some b => if b.2.literals < row.2.literals then some row else some b

/-- The rows of a table numbered from `n` that fit. -/
def fittingRows : List OpcodeRow → Nat → Halfword → Halfword → List (Nat × OpcodeRow)
  | [], _, _, _ => []
  | r :: rs, n, hw1, hw2 =>
    if r.fits hw1 hw2 then (n, r) :: fittingRows rs (n + 1) hw1 hw2 else fittingRows rs (n + 1) hw1 hw2

/-- "Among the rows that fit, the decoder selects the one with the most literal bits (the most specific pattern)" (R103):
the number of the selected row, `none` where no row fits. -/
def selectRow (hw1 hw2 : Halfword) : Option Nat :=
  ((fittingRows opcodeTable 0 hw1 hw2).foldl moreSpecific none).map Prod.fst

/-! ## The opcode map -/

/-- The `n`-bit field of a halfword whose lowest bit is `lo` (R96). -/
abbrev field (h : Halfword) (lo n : Nat) : BitVec n := h.extractLsb' lo n

/-- A 3-bit register field (R105). -/
def lowField (h : Halfword) (lo : Nat) : LowReg := (field h lo 3).toFin

/-- The contiguous 4-bit register field `hw1[6:3]` of the formats `HIREG` and `BX` (R106). -/
def hiRm (h : Halfword) : Reg := (field h 3 4).toFin

/-- The split register number `hw1[7] : hw1[2:0]` of the format `HIREG` (R106). -/
def hiRd (h : Halfword) : Reg := (field h 7 1 ++ field h 0 3).toFin

/-- The sixteen operations of format `DP_REG`, `hw1[15:10] = 010000`, by `hw1[9:6]` (R110, R180 to R195). -/
def decodeDataProcessing (h : Halfword) : Instr :=
  let m := lowField h 3
  let d := lowField h 0
  match (field h 6 4).toNat with
  | 0 => .ands d m
  | 1 => .eors d m
  | 2 => .lslsReg d m
  | 3 => .lsrsReg d m
  | 4 => .asrsReg d m
  | 5 => .adcs d m
  | 6 => .sbcs d m
  | 7 => .rors d m
  | 8 => .tst d m
  | 9 => .rsbs d m
  | 10 => .cmpReg d m
  | 11 => .cmn d m
  | 12 => .orrs d m
  | 13 => .muls d m
  | 14 => .bics d m
  | _ => .mvns d m

/-- `hw1[15:10] = 010001`: the formats `HIREG` and `BX`; `BX`/`BLX` with `hw1[2:0]` other than 000 is unallocated (R114). -/
def decodeHighRegister (h : Halfword) : Option Instr :=
  match (field h 8 2).toNat with
  | 0 => some (.addHi (hiRd h) (hiRm h))
  | 1 => some (.cmpHi (hiRd h) (hiRm h))
  | 2 => some (.movHi (hiRd h) (hiRm h))
  | _ =>
    if field h 0 3 = 0 then
      if field h 7 1 = 0 then some (.bx (hiRm h)) else some (.blx (hiRm h))
    else none

/-- Format `LS_REG`, `hw1[15:12] = 0101`, by `hw1[11:9]` (R110, R212 to R219). -/
def decodeRegisterOffset (h : Halfword) : Instr :=
  let t := lowField h 0
  let n := lowField h 3
  let m := lowField h 6
  match (field h 9 3).toNat with
  | 0 => .strReg t n m
  | 1 => .strhReg t n m
  | 2 => .strbReg t n m
  | 3 => .ldrsbReg t n m
  | 4 => .ldrReg t n m
  | 5 => .ldrhReg t n m
  | 6 => .ldrbReg t n m
  | _ => .ldrshReg t n m

/-- `hw1[15:11] = 10110`: SP adjustment, extend, `PUSH`, `CPS`; the rest unallocated (R110, R113). -/
def decodeMisc10110 (h : Halfword) : Option Instr :=
  let m := lowField h 3
  let d := lowField h 0
  match (field h 8 3).toNat with
  | 0 => if field h 7 1 = 0 then some (.addSp (field h 0 7)) else some (.subSp (field h 0 7))
  | 2 =>
    match (field h 6 2).toNat with
    | 0 => some (.sxth d m)
    | 1 => some (.sxtb d m)
    | 2 => some (.uxth d m)
    | _ => some (.uxtb d m)
  | 4 => some (.push false (field h 0 8))
  | 5 => some (.push true (field h 0 8))
  | 6 => if field h 5 3 = 0b011 ∧ field h 0 4 = 0b0010 then some (.cps (h.getLsbD 4)) else none
  | _ => none

/-- `hw1[15:11] = 10111`: byte reverse, `POP`, `BKPT`, hints; the rest unallocated (R110, R113, R116). -/
def decodeMisc10111 (h : Halfword) : Option Instr :=
  let m := lowField h 3
  let d := lowField h 0
  match (field h 8 3).toNat with
  | 2 =>
    match (field h 6 2).toNat with
    | 0 => some (.rev d m)
    | 1 => some (.rev16 d m)
    | 3 => some (.revsh d m)
    | _ => none
  | 4 => some (.pop false (field h 0 8))
  | 5 => some (.pop true (field h 0 8))
  | 6 => some (.bkpt (field h 0 8))
  | 7 =>
    match (field h 0 8).toNat with
    | 0x00 => some .nop
    | 0x10 => some .yield
    | 0x20 => some .wfe
    | 0x30 => some .wfi
    | 0x40 => some .sev
    | _ => none
  | _ => none

/-- `hw1[15:12] = 1101`: `B<cond>`, and `UDF` and `SVC` in the places of the conditions 1110 and 1111 (R110, R145). -/
def decodeConditional (h : Halfword) : Instr :=
  let imm8 := field h 0 8
  match (field h 8 4).toNat with
  | 0 => .bcond .eq imm8
  | 1 => .bcond .ne imm8
  | 2 => .bcond .cs imm8
  | 3 => .bcond .cc imm8
  | 4 => .bcond .mi imm8
  | 5 => .bcond .pl imm8
  | 6 => .bcond .vs imm8
  | 7 => .bcond .vc imm8
  | 8 => .bcond .hi imm8
  | 9 => .bcond .ls imm8
  | 10 => .bcond .ge imm8
  | 11 => .bcond .lt imm8
  | 12 => .bcond .gt imm8
  | 13 => .bcond .le imm8
  | 14 => .udf imm8
  | _ => .svc imm8

/-- The one-halfword instructions by the map of R110: an ordered scan in which a specific row stands before its general
row (R104). `none` is an unallocated value (R113) or the first half of two (R102). -/
def decodeShort (h : Halfword) : Option Instr :=
  let d := lowField h 0
  let n := lowField h 3
  let w := lowField h 8
  let imm5 := field h 6 5
  let imm8 := field h 0 8
  match (field h 11 5).toNat with
  | 0b00000 => if imm5 = 0 then some (.movsReg d n) else some (.lslsImm d n imm5)
  | 0b00001 => some (.lsrsImm d n imm5)
  | 0b00010 => some (.asrsImm d n imm5)
  | 0b00011 =>
    match (field h 9 2).toNat with
    | 0 => some (.addsReg d n (lowField h 6))
    | 1 => some (.subsReg d n (lowField h 6))
    | 2 => some (.addsImm3 d n (field h 6 3))
    | _ => some (.subsImm3 d n (field h 6 3))
  | 0b00100 => some (.movsImm w imm8)
  | 0b00101 => some (.cmpImm w imm8)
  | 0b00110 => some (.addsImm8 w imm8)
  | 0b00111 => some (.subsImm8 w imm8)
  | 0b01000 => if field h 10 1 = 0 then some (decodeDataProcessing h) else decodeHighRegister h
  | 0b01001 => some (.ldrLit w imm8)
  | 0b01010 => some (decodeRegisterOffset h)
  | 0b01011 => some (decodeRegisterOffset h)
  | 0b01100 => some (.strImm d n imm5)
  | 0b01101 => some (.ldrImm d n imm5)
  | 0b01110 => some (.strbImm d n imm5)
  | 0b01111 => some (.ldrbImm d n imm5)
  | 0b10000 => some (.strhImm d n imm5)
  | 0b10001 => some (.ldrhImm d n imm5)
  | 0b10010 => some (.strSp w imm8)
  | 0b10011 => some (.ldrSp w imm8)
  | 0b10100 => some (.adr w imm8)
  | 0b10101 => some (.addRdSp w imm8)
  | 0b10110 => decodeMisc10110 h
  | 0b10111 => decodeMisc10111 h
  | 0b11000 => some (.stm w imm8)
  | 0b11001 => some (.ldm w imm8)
  | 0b11010 => some (decodeConditional h)
  | 0b11011 => some (decodeConditional h)
  | 0b11100 => some (.b (field h 0 11))
  | _ => none

/-- The two-halfword instructions: `BL` (R98), and the rows that are refused by name (R112). -/
def decodeLong (hw1 hw2 : Halfword) : Option Instr :=
  if field hw1 11 5 = 0b11110 ∧ field hw2 14 2 = 0b11 ∧ field hw2 12 1 = 1 then
    some (.bl (field hw1 10 1) (field hw1 0 10) (field hw2 13 1) (field hw2 11 1) (field hw2 0 11))
  else if field hw1 4 12 = 0xF38 ∧ field hw2 8 8 = 0x88 then some (.msr (field hw1 0 4).toFin (field hw2 0 8))
  else if hw1 = 0xF3EF ∧ field hw2 12 4 = 0x8 then some (.mrs (field hw2 8 4).toFin (field hw2 0 8))
  else if hw1 = 0xF3BF ∧ field hw2 4 12 = 0x8F4 then some (.dsb (field hw2 0 4))
  else if hw1 = 0xF3BF ∧ field hw2 4 12 = 0x8F5 then some (.dmb (field hw2 0 4))
  else if hw1 = 0xF3BF ∧ field hw2 4 12 = 0x8F6 then some (.isb (field hw2 0 4))
  else none

/-- Why no instruction was read: no row fits the halfword, or the pair, or there are too few bytes. -/
inductive Reject where
  /-- a one-halfword value that fits no row (R113) -/
  | unallocated (hw1 : Halfword)
  /-- a pair that is neither `BL` nor a row refused by name (R112) -/
  | unallocatedPair (hw1 hw2 : Halfword)
  /-- fewer bytes than the instruction has (only `decodeBytes`; a fetch always has its bytes) -/
  | truncated
  deriving DecidableEq, Repr

/-- `Decode(hw1, hw2)` (R103). `hw2` counts only where `hw1` begins a two-halfword instruction. A row that the spec
refuses by name decodes to its constructor, whose meaning raises `Undefined` (R111, R112, R116). -/
def decode (hw1 hw2 : Halfword) : Except Reject Instr :=
  if isLong hw1 then
    match decodeLong hw1 hw2 with
    | some i => .ok i
    | none => .error (.unallocatedPair hw1 hw2)
  else
    match decodeShort hw1 with
    | some i => .ok i
    | none => .error (.unallocated hw1)

/-- Two bytes as a halfword, the lower address least significant (R52). -/
def halfwordLE (lo hi : Byte) : Halfword := hi ++ lo

/-- Decoding the bytes of memory in address order: the instruction and the bytes after it (R91). -/
def decodeBytes : List Byte → Except Reject (Instr × List Byte)
  | b0 :: b1 :: rest =>
    let hw1 := halfwordLE b0 b1
    if isLong hw1 then
      match rest with
      | b2 :: b3 :: rest' => (decode hw1 (halfwordLE b2 b3)).map (·, rest')
      | _ => .error .truncated
    else (decode hw1 0).map (·, rest)
  | _ => .error .truncated

/-! ## The encoder -/

/-- A field's bits moved to where the encoding holds them. -/
def place {n : Nat} (v : BitVec n) (lo : Nat) : Halfword := v.setWidth 16 <<< lo

/-- A 3-bit register field. -/
def placeLow (r : LowReg) (lo : Nat) : Halfword := place (BitVec.ofFin (w := 3) r) lo

/-- The 4-bit register field `hw1[6:3]`. -/
def placeRm (r : Reg) : Halfword := place (BitVec.ofFin (w := 4) r) 3

/-- The split register field: `(Rd>>3)<<7 | (Rd AND 7)` (R200). -/
def placeSplit (r : Reg) : Halfword :=
  place ((BitVec.ofFin (w := 4) r).extractLsb' 3 1) 7 ||| place ((BitVec.ofFin (w := 4) r).extractLsb' 0 3) 0

/-- The condition field's value (R145). -/
def Cond.code : Cond → BitVec 4
  | .eq => 0 | .ne => 1 | .cs => 2 | .cc => 3 | .mi => 4 | .pl => 5 | .vs => 6 | .vc => 7
  | .hi => 8 | .ls => 9 | .ge => 10 | .lt => 11 | .gt => 12 | .le => 13

/-- The first halfword, by the Encoding line of each rule. -/
def encodeFirst : Instr → Halfword
  | .lslsImm rd rm imm5 => 0x0000 ||| place imm5 6 ||| placeLow rm 3 ||| placeLow rd 0
  | .movsReg rd rm => 0x0000 ||| placeLow rm 3 ||| placeLow rd 0
  | .lsrsImm rd rm imm5 => 0x0800 ||| place imm5 6 ||| placeLow rm 3 ||| placeLow rd 0
  | .asrsImm rd rm imm5 => 0x1000 ||| place imm5 6 ||| placeLow rm 3 ||| placeLow rd 0
  | .addsReg rd rn rm => 0x1800 ||| placeLow rm 6 ||| placeLow rn 3 ||| placeLow rd 0
  | .subsReg rd rn rm => 0x1A00 ||| placeLow rm 6 ||| placeLow rn 3 ||| placeLow rd 0
  | .addsImm3 rd rn imm3 => 0x1C00 ||| place imm3 6 ||| placeLow rn 3 ||| placeLow rd 0
  | .subsImm3 rd rn imm3 => 0x1E00 ||| place imm3 6 ||| placeLow rn 3 ||| placeLow rd 0
  | .movsImm r imm8 => 0x2000 ||| placeLow r 8 ||| place imm8 0
  | .cmpImm r imm8 => 0x2800 ||| placeLow r 8 ||| place imm8 0
  | .addsImm8 r imm8 => 0x3000 ||| placeLow r 8 ||| place imm8 0
  | .subsImm8 r imm8 => 0x3800 ||| placeLow r 8 ||| place imm8 0
  | .ands d m => 0x4000 ||| placeLow m 3 ||| placeLow d 0
  | .eors d m => 0x4040 ||| placeLow m 3 ||| placeLow d 0
  | .lslsReg d m => 0x4080 ||| placeLow m 3 ||| placeLow d 0
  | .lsrsReg d m => 0x40C0 ||| placeLow m 3 ||| placeLow d 0
  | .asrsReg d m => 0x4100 ||| placeLow m 3 ||| placeLow d 0
  | .adcs d m => 0x4140 ||| placeLow m 3 ||| placeLow d 0
  | .sbcs d m => 0x4180 ||| placeLow m 3 ||| placeLow d 0
  | .rors d m => 0x41C0 ||| placeLow m 3 ||| placeLow d 0
  | .tst d m => 0x4200 ||| placeLow m 3 ||| placeLow d 0
  | .rsbs d m => 0x4240 ||| placeLow m 3 ||| placeLow d 0
  | .cmpReg d m => 0x4280 ||| placeLow m 3 ||| placeLow d 0
  | .cmn d m => 0x42C0 ||| placeLow m 3 ||| placeLow d 0
  | .orrs d m => 0x4300 ||| placeLow m 3 ||| placeLow d 0
  | .muls d m => 0x4340 ||| placeLow m 3 ||| placeLow d 0
  | .bics d m => 0x4380 ||| placeLow m 3 ||| placeLow d 0
  | .mvns d m => 0x43C0 ||| placeLow m 3 ||| placeLow d 0
  | .addHi d m => 0x4400 ||| placeRm m ||| placeSplit d
  | .cmpHi d m => 0x4500 ||| placeRm m ||| placeSplit d
  | .movHi d m => 0x4600 ||| placeRm m ||| placeSplit d
  | .bx m => 0x4700 ||| placeRm m
  | .blx m => 0x4780 ||| placeRm m
  | .ldrLit rt imm8 => 0x4800 ||| placeLow rt 8 ||| place imm8 0
  | .strReg rt rn rm => 0x5000 ||| placeLow rm 6 ||| placeLow rn 3 ||| placeLow rt 0
  | .strhReg rt rn rm => 0x5200 ||| placeLow rm 6 ||| placeLow rn 3 ||| placeLow rt 0
  | .strbReg rt rn rm => 0x5400 ||| placeLow rm 6 ||| placeLow rn 3 ||| placeLow rt 0
  | .ldrsbReg rt rn rm => 0x5600 ||| placeLow rm 6 ||| placeLow rn 3 ||| placeLow rt 0
  | .ldrReg rt rn rm => 0x5800 ||| placeLow rm 6 ||| placeLow rn 3 ||| placeLow rt 0
  | .ldrhReg rt rn rm => 0x5A00 ||| placeLow rm 6 ||| placeLow rn 3 ||| placeLow rt 0
  | .ldrbReg rt rn rm => 0x5C00 ||| placeLow rm 6 ||| placeLow rn 3 ||| placeLow rt 0
  | .ldrshReg rt rn rm => 0x5E00 ||| placeLow rm 6 ||| placeLow rn 3 ||| placeLow rt 0
  | .strImm rt rn imm5 => 0x6000 ||| place imm5 6 ||| placeLow rn 3 ||| placeLow rt 0
  | .ldrImm rt rn imm5 => 0x6800 ||| place imm5 6 ||| placeLow rn 3 ||| placeLow rt 0
  | .strbImm rt rn imm5 => 0x7000 ||| place imm5 6 ||| placeLow rn 3 ||| placeLow rt 0
  | .ldrbImm rt rn imm5 => 0x7800 ||| place imm5 6 ||| placeLow rn 3 ||| placeLow rt 0
  | .strhImm rt rn imm5 => 0x8000 ||| place imm5 6 ||| placeLow rn 3 ||| placeLow rt 0
  | .ldrhImm rt rn imm5 => 0x8800 ||| place imm5 6 ||| placeLow rn 3 ||| placeLow rt 0
  | .strSp r imm8 => 0x9000 ||| placeLow r 8 ||| place imm8 0
  | .ldrSp r imm8 => 0x9800 ||| placeLow r 8 ||| place imm8 0
  | .adr r imm8 => 0xA000 ||| placeLow r 8 ||| place imm8 0
  | .addRdSp r imm8 => 0xA800 ||| placeLow r 8 ||| place imm8 0
  | .addSp imm7 => 0xB000 ||| place imm7 0
  | .subSp imm7 => 0xB080 ||| place imm7 0
  | .sxth rd rm => 0xB200 ||| placeLow rm 3 ||| placeLow rd 0
  | .sxtb rd rm => 0xB240 ||| placeLow rm 3 ||| placeLow rd 0
  | .uxth rd rm => 0xB280 ||| placeLow rm 3 ||| placeLow rd 0
  | .uxtb rd rm => 0xB2C0 ||| placeLow rm 3 ||| placeLow rd 0
  | .push m list => 0xB400 ||| place (BitVec.ofBool m) 8 ||| place list 0
  | .cps im => 0xB662 ||| place (BitVec.ofBool im) 4
  | .rev rd rm => 0xBA00 ||| placeLow rm 3 ||| placeLow rd 0
  | .rev16 rd rm => 0xBA40 ||| placeLow rm 3 ||| placeLow rd 0
  | .revsh rd rm => 0xBAC0 ||| placeLow rm 3 ||| placeLow rd 0
  | .pop m list => 0xBC00 ||| place (BitVec.ofBool m) 8 ||| place list 0
  | .bkpt imm8 => 0xBE00 ||| place imm8 0
  | .nop => 0xBF00
  | .yield => 0xBF10
  | .wfe => 0xBF20
  | .wfi => 0xBF30
  | .sev => 0xBF40
  | .stm rn list => 0xC000 ||| placeLow rn 8 ||| place list 0
  | .ldm rn list => 0xC800 ||| placeLow rn 8 ||| place list 0
  | .bcond cond imm8 => 0xD000 ||| place cond.code 8 ||| place imm8 0
  | .udf imm8 => 0xDE00 ||| place imm8 0
  | .svc imm8 => 0xDF00 ||| place imm8 0
  | .b imm11 => 0xE000 ||| place imm11 0
  | .bl s imm10 _ _ _ => 0xF000 ||| place s 10 ||| place imm10 0
  | .msr rn _ => 0xF380 ||| place (BitVec.ofFin (w := 4) rn) 0
  | .mrs _ _ => 0xF3EF
  | .dsb _ => 0xF3BF
  | .dmb _ => 0xF3BF
  | .isb _ => 0xF3BF

/-- The second halfword of the two-halfword rows (R98, R112). -/
def encodeSecond : Instr → Option Halfword
  | .bl _ _ j1 j2 imm11 => some (0xD000 ||| place j1 13 ||| place j2 11 ||| place imm11 0)
  | .msr _ sysm => some (0x8800 ||| place sysm 0)
  | .mrs rd sysm => some (0x8000 ||| place (BitVec.ofFin (w := 4) rd) 8 ||| place sysm 0)
  | .dsb option => some (0x8F40 ||| place option 0)
  | .dmb option => some (0x8F50 ||| place option 0)
  | .isb option => some (0x8F60 ||| place option 0)
  | _ => none

/-- The words of an instruction, the first at the lower address (R91). -/
def encode (i : Instr) : List Halfword := encodeFirst i :: (encodeSecond i).toList

/-- The number of the instruction's row in the opcode table. -/
def Instr.rowIndex : Instr → Nat
  | .lslsImm _ _ _ => 0
  | .movsReg _ _ => 1
  | .lsrsImm _ _ _ => 2
  | .asrsImm _ _ _ => 3
  | .addsReg _ _ _ => 4
  | .subsReg _ _ _ => 5
  | .addsImm3 _ _ _ => 6
  | .subsImm3 _ _ _ => 7
  | .movsImm _ _ => 8
  | .cmpImm _ _ => 9
  | .addsImm8 _ _ => 10
  | .subsImm8 _ _ => 11
  | .ands _ _ => 12
  | .eors _ _ => 13
  | .lslsReg _ _ => 14
  | .lsrsReg _ _ => 15
  | .asrsReg _ _ => 16
  | .adcs _ _ => 17
  | .sbcs _ _ => 18
  | .rors _ _ => 19
  | .tst _ _ => 20
  | .rsbs _ _ => 21
  | .cmpReg _ _ => 22
  | .cmn _ _ => 23
  | .orrs _ _ => 24
  | .muls _ _ => 25
  | .bics _ _ => 26
  | .mvns _ _ => 27
  | .addHi _ _ => 28
  | .cmpHi _ _ => 29
  | .movHi _ _ => 30
  | .bx _ => 31
  | .blx _ => 32
  | .ldrLit _ _ => 33
  | .strReg _ _ _ => 34
  | .strhReg _ _ _ => 35
  | .strbReg _ _ _ => 36
  | .ldrsbReg _ _ _ => 37
  | .ldrReg _ _ _ => 38
  | .ldrhReg _ _ _ => 39
  | .ldrbReg _ _ _ => 40
  | .ldrshReg _ _ _ => 41
  | .strImm _ _ _ => 42
  | .ldrImm _ _ _ => 43
  | .strbImm _ _ _ => 44
  | .ldrbImm _ _ _ => 45
  | .strhImm _ _ _ => 46
  | .ldrhImm _ _ _ => 47
  | .strSp _ _ => 48
  | .ldrSp _ _ => 49
  | .adr _ _ => 50
  | .addRdSp _ _ => 51
  | .addSp _ => 52
  | .subSp _ => 53
  | .sxth _ _ => 54
  | .sxtb _ _ => 55
  | .uxth _ _ => 56
  | .uxtb _ _ => 57
  | .push _ _ => 58
  | .cps _ => 59
  | .rev _ _ => 60
  | .rev16 _ _ => 61
  | .revsh _ _ => 62
  | .pop _ _ => 63
  | .bkpt _ => 64
  | .nop => 65
  | .yield => 66
  | .wfe => 67
  | .wfi => 68
  | .sev => 69
  | .stm _ _ => 70
  | .ldm _ _ => 71
  | .bcond _ _ => 72
  | .udf _ => 73
  | .svc _ => 74
  | .b _ => 75
  | .bl _ _ _ _ _ => 76
  | .msr _ _ => 77
  | .mrs _ _ => 78
  | .dsb _ => 79
  | .dmb _ => 80
  | .isb _ => 81

/-! ## The table's numbering of an instruction's bits -/

/-- The four bytes an instruction's bits stand for in memory, bit 0 the least significant of the first halfword: each
halfword little endian, the first at the lowest address (R52, R91). Bits at and above `nbits` are 0. -/
def tableBytes (nbits w : Nat) : List Byte :=
  let v := w % 2 ^ nbits
  [BitVec.ofNat 8 v, BitVec.ofNat 8 (v / 2 ^ 8), BitVec.ofNat 8 (v / 2 ^ 16), BitVec.ofNat 8 (v / 2 ^ 24)]

/-- The instruction the decoder reads from an instruction whose bits are `w`, `none` where it refuses. -/
def decodeTableWord (nbits w : Nat) : Option Instr :=
  match decodeBytes (tableBytes nbits w) with
  | .ok (i, _) => some i
  | .error _ => none

end Sys2Proof
end

