-- ==== Sys2Proof/Config.lean ====
section
/-! DEFINITION. What an implementation of the block fixes and what the spec leaves open (`00_scope.md` R4,
`20_memory.md` R60, R61, R66): device descriptors and device states as plain data, the behaviour of custom devices and
the values that stay unspecified after a fault as uninterpreted constants. The parameters themselves (the device list,
the sentinel, the image, the entry address) are fields of `Machine.State`, so a statement about every state holds for
every choice of them (assumption log 1, 2, 3). -/

namespace Sys2Proof

/-- A sparse byte store: (address, byte) pairs, addresses strictly rising, no pair that holds zero; an address that is
not listed reads as zero ("sparse address→byte mapping (unwritten addresses read as zero)", R36). -/
abbrev Memory := List Host.Cell

/-- The state `dev[d]` of one device (R37). `bytes` is the byte store of the default device (R66); `extra` is whatever
else a custom device keeps, as a list of numbers (DESIGN CHOICE, assumption log 6). -/
structure DevState where
  bytes : Memory
  extra : List Nat
  deriving DecidableEq, Repr, Inhabited

/-- How a device answers byte accesses (R66): the default byte store, or functions of its own, named by a number. -/
inductive Behaviour where
  /-- the default device of R66 -/
  | byteStore
  /-- a device with custom functions, a parameter of the model (R66, U12) -/
  | custom (id : Nat)
  deriving DecidableEq, Repr, Inhabited

/-- A device descriptor (R61). `last` is the descriptor's `end`, an inclusive bound; `resetState` is `DEV_RESET[d]`. -/
structure DeviceDesc where
  start      : Word
  last       : Word
  isReadOnly : Bool
  isVolatile : Bool
  behaviour  : Behaviour
  resetState : DevState
  deriving DecidableEq, Repr, Inhabited

namespace Config

/-- The default of the parameter `END_OF_CODE` (D4). -/
def endOfCodeDefault : Halfword := 0xFFFF

/-- The byte read function `d.read(s, a)` of the custom device `id` (R61, R66): a parameter, never evaluated. -/
opaque customRead : (id : Nat) → (st : DevState) → (a : Word) → Byte

/-- The byte write function `d.write(s, a, b)` of the custom device `id` (R61, R66): the new state, or `none` where the
device reports an error. A parameter, never evaluated. -/
opaque customWrite : (id : Nat) → (st : DevState) → (a : Word) → (b : Byte) → Option DevState

/-- What the host's `dev_input(d, event)` makes of a device's state (R68), or the device's own message where the event is
invalid (R309 (b)). Events are named by numbers. A parameter, never evaluated. -/
opaque deviceInput : (d : DeviceDesc) → (st : DevState) → (event : Nat) → Except String DevState

/-- The message of a `dev_input` at a position that has no device, or one that takes no host input because it is not
volatile: the spec fixes no text (R309, R68, assumption log 8). -/
opaque inputRefused : (i : Nat) → (event : Nat) → String

/-- Free values: what the `k`-th fault leaves in register `i` (R305, U1). -/
opaque faultReg : (k : Nat) → (i : Fin 16) → Word

/-- Free values: what the `k`-th fault leaves in the flags N, Z, C, V, numbered 0 to 3 (R305, U1). -/
opaque faultFlag : (k : Nat) → (i : Fin 4) → Bool

/-- Free values: what the `k`-th fault leaves in the fall-through memory (R305, U1). -/
opaque faultMem : (k : Nat) → Memory

/-- Free values: what the `k`-th fault leaves in the state of the device at position `i` (R305, U1). -/
opaque faultDev : (k : Nat) → (i : Nat) → DevState

/-- How many leading zeros the routing error prints before the address's digits: the spec leaves the digit count open
(R70, U19). -/
opaque routingPadding : (a : Word) → Nat

end Config

end Sys2Proof
end

