-- ==== Sys2Proof/Machine/State.lean ====
section
/-! DEFINITION. Everything the spec gives the machine (`10_state.md`), as plain data, and the state after reset (R40). -/

namespace Sys2Proof.Machine

/-- The four condition flags (R29). -/
structure Flags where
  n : Bool
  z : Bool
  c : Bool
  v : Bool
  deriving DecidableEq, Repr, Inhabited

/-- The sequencer's run states (R38, R330). -/
inductive RunState where
  | idle | running | halted | faulted
  deriving DecidableEq, Repr, Inhabited

/-- The faults an instruction cycle can raise, with the recorded info (R301). Raising one is NOT an outcome of its own in
this model: the fault's entry is described by the spec (R305), so the cycle ends in a next state in run state `faulted`
with the record written (`State.takeFault`). No step and no instruction answers `Host.Outcome.fault`, so no constructor
can hide an effect: safe (assumption log 5). -/
inductive Fault where
  /-- code 1, raised by the decoder and by the rows refused by name: no row fits, or the row is refused; safe -/
  | undefined (hw1 : Halfword) (hw2 : Option Halfword)
  /-- code 2, raised by `ADD`, `CMP` high, `BLX`, `PUSH`, `POP`, `STM`, `LDM` on the operands of R115; safe -/
  | unpredictable (hw1 : Halfword)
  /-- code 3, raised by `BX`, `BLX`, `POP` with PC: a branch-exchange target with bit 0 clear (R205); safe -/
  | interwork (t : Word)
  /-- code 4, raised by every access of 2 or 4 bytes that would pass the top of the address space (R71); safe -/
  | addressRange (a : Word)
  /-- code 5, raised by a store byte that a read-only device owns (R67); safe -/
  | readOnlyWrite (a : Word)
  /-- code 6, raised by a store byte whose device reports an error (R66, R67); safe -/
  | deviceError (a : Word)
  deriving DecidableEq, Repr

/-- Why a step has no meaning in the model. -/
inductive Refusal where
  /-- An instruction the model has no meaning for, by its mnemonic. No arm of `exec` answers it: every row has its
  meaning. It would be safe. -/
  | notModelled (mnemonic : String)
  deriving DecidableEq, Repr

/-- The fault record `(code, info, ia)`: the fault carries code and info (R300, R301). -/
structure FaultRecord where
  fault : Fault
  ia    : Word
  deriving DecidableEq, Repr

/-- A device of the bus: its descriptor, which never changes, and its state `dev[d]` (R37, R61). -/
structure Device where
  desc  : DeviceDesc
  state : DevState
  deriving DecidableEq, Repr, Inhabited

structure State where
  /-- `x[0]` to `x[15]` (R20) -/
  regs      : Vector Word 16
  /-- N, Z, C, V (R29) -/
  flags     : Flags
  /-- the fall-through memory (R36, R50) -/
  mem       : Memory
  /-- `DEVICES` with each device's state, in the order of the list (R37, R60) -/
  devices   : List Device
  /-- the run state (R38) -/
  run       : RunState
  /-- the halt request (R38) -/
  haltReq   : Bool
  /-- set when the sentinel is fetched (R38) -/
  completed : Bool
  /-- the fault record (R38, R300) -/
  fault     : Option FaultRecord
  /-- the stored image: (address, byte) pairs in load order (R39, R85) -/
  image     : List (Word × Byte)
  /-- the stored entry address (R39) -/
  entry     : Word
  /-- the parameter `END_OF_CODE` (R4, R101) -/
  endOfCode : Halfword
  /-- the model's own: which free value the next fault entry takes (assumption log 4) -/
  freeCount : Nat
  deriving DecidableEq, Repr

/-- The machine right after `reset` (R40), with the parameters of assumption log 1, 2 and 3: no device, no image, entry
0, the default sentinel. -/
def State.reset : State where
  regs      := ⟨#[0, 0, 0, 0, 0, 0, 0, 0, 0, 0, 0, 0, 0, 0, 0, 0], rfl⟩
  flags     := ⟨false, false, false, false⟩
  mem       := []
  devices   := []
  run       := .idle
  haltReq   := false
  completed := false
  fault     := none
  image     := []
  entry     := 0
  endOfCode := Config.endOfCodeDefault
  freeCount := 0

end Sys2Proof.Machine
end

