-- ==== Sys2Proof/Machine/Ops.lean ====
section
/-! DEFINITION. The named operations of the machine: registers and PC (`10_state.md` R20 to R28), flags (R29, R30), the
fall-through memory and the bus dispatcher (`20_memory.md` R50 to R73), fault entry (`60_exceptions.md` R305) and the
`reset` transaction that alone leaves it (R306, R331). -/

namespace Sys2Proof.Machine

/-- What every meaning answers. -/
abbrev Result := Host.Outcome State Fault Refusal

/-! ## Registers -/

abbrev spReg : Reg := 13
abbrev lrReg : Reg := 14
abbrev pcReg : Reg := 15

/-- The register a 3-bit field names (R21). -/
def low (r : LowReg) : Reg := r.castLE (by decide)

namespace State

/-- `x[i]` as stored (R8). -/
def reg (s : State) (r : Reg) : Word := s.regs[r.val]

/-- `x[i] <- v` (R8); no validation, no bit forced (R20, R22). -/
def setReg (s : State) (r : Reg) (v : Word) : State := { s with regs := s.regs.set r.val v }

/-- The stored PC (R24). -/
def pc (s : State) : Word := s.reg pcReg

/-- `pc <- target`: bit 0 of the target is cleared (R8, R26). -/
def branchTo (s : State) (target : Word) : State := s.setReg pcReg (target &&& 0xFFFFFFFE)

/-- The address `ia` of a one-halfword instruction while it executes: the sequencer has stored `ia + 2` (R24). -/
def iaShort (s : State) : Word := s.pc - 2

/-- The address `ia` of a two-halfword instruction while it executes: the sequencer has stored `ia + 4` (R24). -/
def iaLong (s : State) : Word := s.pc - 4

/-- The operand read `RegRead(i)` of a one-halfword instruction: PC reads as `ia + 4` (R8, R25). -/
def regRead (s : State) (r : Reg) : Word := if r = pcReg then s.iaShort + 4 else s.reg r

/-- A result written to any register: to PC it is a branch (R206). -/
def writeResult (s : State) (r : Reg) (v : Word) : State := if r = pcReg then s.branchTo v else s.setReg r v

/-- `flags <- (n, z, c, v)`: all four at once (R8, R29). -/
def setFlags (s : State) (f : Flags) : State := { s with flags := f }

end State

/-- The APSR view: N, Z, C, V in bits 31 to 28, bits 27:0 zero (R30). -/
def Flags.apsr (f : Flags) : Word :=
  BitVec.ofBool f.n ++ BitVec.ofBool f.z ++ BitVec.ofBool f.c ++ BitVec.ofBool f.v ++ 0#28

end Sys2Proof.Machine

/-! ## Byte stores -/

namespace Sys2Proof

/-- The byte at an address: the listed one, or zero (R50). -/
def Memory.read : Memory → Nat → Byte
  | [], _ => 0
  | (k, b) :: m, a => if k = a then b else Memory.read m a

/-- `mem(a) <- b` (R50), keeping the canonical form: a zero byte is not listed. -/
def Memory.write : Memory → Nat → Byte → Memory
  | [], a, b => if b = 0 then [] else [(a, b)]
  | (k, c) :: m, a, b =>
    if a < k then if b = 0 then (k, c) :: m else (a, b) :: (k, c) :: m
    else if a = k then if b = 0 then m else (a, b) :: m
    else (k, c) :: Memory.write m a b

/-- The canonical form: addresses strictly rising and below 2^32, no listed byte zero. -/
abbrev Memory.wf (m : Memory) : Prop :=
  m.Pairwise (fun c d => c.1 < d.1) ∧ ∀ c ∈ m, c.1 < 2 ^ 32 ∧ c.2 ≠ 0

/-- Any list of cells brought to the canonical form, a later pair for the same address winning. -/
def Memory.ofCells (cells : List Host.Cell) : Memory :=
  cells.foldl (fun m c => Memory.write m (c.1 % 2 ^ 32) c.2) []

/-- An uninterpreted device state brought to the canonical form of its byte store (assumption log 6). -/
def DevState.canonical (st : DevState) : DevState := { st with bytes := Memory.ofCells st.bytes }

/-- `isResponsibleFor(d, a)`: an inclusive range check (R62). -/
def DeviceDesc.isResponsibleFor (d : DeviceDesc) (a : Word) : Bool := decide (d.start ≤ a) && decide (a ≤ d.last)

end Sys2Proof

namespace Sys2Proof.Machine

/-! ## Devices and the bus -/

/-- `d.read(dev[d], a)` (R65, R66). -/
def Device.read (d : Device) (a : Word) : Byte :=
  match d.desc.behaviour with
  | .byteStore => d.state.bytes.read a.toNat
  | .custom id => Config.customRead id d.state a

/-- `d.write(dev[d], a, b)`: the new state, or `none` where the device reports an error (R66, R67). -/
def Device.write (d : Device) (a : Word) (b : Byte) : Option DevState :=
  match d.desc.behaviour with
  | .byteStore => some { d.state with bytes := d.state.bytes.write a.toNat b }
  | .custom id => (Config.customWrite id d.state a b).map DevState.canonical

/-- The byte write at the first responsible device of the list, and only there (R63, R67). -/
def writeDevices (a : Word) (b : Byte) : List Device → Except Fault (List Device)
  | [] => .ok []
  | d :: ds =>
    if d.desc.isResponsibleFor a then
      if d.desc.isReadOnly then .error (.readOnlyWrite a)
      else
        match d.write a b with
        | some st => .ok ({ d with state := st } :: ds)
        | none => .error (.deviceError a)
    else
      match writeDevices a b ds with
      | .ok ds' => .ok (d :: ds')
      | .error f => .error f

namespace State

/-- `owner(a)`: the first device in list order that is responsible, or none (R63). -/
def owner (s : State) (a : Word) : Option Device := s.devices.find? (·.desc.isResponsibleFor a)

/-- `BusReadByte(a)` (R65); no side effect (R69). -/
def busReadByte (s : State) (a : Word) : Byte :=
  match s.owner a with
  | some d => d.read a
  | none => s.mem.read a.toNat

/-- `BusWriteByte(a, b)` (R67). -/
def busWriteByte (s : State) (a : Word) (b : Byte) : Except Fault State :=
  match s.owner a with
  | some _ =>
    match writeDevices a b s.devices with
    | .ok ds => .ok { s with devices := ds }
    | .error f => .error f
  | none => .ok { s with mem := s.mem.write a.toNat b }

/-- The bytes at `a`, `a + 1`, … little endian: `sum of b_i * 2^(8 i)` (R72). -/
def busReadBytes (s : State) (a : Word) : Nat → Word
  | 0 => 0
  | n + 1 => (s.busReadByte a).setWidth 32 ||| (s.busReadBytes (a + 1) n <<< 8)

/-- The low bytes of `v` written at `a`, `a + 1`, … in ascending order (R73). -/
def busWriteBytes (s : State) (a : Word) (v : Word) : Nat → Except Fault State
  | 0 => .ok s
  | n + 1 =>
    match s.busWriteByte a (v.setWidth 8) with
    | .ok t => t.busWriteBytes (a + 1) (v >>> 8) n
    | .error f => .error f

end State

/-- The number of bytes of an access (R12). -/
inductive Width where
  | byte | half | word
  deriving DecidableEq, Repr

def Width.bytes : Width → Nat
  | .byte => 1
  | .half => 2
  | .word => 4

/-- Whether the last byte of an access passes the top of the address space (R71). -/
def outOfRange (a : Word) (w : Width) : Bool := decide (0xFFFFFFFF < a.toNat + w.bytes - 1)

namespace State

/-- `MemRead(a, n)`, zero-extended to a Word (R71, R72). -/
def memRead (s : State) (a : Word) (w : Width) : Except Fault Word :=
  if outOfRange a w then .error (.addressRange a) else .ok (s.busReadBytes a w.bytes)

/-- `MemWrite(a, n, v)` (R71, R73). -/
def memWrite (s : State) (a : Word) (w : Width) (v : Word) : Except Fault State :=
  if outOfRange a w then .error (.addressRange a) else s.busWriteBytes a v w.bytes

/-- One word load per listed register, ascending; the addresses come from `a`, not from a register (R263). -/
def loadRegs (s : State) (a : Word) : List Reg → Except Fault State
  | [] => .ok s
  | r :: rs =>
    match s.memRead a .word with
    | .ok v => (s.setReg r v).loadRegs (a + 4) rs
    | .error f => .error f

/-- One word store per listed register, ascending (R260, R262). -/
def storeRegs (s : State) (a : Word) : List Reg → Except Fault State
  | [] => .ok s
  | r :: rs =>
    match s.memWrite a .word (s.reg r) with
    | .ok t => t.storeRegs (a + 4) rs
    | .error f => .error f

/-- `BranchExchange(t)`: bit 0 of the target must be 1 and is then cleared (R205). -/
def branchExchange (s : State) (t : Word) : Except Fault State :=
  if t.getLsbD 0 then .ok (s.branchTo t) else .error (.interwork t)

/-! ## Fault entry, and reset -/

/-- The values of registers, flags, memory and device states after a fault are unspecified (R305): each is the next free
value of Config; the devices' descriptors are no state and stay (assumption log 4). -/
def unspecified (s : State) : State :=
  { s with
    regs := Vector.ofFn (Config.faultReg s.freeCount)
    flags := ⟨Config.faultFlag s.freeCount 0, Config.faultFlag s.freeCount 1, Config.faultFlag s.freeCount 2,
      Config.faultFlag s.freeCount 3⟩
    mem := Memory.ofCells (Config.faultMem s.freeCount)
    devices := s.devices.mapIdx fun i d => { d with state := (Config.faultDev s.freeCount i).canonical }
    freeCount := s.freeCount + 1 }

/-- Fault entry: "`fault <- (code(F), info, ia)`; `run <- Faulted`; the cycle ends" (R305). -/
def takeFault (s : State) (f : Fault) (ia : Word) : State :=
  { s.unspecified with run := .faulted, fault := some ⟨f, ia⟩ }

/-- The image written into an empty fall-through memory in list order (R85, R331 steps 2 and 4). -/
def imageMemory (image : List (Word × Byte)) : Memory :=
  image.foldl (fun m c => Memory.write m c.1.toNat c.2) []

/-- The `reset` transaction (R331), the only way out of state Faulted beside `load` (R306). -/
def resetTransaction (s : State) : State :=
  { s with
    regs := (Vector.replicate 16 (0 : Word)).set 15 s.entry
    flags := ⟨false, false, false, false⟩
    mem := imageMemory s.image
    devices := s.devices.map fun d => { d with state := d.desc.resetState }
    run := .idle
    haltReq := false
    completed := false
    fault := none }

end State

/-! ## How an instruction ends -/

/-- The end of an instruction at `ia` that may raise: the state it reached, or fault entry (R11, R305). -/
def complete (s : State) (ia : Word) : Except Fault State → Result
  | .ok t => .next t
  | .error f => .next (s.takeFault f ia)

/-- The end of a one-halfword instruction. -/
def completeShort (s : State) (r : Except Fault State) : Result := complete s s.iaShort r

/-- A one-halfword instruction that raises `f` (R11). -/
def raiseShort (s : State) (f : Fault) : Result := .next (s.takeFault f s.iaShort)

/-- A two-halfword instruction that raises `f` (R11). -/
def raiseLong (s : State) (f : Fault) : Result := .next (s.takeFault f s.iaLong)

end Sys2Proof.Machine

namespace Sys2Proof.Machine

/-- The numeric code of a fault (R301). -/
def Fault.code : Fault → Nat
  | .undefined _ _ => 1
  | .unpredictable _ => 2
  | .interwork _ => 3
  | .addressRange _ => 4
  | .readOnlyWrite _ => 5
  | .deviceError _ => 6

/-- The recorded info of a fault as the host reads it: one number, or two halfwords (R300, R301). -/
def Fault.info : Fault → List Nat
  | .undefined hw1 none => [hw1.toNat]
  | .undefined hw1 (some hw2) => [hw1.toNat, hw2.toNat]
  | .unpredictable hw1 => [hw1.toNat]
  | .interwork t => [t.toNat]
  | .addressRange a => [a.toNat]
  | .readOnlyWrite a => [a.toNat]
  | .deviceError a => [a.toNat]

end Sys2Proof.Machine
end

