-- ==== Sys2Proof/Machine/Flags.lean ====
section
/-! DEFINITION. The ALU: every result and flag computation of the block (`40_alu_flags.md` R130 to R148). -/

namespace Sys2Proof.Machine

/-- The tuple `{result, N, Z, C, V}` (R130). -/
structure AluOut where
  result : Word
  flags  : Flags
  deriving DecidableEq, Repr

/-- N and Z of a result (R132), with the C and V given. -/
def nzFlags (r : Word) (c v : Bool) : Flags := ⟨r.msb, r == 0, c, v⟩

/-- The tuple of a result with the C and V given. -/
def aluOut (r : Word) (c v : Bool) : AluOut := ⟨r, nzFlags r c v⟩

/-! ## Addition and subtraction -/

/-- The unbounded unsigned sum of R131. -/
def unsignedSum (x y : Word) (cin : Bool) : Nat := x.toNat + y.toNat + cin.toNat

/-- The unbounded signed sum of R131. -/
def signedSum (x y : Word) (cin : Bool) : Int := x.toInt + y.toInt + cin.toNat

/-- `result` of `AddWithCarry(x, y, cin)` (R131). -/
def addResult (x y : Word) (cin : Bool) : Word := BitVec.ofNat 32 (unsignedSum x y cin)

/-- `carry` of `AddWithCarry` (R131). -/
def addCarry (x y : Word) (cin : Bool) : Bool := decide (2 ^ 32 ≤ unsignedSum x y cin)

/-- `ovf` of `AddWithCarry` (R131). -/
def addOverflow (x y : Word) (cin : Bool) : Bool := decide ((addResult x y cin).toInt ≠ signedSum x y cin)

/-- `AddWithCarry(x, y, cin)` as the ALU's tuple (R131, R133). -/
def addWithCarry (x y : Word) (cin : Bool) : AluOut :=
  aluOut (addResult x y cin) (addCarry x y cin) (addOverflow x y cin)

/-- Addition (R133). -/
def aluAdd (a b : Word) : AluOut := addWithCarry a b false

/-- Subtraction `a - b` as `AddWithCarry(a, NOT b, 1)`: C means no borrow (R134). -/
def aluSub (a b : Word) : AluOut := addWithCarry a (~~~b) true

/-- `ADCS` (R135). -/
def aluAdc (a b : Word) (c : Bool) : AluOut := addWithCarry a b c

/-- `SBCS`: the old C is the inverted borrow (R135). -/
def aluSbc (a b : Word) (c : Bool) : AluOut := addWithCarry a (~~~b) c

/-- `RSBS Rd, Rn, #0` as `AddWithCarry(NOT x[n], 0, 1)` (R189). -/
def aluNeg (b : Word) : AluOut := addWithCarry (~~~b) 0 true

/-! ## Logic, moves and multiply: N and Z from the result, C and V kept (R136, R143) -/

def aluLogic (r : Word) (old : Flags) : AluOut := aluOut r old.c old.v

/-- The low 32 bits of the product (R143). -/
def aluMul (a b : Word) (old : Flags) : AluOut := aluOut (BitVec.ofNat 32 (a.toNat * b.toNat)) old.c old.v

/-! ## Shifts and rotates: the functions of R137 to R140, for an amount of 1 or more (R148) -/

/-- A shift function's result and carry. -/
structure ShiftOut where
  result : Word
  carry  : Bool
  deriving DecidableEq, Repr

/-- `LSL_C(x, n)` (R137). -/
def lslC (x : Word) (n : Nat) : ShiftOut :=
  if n ≤ 31 then ⟨x <<< n, x.getLsbD (32 - n)⟩ else if n = 32 then ⟨0, x.getLsbD 0⟩ else ⟨0, false⟩

/-- `LSR_C(x, n)` (R138). -/
def lsrC (x : Word) (n : Nat) : ShiftOut :=
  if n ≤ 31 then ⟨x >>> n, x.getLsbD (n - 1)⟩ else if n = 32 then ⟨0, x.getLsbD 31⟩ else ⟨0, false⟩

/-- `ASR_C(x, n)` (R139). -/
def asrC (x : Word) (n : Nat) : ShiftOut :=
  if n ≤ 31 then ⟨x.sshiftRight n, x.getLsbD (n - 1)⟩
  else ⟨if x.getLsbD 31 then 0xFFFFFFFF else 0, x.getLsbD 31⟩

/-- `ROR_C(x, n)` (R140): the low `n mod 32` bits move to the top; the carry is the result's bit 31. -/
def rorC (x : Word) (n : Nat) : ShiftOut :=
  let r := n % 32
  let result := if r = 0 then x else (x >>> r) ||| (x <<< (32 - r))
  ⟨result, result.getLsbD 31⟩

/-- A shift by `n`: amount 0 passes the value through with C unchanged (R141, R142); N and Z are written either way, V
is kept. -/
def aluShift (f : Word → Nat → ShiftOut) (x : Word) (n : Nat) (old : Flags) : AluOut :=
  if n = 0 then aluOut x old.c old.v else aluOut (f x n).result (f x n).carry old.v

/-! ## Writing the tuple back (R130, R146) -/

/-- The result to its register and the four flags, together (R146). -/
def State.writeAlu (s : State) (r : Reg) (o : AluOut) : State := (s.setReg r o.result).setFlags o.flags

/-- A compare or test: the result is discarded (R130). -/
def State.writeFlags (s : State) (o : AluOut) : State := s.setFlags o.flags

/-! ## Conditions -/

/-- `ConditionPassed(cond)` (R145). -/
def conditionPassed (cond : Cond) (f : Flags) : Bool :=
  match cond with
  | .eq => f.z
  | .ne => !f.z
  | .cs => f.c
  | .cc => !f.c
  | .mi => f.n
  | .pl => !f.n
  | .vs => f.v
  | .vc => !f.v
  | .hi => f.c && !f.z
  | .ls => !f.c || f.z
  | .ge => f.n == f.v
  | .lt => f.n != f.v
  | .gt => !f.z && f.n == f.v
  | .le => f.z || f.n != f.v

/-! ## Extension and byte reversal (R147) -/

def signExtend8 (x : Word) : Word := (x.setWidth 8).signExtend 32

def signExtend16 (x : Word) : Word := (x.setWidth 16).signExtend 32

def zeroExtend8 (x : Word) : Word := (x.setWidth 8).setWidth 32

def zeroExtend16 (x : Word) : Word := (x.setWidth 16).setWidth 32

/-- Byte `i` of a word, 0 the least significant. -/
def byteOf (x : Word) (i : Nat) : Byte := x.extractLsb' (8 * i) 8

/-- `Rev(x)` (R147). -/
def revWord (x : Word) : Word := byteOf x 0 ++ byteOf x 1 ++ byteOf x 2 ++ byteOf x 3

/-- `Rev16(x)` (R147). -/
def rev16Word (x : Word) : Word := byteOf x 2 ++ byteOf x 3 ++ byteOf x 0 ++ byteOf x 1

/-- `RevSH(x)` (R147). -/
def revshWord (x : Word) : Word := (byteOf x 0 ++ byteOf x 1).signExtend 32

end Sys2Proof.Machine
end

