-- ==== Sys2Proof/Machine/Operands.lean ====
section
/-! DEFINITION. The operand forms: how each immediate becomes a value (`30_encoding.md` R107), register lists (R108),
effective addresses (`44_load_store.md` R210), and the operand values the spec refuses (R115). -/

namespace Sys2Proof.Machine

/-- `x[i]` of a low register. -/
def State.lowReg (s : State) (r : LowReg) : Word := s.reg (low r)

/-! ## Immediates (R107) -/

/-- `zext_32(imm)`, unscaled: `#imm3`, `#imm8`, the byte offsets. -/
def immPlain {n : Nat} (v : BitVec n) : Word := v.setWidth 32

/-- `zext_32(imm : 0)`: the halfword offsets. -/
def immTimes2 {n : Nat} (v : BitVec n) : Word := (v ++ 0#1).setWidth 32

/-- `zext_32(imm : 00)`: the word offsets and SP amounts. -/
def immTimes4 {n : Nat} (v : BitVec n) : Word := (v ++ 0#2).setWidth 32

/-- `sext_32(imm : 0)`: the branch displacements of `B<cond>` and `B`. -/
def branchOffset {n : Nat} (v : BitVec n) : Word := (v ++ 0#1).signExtend 32

/-- The displacement of `BL`: `I1 = NOT(J1 EOR S)`, `I2 = NOT(J2 EOR S)`,
`sext_32(S : I1 : I2 : imm10 : imm11 : 0)` (R107, R272). -/
def blOffset (s : BitVec 1) (imm10 : BitVec 10) (j1 j2 : BitVec 1) (imm11 : BitVec 11) : Word :=
  (s ++ ~~~(j1 ^^^ s) ++ ~~~(j2 ^^^ s) ++ imm10 ++ imm11 ++ 0#1).signExtend 32

/-- The amount of `LSRS`, `ASRS` immediate: the field value 0 means 32 (R107, R141). -/
def rightShiftAmount (imm5 : BitVec 5) : Nat := if imm5 = 0 then 32 else imm5.toNat

/-- The amount of a register shift: only the low byte of the register counts (R142). -/
def registerShiftAmount (x : Word) : Nat := (x.setWidth 8).toNat

/-! ## Register lists (R108) -/

/-- The low registers of an 8-bit list, ascending. -/
def lowList (list : BitVec 8) : List LowReg :=
  [0, 1, 2, 3, 4, 5, 6, 7].filter fun r : LowReg => list.getLsbD r.val

/-- The registers of `PUSH`: the listed low ones, then LR when M is set. -/
def pushList (m : Bool) (list : BitVec 8) : List Reg :=
  (lowList list).map low ++ if m then [lrReg] else []

/-- `a + 4 * count`, modulo 2^32: the address after `count` words. -/
def wordsAfter (a : Word) (count : Nat) : Word := a + BitVec.ofNat 32 (4 * count)

/-- The first address `PUSH` stores to, and SP after it: `x[13] - 4 * count` (R260). -/
def pushAddress (s : State) (count : Nat) : Word := s.reg spReg - BitVec.ofNat 32 (4 * count)

/-! ## Effective addresses: wrapping 32-bit addition (R210 (a)) -/

/-- `Align(ia + 4, 4)`: the base of `LDR` literal and `ADR` (R25, R74). -/
def literalBase (s : State) : Word := (s.iaShort + 4) &&& 0xFFFFFFFC

/-- `Align(ia + 4, 4) + zext_32(imm8 : 00)` (R211, R240). -/
def literalAddress (s : State) (imm8 : BitVec 8) : Word := literalBase s + immTimes4 imm8

/-- `x[n] + x[m]` (R228). -/
def registerAddress (s : State) (rn rm : LowReg) : Word := s.lowReg rn + s.lowReg rm

/-- `x[n] + offset` (R229). -/
def offsetAddress (s : State) (rn : LowReg) (offset : Word) : Word := s.lowReg rn + offset

/-- `x[13] + zext_32(imm8 : 00)` (R226, R227, R241). -/
def spAddress (s : State) (imm8 : BitVec 8) : Word := s.reg spReg + immTimes4 imm8

/-! ## The operand values that raise `Unpredictable` (R115) -/

/-- `ADD Rdn, Rm` with both registers PC. -/
def addHiUnpredictable (rdn rm : Reg) : Bool := rdn == pcReg && rm == pcReg

/-- `CMP` high form with both registers low, or with PC. -/
def cmpHiUnpredictable (rn rm : Reg) : Bool :=
  (decide (rn.val < 8) && decide (rm.val < 8)) || rn == pcReg || rm == pcReg

/-- `BLX PC`. -/
def blxUnpredictable (rm : Reg) : Bool := rm == pcReg

/-- `PUSH`, `POP` with an empty set. -/
def stackListUnpredictable (extra : Bool) (list : BitVec 8) : Bool := !extra && list == 0

/-- `STM` with an empty list, or with the base listed and not lowest. -/
def stmUnpredictable (rn : LowReg) (list : BitVec 8) : Bool :=
  list == 0 || (list.getLsbD rn.val && (lowList list).head? != some rn)

/-- `LDM` with an empty list. -/
def ldmUnpredictable (list : BitVec 8) : Bool := list == 0

/-- `Unpredictable(hw1)` of an instruction: its first halfword is the recorded info (R301). -/
def unpredictableFault (i : Instr) : Fault := .unpredictable (encodeFirst i)

/-- `Undefined(hw1)` or `Undefined(hw1, hw2)` of an instruction the spec refuses by name (R301). -/
def undefinedFault (i : Instr) : Fault := .undefined (encodeFirst i) (encodeSecond i)

end Sys2Proof.Machine
end

