-- ==== Sys2Proof/Machine/Branch.lean ====
section
/-! DEFINITION. Branches (`47_branch.md` R270 to R273): the base is `ia + 4` for one and two halfwords alike. -/

namespace Sys2Proof.Machine

/-- R270 -/
def execBcond (cond : Cond) (imm8 : BitVec 8) (s : State) : Result :=
  .next (if conditionPassed cond s.flags then s.branchTo (s.iaShort + 4 + branchOffset imm8) else s)

/-- R271 -/
def execB (imm11 : BitVec 11) (s : State) : Result :=
  .next (s.branchTo (s.iaShort + 4 + branchOffset imm11))

/-- R272 -/
def execBl (s1 : BitVec 1) (imm10 : BitVec 10) (j1 j2 : BitVec 1) (imm11 : BitVec 11) (s : State) : Result :=
  .next ((s.setReg lrReg ((s.iaLong + 4) ||| 1)).branchTo (s.iaLong + 4 + blOffset s1 imm10 j1 j2 imm11))

end Sys2Proof.Machine
end

