-- ==== Sys2Proof/Machine/DataProcessing.lean ====
section
/-! DEFINITION. The sixteen two-register operations (`42_data_processing.md` R180 to R196): low registers only, no memory
access, no fault, operands read before the destination is written. -/

namespace Sys2Proof.Machine

/-- R180 -/
def execAnds (rdn rm : LowReg) (s : State) : Result :=
  .next (s.writeAlu (low rdn) (aluLogic (s.lowReg rdn &&& s.lowReg rm) s.flags))

/-- R181 -/
def execEors (rdn rm : LowReg) (s : State) : Result :=
  .next (s.writeAlu (low rdn) (aluLogic (s.lowReg rdn ^^^ s.lowReg rm) s.flags))

/-- R182 -/
def execLslsReg (rdn rm : LowReg) (s : State) : Result :=
  .next (s.writeAlu (low rdn) (aluShift lslC (s.lowReg rdn) (registerShiftAmount (s.lowReg rm)) s.flags))

/-- R183 -/
def execLsrsReg (rdn rm : LowReg) (s : State) : Result :=
  .next (s.writeAlu (low rdn) (aluShift lsrC (s.lowReg rdn) (registerShiftAmount (s.lowReg rm)) s.flags))

/-- R184 -/
def execAsrsReg (rdn rm : LowReg) (s : State) : Result :=
  .next (s.writeAlu (low rdn) (aluShift asrC (s.lowReg rdn) (registerShiftAmount (s.lowReg rm)) s.flags))

/-- R185 -/
def execAdcs (rdn rm : LowReg) (s : State) : Result :=
  .next (s.writeAlu (low rdn) (aluAdc (s.lowReg rdn) (s.lowReg rm) s.flags.c))

/-- R186 -/
def execSbcs (rdn rm : LowReg) (s : State) : Result :=
  .next (s.writeAlu (low rdn) (aluSbc (s.lowReg rdn) (s.lowReg rm) s.flags.c))

/-- R187 -/
def execRors (rdn rm : LowReg) (s : State) : Result :=
  .next (s.writeAlu (low rdn) (aluShift rorC (s.lowReg rdn) (registerShiftAmount (s.lowReg rm)) s.flags))

/-- R188 -/
def execTst (rn rm : LowReg) (s : State) : Result :=
  .next (s.writeFlags (aluLogic (s.lowReg rn &&& s.lowReg rm) s.flags))

/-- R189 -/
def execRsbs (rd rn : LowReg) (s : State) : Result :=
  .next (s.writeAlu (low rd) (aluNeg (s.lowReg rn)))

/-- R190 -/
def execCmpReg (rn rm : LowReg) (s : State) : Result :=
  .next (s.writeFlags (aluSub (s.lowReg rn) (s.lowReg rm)))

/-- R191 -/
def execCmn (rn rm : LowReg) (s : State) : Result :=
  .next (s.writeFlags (aluAdd (s.lowReg rn) (s.lowReg rm)))

/-- R192 -/
def execOrrs (rdn rm : LowReg) (s : State) : Result :=
  .next (s.writeAlu (low rdn) (aluLogic (s.lowReg rdn ||| s.lowReg rm) s.flags))

/-- R193 -/
def execMuls (rdm rn : LowReg) (s : State) : Result :=
  .next (s.writeAlu (low rdm) (aluMul (s.lowReg rn) (s.lowReg rdm) s.flags))

/-- R194 -/
def execBics (rdn rm : LowReg) (s : State) : Result :=
  .next (s.writeAlu (low rdn) (aluLogic (s.lowReg rdn &&& ~~~(s.lowReg rm)) s.flags))

/-- R195 -/
def execMvns (rd rm : LowReg) (s : State) : Result :=
  .next (s.writeAlu (low rd) (aluLogic (~~~(s.lowReg rm)) s.flags))

end Sys2Proof.Machine
end

