-- ==== Sys2Proof/Machine/HighRegister.lean ====
section
/-! DEFINITION. High-register operations and branch-exchange (`43_hireg_bx.md` R200 to R206): PC reads as `ia + 4`, a
result written to PC is a branch. -/

namespace Sys2Proof.Machine

/-- R200 -/
def execAddHi (rdn rm : Reg) (s : State) : Result :=
  if addHiUnpredictable rdn rm then raiseShort s (unpredictableFault (.addHi rdn rm))
  else .next (s.writeResult rdn (s.regRead rdn + s.regRead rm))

/-- R201 -/
def execCmpHi (rn rm : Reg) (s : State) : Result :=
  if cmpHiUnpredictable rn rm then raiseShort s (unpredictableFault (.cmpHi rn rm))
  else .next (s.writeFlags (aluSub (s.reg rn) (s.reg rm)))

/-- R202 -/
def execMovHi (rd rm : Reg) (s : State) : Result :=
  .next (s.writeResult rd (s.regRead rm))

/-- R203 -/
def execBx (rm : Reg) (s : State) : Result :=
  completeShort s (s.branchExchange (s.regRead rm))

/-- R204; the target is read before LR is written. -/
def execBlx (rm : Reg) (s : State) : Result :=
  if blxUnpredictable rm then raiseShort s (unpredictableFault (.blx rm))
  else completeShort s ((s.setReg lrReg ((s.iaShort + 2) ||| 1)).branchExchange (s.reg rm))

end Sys2Proof.Machine
end

