-- ==== Sys2Proof/Machine/LoadStore.lean ====
section
/-! DEFINITION. Loads and stores (`44_load_store.md` R210 to R230): no flag, no write-back, no alignment requirement; the
address is computed from the registers before the load writes its destination. -/

namespace Sys2Proof.Machine

/-- A load of width `w` at `a` into a low register, the loaded bytes extended by `extend` (R210 (b), (d)). -/
def loadInto (s : State) (rt : LowReg) (a : Word) (w : Width) (extend : Word → Word) : Result :=
  completeShort s
    (match s.memRead a w with
     | .ok v => .ok (s.setReg (low rt) (extend v))
     | .error f => .error f)

/-- A store of a low register's low bytes at `a` (R210 (b), (e)). -/
def storeFrom (s : State) (rt : LowReg) (a : Word) (w : Width) : Result :=
  completeShort s (s.memWrite a w (s.lowReg rt))

/-- R211 -/
def execLdrLit (rt : LowReg) (imm8 : BitVec 8) (s : State) : Result :=
  loadInto s rt (literalAddress s imm8) .word id

/-- R212 -/
def execStrReg (rt rn rm : LowReg) (s : State) : Result :=
  storeFrom s rt (registerAddress s rn rm) .word

/-- R213 -/
def execStrhReg (rt rn rm : LowReg) (s : State) : Result :=
  storeFrom s rt (registerAddress s rn rm) .half

/-- R214 -/
def execStrbReg (rt rn rm : LowReg) (s : State) : Result :=
  storeFrom s rt (registerAddress s rn rm) .byte

/-- R215 -/
def execLdrsbReg (rt rn rm : LowReg) (s : State) : Result :=
  loadInto s rt (registerAddress s rn rm) .byte signExtend8

/-- R216 -/
def execLdrReg (rt rn rm : LowReg) (s : State) : Result :=
  loadInto s rt (registerAddress s rn rm) .word id

/-- R217 -/
def execLdrhReg (rt rn rm : LowReg) (s : State) : Result :=
  loadInto s rt (registerAddress s rn rm) .half zeroExtend16

/-- R218 -/
def execLdrbReg (rt rn rm : LowReg) (s : State) : Result :=
  loadInto s rt (registerAddress s rn rm) .byte zeroExtend8

/-- R219 -/
def execLdrshReg (rt rn rm : LowReg) (s : State) : Result :=
  loadInto s rt (registerAddress s rn rm) .half signExtend16

/-- R220 -/
def execStrImm (rt rn : LowReg) (imm5 : BitVec 5) (s : State) : Result :=
  storeFrom s rt (offsetAddress s rn (immTimes4 imm5)) .word

/-- R221 -/
def execLdrImm (rt rn : LowReg) (imm5 : BitVec 5) (s : State) : Result :=
  loadInto s rt (offsetAddress s rn (immTimes4 imm5)) .word id

/-- R222 -/
def execStrbImm (rt rn : LowReg) (imm5 : BitVec 5) (s : State) : Result :=
  storeFrom s rt (offsetAddress s rn (immPlain imm5)) .byte

/-- R223 -/
def execLdrbImm (rt rn : LowReg) (imm5 : BitVec 5) (s : State) : Result :=
  loadInto s rt (offsetAddress s rn (immPlain imm5)) .byte zeroExtend8

/-- R224 -/
def execStrhImm (rt rn : LowReg) (imm5 : BitVec 5) (s : State) : Result :=
  storeFrom s rt (offsetAddress s rn (immTimes2 imm5)) .half

/-- R225 -/
def execLdrhImm (rt rn : LowReg) (imm5 : BitVec 5) (s : State) : Result :=
  loadInto s rt (offsetAddress s rn (immTimes2 imm5)) .half zeroExtend16

/-- R226 -/
def execStrSp (rt : LowReg) (imm8 : BitVec 8) (s : State) : Result :=
  storeFrom s rt (spAddress s imm8) .word

/-- R227 -/
def execLdrSp (rt : LowReg) (imm8 : BitVec 8) (s : State) : Result :=
  loadInto s rt (spAddress s imm8) .word id

end Sys2Proof.Machine
end

