-- ==== Sys2Proof/Machine/Misc.lean ====
section
/-! DEFINITION. Address generation, SP adjustment, extend, byte reverse and `NOP` (`45_misc.md` R240 to R254): no memory
access, no flag, no fault. -/

namespace Sys2Proof.Machine

/-- R240 -/
def execAdr (rd : LowReg) (imm8 : BitVec 8) (s : State) : Result :=
  .next (s.setReg (low rd) (literalAddress s imm8))

/-- R241 -/
def execAddRdSp (rd : LowReg) (imm8 : BitVec 8) (s : State) : Result :=
  .next (s.setReg (low rd) (spAddress s imm8))

/-- R242 -/
def execAddSp (imm7 : BitVec 7) (s : State) : Result :=
  .next (s.setReg spReg (s.reg spReg + immTimes4 imm7))

/-- R243 -/
def execSubSp (imm7 : BitVec 7) (s : State) : Result :=
  .next (s.setReg spReg (s.reg spReg - immTimes4 imm7))

/-- R244 -/
def execSxth (rd rm : LowReg) (s : State) : Result :=
  .next (s.setReg (low rd) (signExtend16 (s.lowReg rm)))

/-- R245 -/
def execSxtb (rd rm : LowReg) (s : State) : Result :=
  .next (s.setReg (low rd) (signExtend8 (s.lowReg rm)))

/-- R246 -/
def execUxth (rd rm : LowReg) (s : State) : Result :=
  .next (s.setReg (low rd) (zeroExtend16 (s.lowReg rm)))

/-- R247 -/
def execUxtb (rd rm : LowReg) (s : State) : Result :=
  .next (s.setReg (low rd) (zeroExtend8 (s.lowReg rm)))

/-- R248 -/
def execRev (rd rm : LowReg) (s : State) : Result :=
  .next (s.setReg (low rd) (revWord (s.lowReg rm)))

/-- R249 -/
def execRev16 (rd rm : LowReg) (s : State) : Result :=
  .next (s.setReg (low rd) (rev16Word (s.lowReg rm)))

/-- R250 -/
def execRevsh (rd rm : LowReg) (s : State) : Result :=
  .next (s.setReg (low rd) (revshWord (s.lowReg rm)))

/-- R251: no effect; PC keeps the stored `next`. -/
def execNop (s : State) : Result := .next s

end Sys2Proof.Machine
end

