-- ==== Sys2Proof/Machine/Multiple.lean ====
section
/-! DEFINITION. `PUSH`, `POP`, `STM`, `LDM` (`46_stack_multiple.md` R260 to R264): one word per listed register, the
lowest-numbered register at the lowest address, no flag. -/

namespace Sys2Proof.Machine

/-- SP is written once, after the last store, with the lowest address used (R260). -/
def pushBody (s : State) (m : Bool) (list : BitVec 8) : Except Fault State :=
  let regs := pushList m list
  let a := pushAddress s regs.length
  match s.storeRegs a regs with
  | .ok t => .ok (t.setReg spReg a)
  | .error f => .error f

/-- R260 -/
def execPush (m : Bool) (list : BitVec 8) (s : State) : Result :=
  if stackListUnpredictable m list then raiseShort s (unpredictableFault (.push m list))
  else completeShort s (pushBody s m list)

/-- The word popped into PC passes the interworking check (R261, R205). -/
def popPc (s : State) (a : Word) : Except Fault State :=
  match s.memRead a .word with
  | .ok t => s.branchExchange t
  | .error f => .error f

/-- The low registers first, then PC, then SP (R261). -/
def popBody (s : State) (p : Bool) (list : BitVec 8) : Except Fault State :=
  let regs := (lowList list).map low
  let a := s.reg spReg
  let next := wordsAfter a regs.length
  match s.loadRegs a regs with
  | .error f => .error f
  | .ok t =>
    if p then
      match popPc t next with
      | .ok u => .ok (u.setReg spReg (next + 4))
      | .error f => .error f
    else .ok (t.setReg spReg next)

/-- R261 -/
def execPop (p : Bool) (list : BitVec 8) (s : State) : Result :=
  if stackListUnpredictable p list then raiseShort s (unpredictableFault (.pop p list))
  else completeShort s (popBody s p list)

/-- Write-back always happens, after the last store (R262). -/
def stmBody (s : State) (rn : LowReg) (list : BitVec 8) : Except Fault State :=
  let regs := (lowList list).map low
  let a := s.lowReg rn
  match s.storeRegs a regs with
  | .ok t => .ok (t.setReg (low rn) (wordsAfter a regs.length))
  | .error f => .error f

/-- R262 -/
def execStm (rn : LowReg) (list : BitVec 8) (s : State) : Result :=
  if stmUnpredictable rn list then raiseShort s (unpredictableFault (.stm rn list))
  else completeShort s (stmBody s rn list)

/-- Write-back only when the base is not listed (R263). -/
def ldmBody (s : State) (rn : LowReg) (list : BitVec 8) : Except Fault State :=
  let regs := (lowList list).map low
  let a := s.lowReg rn
  match s.loadRegs a regs with
  | .ok t => .ok (if list.getLsbD rn.val then t else t.setReg (low rn) (wordsAfter a regs.length))
  | .error f => .error f

/-- R263 -/
def execLdm (rn : LowReg) (list : BitVec 8) (s : State) : Result :=
  if ldmUnpredictable list then raiseShort s (unpredictableFault (.ldm rn list))
  else completeShort s (ldmBody s rn list)

end Sys2Proof.Machine
end

