-- ==== Sys2Proof/Machine/Refused.lean ====
section
/-! DEFINITION. The thirteen rows of the opcode table that the spec refuses by name (`30_encoding.md` R111, R112, R116;
`60_exceptions.md` R313): executing one IS raising `Undefined`, whose entry R305 describes. -/

namespace Sys2Proof.Machine

/-- R111 -/
def execCps (im : Bool) (s : State) : Result := raiseShort s (undefinedFault (.cps im))

/-- R111 -/
def execBkpt (imm8 : BitVec 8) (s : State) : Result := raiseShort s (undefinedFault (.bkpt imm8))

/-- R116 -/
def execYield (s : State) : Result := raiseShort s (undefinedFault .yield)

/-- R116 -/
def execWfe (s : State) : Result := raiseShort s (undefinedFault .wfe)

/-- R116 -/
def execWfi (s : State) : Result := raiseShort s (undefinedFault .wfi)

/-- R116 -/
def execSev (s : State) : Result := raiseShort s (undefinedFault .sev)

/-- R111 -/
def execUdf (imm8 : BitVec 8) (s : State) : Result := raiseShort s (undefinedFault (.udf imm8))

/-- R111 -/
def execSvc (imm8 : BitVec 8) (s : State) : Result := raiseShort s (undefinedFault (.svc imm8))

/-- R112 -/
def execMsr (rn : Reg) (sysm : BitVec 8) (s : State) : Result := raiseLong s (undefinedFault (.msr rn sysm))

/-- R112 -/
def execMrs (rd : Reg) (sysm : BitVec 8) (s : State) : Result := raiseLong s (undefinedFault (.mrs rd sysm))

/-- R112 -/
def execDsb (option : BitVec 4) (s : State) : Result := raiseLong s (undefinedFault (.dsb option))

/-- R112 -/
def execDmb (option : BitVec 4) (s : State) : Result := raiseLong s (undefinedFault (.dmb option))

/-- R112 -/
def execIsb (option : BitVec 4) (s : State) : Result := raiseLong s (undefinedFault (.isb option))

end Sys2Proof.Machine
end

