-- ==== Sys2Proof/Machine/ShiftAddSub.lean ====
section
/-! DEFINITION. Shift by immediate, add, subtract, move, compare with immediates (`41_shift_addsub_imm.md` R160 to R172):
low registers only, no memory access, no fault, PC keeps the stored `next`. -/

namespace Sys2Proof.Machine

/-- R160; the encoding with `imm5 = 0` is `MOVS Rd, Rm`, of the same effect. -/
def execLslsImm (rd rm : LowReg) (imm5 : BitVec 5) (s : State) : Result :=
  .next (s.writeAlu (low rd) (aluShift lslC (s.lowReg rm) imm5.toNat s.flags))

/-- R161 -/
def execMovsReg (rd rm : LowReg) (s : State) : Result :=
  .next (s.writeAlu (low rd) (aluLogic (s.lowReg rm) s.flags))

/-- R162 -/
def execLsrsImm (rd rm : LowReg) (imm5 : BitVec 5) (s : State) : Result :=
  .next (s.writeAlu (low rd) (aluShift lsrC (s.lowReg rm) (rightShiftAmount imm5) s.flags))

/-- R163 -/
def execAsrsImm (rd rm : LowReg) (imm5 : BitVec 5) (s : State) : Result :=
  .next (s.writeAlu (low rd) (aluShift asrC (s.lowReg rm) (rightShiftAmount imm5) s.flags))

/-- R164 -/
def execAddsReg (rd rn rm : LowReg) (s : State) : Result :=
  .next (s.writeAlu (low rd) (aluAdd (s.lowReg rn) (s.lowReg rm)))

/-- R165 -/
def execSubsReg (rd rn rm : LowReg) (s : State) : Result :=
  .next (s.writeAlu (low rd) (aluSub (s.lowReg rn) (s.lowReg rm)))

/-- R166 -/
def execAddsImm3 (rd rn : LowReg) (imm3 : BitVec 3) (s : State) : Result :=
  .next (s.writeAlu (low rd) (aluAdd (s.lowReg rn) (immPlain imm3)))

/-- R167 -/
def execSubsImm3 (rd rn : LowReg) (imm3 : BitVec 3) (s : State) : Result :=
  .next (s.writeAlu (low rd) (aluSub (s.lowReg rn) (immPlain imm3)))

/-- R168 -/
def execMovsImm (rd : LowReg) (imm8 : BitVec 8) (s : State) : Result :=
  .next (s.writeAlu (low rd) (aluLogic (immPlain imm8) s.flags))

/-- R169 -/
def execCmpImm (rn : LowReg) (imm8 : BitVec 8) (s : State) : Result :=
  .next (s.writeFlags (aluSub (s.lowReg rn) (immPlain imm8)))

/-- R170 -/
def execAddsImm8 (rdn : LowReg) (imm8 : BitVec 8) (s : State) : Result :=
  .next (s.writeAlu (low rdn) (aluAdd (s.lowReg rdn) (immPlain imm8)))

/-- R171 -/
def execSubsImm8 (rdn : LowReg) (imm8 : BitVec 8) (s : State) : Result :=
  .next (s.writeAlu (low rdn) (aluSub (s.lowReg rdn) (immPlain imm8)))

end Sys2Proof.Machine
end

