-- ==== Sys2Proof/Machine/Dispatch.lean ====
section
/-! DEFINITION. Which meaning each instruction has: one arm per constructor (`30_encoding.md` R100 `Execute`, R110). The
state is the one the sequencer hands over: PC already holds `ia + 2`, or `ia + 4` for a two-halfword instruction (R24). -/

namespace Sys2Proof.Machine

def exec (i : Instr) (s : State) : Host.Outcome State Fault Refusal :=
  match i with
  | .lslsImm rd rm imm5 => Sys2Proof.Machine.execLslsImm rd rm imm5 s
  | .movsReg rd rm => Sys2Proof.Machine.execMovsReg rd rm s
  | .lsrsImm rd rm imm5 => Sys2Proof.Machine.execLsrsImm rd rm imm5 s
  | .asrsImm rd rm imm5 => Sys2Proof.Machine.execAsrsImm rd rm imm5 s
  | .addsReg rd rn rm => Sys2Proof.Machine.execAddsReg rd rn rm s
  | .subsReg rd rn rm => Sys2Proof.Machine.execSubsReg rd rn rm s
  | .addsImm3 rd rn imm3 => Sys2Proof.Machine.execAddsImm3 rd rn imm3 s
  | .subsImm3 rd rn imm3 => Sys2Proof.Machine.execSubsImm3 rd rn imm3 s
  | .movsImm rd imm8 => Sys2Proof.Machine.execMovsImm rd imm8 s
  | .cmpImm rn imm8 => Sys2Proof.Machine.execCmpImm rn imm8 s
  | .addsImm8 rdn imm8 => Sys2Proof.Machine.execAddsImm8 rdn imm8 s
  | .subsImm8 rdn imm8 => Sys2Proof.Machine.execSubsImm8 rdn imm8 s
  | .ands rdn rm => Sys2Proof.Machine.execAnds rdn rm s
  | .eors rdn rm => Sys2Proof.Machine.execEors rdn rm s
  | .lslsReg rdn rm => Sys2Proof.Machine.execLslsReg rdn rm s
  | .lsrsReg rdn rm => Sys2Proof.Machine.execLsrsReg rdn rm s
  | .asrsReg rdn rm => Sys2Proof.Machine.execAsrsReg rdn rm s
  | .adcs rdn rm => Sys2Proof.Machine.execAdcs rdn rm s
  | .sbcs rdn rm => Sys2Proof.Machine.execSbcs rdn rm s
  | .rors rdn rm => Sys2Proof.Machine.execRors rdn rm s
  | .tst rn rm => Sys2Proof.Machine.execTst rn rm s
  | .rsbs rd rn => Sys2Proof.Machine.execRsbs rd rn s
  | .cmpReg rn rm => Sys2Proof.Machine.execCmpReg rn rm s
  | .cmn rn rm => Sys2Proof.Machine.execCmn rn rm s
  | .orrs rdn rm => Sys2Proof.Machine.execOrrs rdn rm s
  | .muls rdm rn => Sys2Proof.Machine.execMuls rdm rn s
  | .bics rdn rm => Sys2Proof.Machine.execBics rdn rm s
  | .mvns rd rm => Sys2Proof.Machine.execMvns rd rm s
  | .addHi rdn rm => Sys2Proof.Machine.execAddHi rdn rm s
  | .cmpHi rn rm => Sys2Proof.Machine.execCmpHi rn rm s
  | .movHi rd rm => Sys2Proof.Machine.execMovHi rd rm s
  | .bx rm => Sys2Proof.Machine.execBx rm s
  | .blx rm => Sys2Proof.Machine.execBlx rm s
  | .ldrLit rt imm8 => Sys2Proof.Machine.execLdrLit rt imm8 s
  | .strReg rt rn rm => Sys2Proof.Machine.execStrReg rt rn rm s
  | .strhReg rt rn rm => Sys2Proof.Machine.execStrhReg rt rn rm s
  | .strbReg rt rn rm => Sys2Proof.Machine.execStrbReg rt rn rm s
  | .ldrsbReg rt rn rm => Sys2Proof.Machine.execLdrsbReg rt rn rm s
  | .ldrReg rt rn rm => Sys2Proof.Machine.execLdrReg rt rn rm s
  | .ldrhReg rt rn rm => Sys2Proof.Machine.execLdrhReg rt rn rm s
  | .ldrbReg rt rn rm => Sys2Proof.Machine.execLdrbReg rt rn rm s
  | .ldrshReg rt rn rm => Sys2Proof.Machine.execLdrshReg rt rn rm s
  | .strImm rt rn imm5 => Sys2Proof.Machine.execStrImm rt rn imm5 s
  | .ldrImm rt rn imm5 => Sys2Proof.Machine.execLdrImm rt rn imm5 s
  | .strbImm rt rn imm5 => Sys2Proof.Machine.execStrbImm rt rn imm5 s
  | .ldrbImm rt rn imm5 => Sys2Proof.Machine.execLdrbImm rt rn imm5 s
  | .strhImm rt rn imm5 => Sys2Proof.Machine.execStrhImm rt rn imm5 s
  | .ldrhImm rt rn imm5 => Sys2Proof.Machine.execLdrhImm rt rn imm5 s
  | .strSp rt imm8 => Sys2Proof.Machine.execStrSp rt imm8 s
  | .ldrSp rt imm8 => Sys2Proof.Machine.execLdrSp rt imm8 s
  | .adr rd imm8 => Sys2Proof.Machine.execAdr rd imm8 s
  | .addRdSp rd imm8 => Sys2Proof.Machine.execAddRdSp rd imm8 s
  | .addSp imm7 => Sys2Proof.Machine.execAddSp imm7 s
  | .subSp imm7 => Sys2Proof.Machine.execSubSp imm7 s
  | .sxth rd rm => Sys2Proof.Machine.execSxth rd rm s
  | .sxtb rd rm => Sys2Proof.Machine.execSxtb rd rm s
  | .uxth rd rm => Sys2Proof.Machine.execUxth rd rm s
  | .uxtb rd rm => Sys2Proof.Machine.execUxtb rd rm s
  | .push m list => Sys2Proof.Machine.execPush m list s
  | .cps im => Sys2Proof.Machine.execCps im s
  | .rev rd rm => Sys2Proof.Machine.execRev rd rm s
  | .rev16 rd rm => Sys2Proof.Machine.execRev16 rd rm s
  | .revsh rd rm => Sys2Proof.Machine.execRevsh rd rm s
  | .pop p list => Sys2Proof.Machine.execPop p list s
  | .bkpt imm8 => Sys2Proof.Machine.execBkpt imm8 s
  | .nop => Sys2Proof.Machine.execNop s
  | .yield => Sys2Proof.Machine.execYield s
  | .wfe => Sys2Proof.Machine.execWfe s
  | .wfi => Sys2Proof.Machine.execWfi s
  | .sev => Sys2Proof.Machine.execSev s
  | .stm rn list => Sys2Proof.Machine.execStm rn list s
  | .ldm rn list => Sys2Proof.Machine.execLdm rn list s
  | .bcond cond imm8 => Sys2Proof.Machine.execBcond cond imm8 s
  | .udf imm8 => Sys2Proof.Machine.execUdf imm8 s
  | .svc imm8 => Sys2Proof.Machine.execSvc imm8 s
  | .b imm11 => Sys2Proof.Machine.execB imm11 s
  | .bl s1 imm10 j1 j2 imm11 => Sys2Proof.Machine.execBl s1 imm10 j1 j2 imm11 s
  | .msr rn sysm => Sys2Proof.Machine.execMsr rn sysm s
  | .mrs rd sysm => Sys2Proof.Machine.execMrs rd sysm s
  | .dsb option => Sys2Proof.Machine.execDsb option s
  | .dmb option => Sys2Proof.Machine.execDmb option s
  | .isb option => Sys2Proof.Machine.execIsb option s

end Sys2Proof.Machine
end

