-- ==== Sys2Proof/Machine/Cycle.lean ====
section
/-! DEFINITION. The instruction cycle and the sequencer around it (`30_encoding.md` R100 to R103,
`70_reset_and_hazards.md` R333, R334), and where a word must stand for the next cycle to run it. -/

namespace Sys2Proof.Machine

namespace State

/-- The fetch of one halfword: `MemRead(a, 2)` through the bus (R84). -/
def fetch16 (s : State) (a : Word) : Except Fault Halfword :=
  match s.memRead a .half with
  | .ok v => .ok (v.setWidth 16)
  | .error f => .error f

/-- The sentinel was fetched: `completed <- true ; run <- Halted`, PC stays (R100, R101). -/
def finish (s : State) : State := { s with completed := true, run := .halted }

end State

/-- A rejection of the decoder as the fault it raises (R103, R113). -/
def rejectFault (hw1 hw2 : Halfword) : Reject → Fault
  | .unallocated h => .undefined h none
  | .unallocatedPair h1 h2 => .undefined h1 (some h2)
  | .truncated => .undefined hw1 (some hw2)

/-- Decode and execute, once the halfwords are fetched and PC is advanced past them (R100). -/
def dispatch (s : State) (ia : Word) (hw1 hw2 : Halfword) : Result :=
  match decode hw1 hw2 with
  | .ok i => exec i s
  | .error r => .next (s.takeFault (rejectFault hw1 hw2 r) ia)

/-- The second halfword is fetched after the first advance of PC, then PC is advanced again (R100, R102). -/
def longCycle (s : State) (ia : Word) (hw1 : Halfword) : Result :=
  match s.fetch16 (ia + 2) with
  | .ok hw2 => dispatch (s.setReg pcReg (ia + 4)) ia hw1 hw2
  | .error f => .next (s.takeFault f ia)

/-- `InstructionCycle()` (R100). -/
def instructionCycle (s : State) : Result :=
  let ia := s.pc
  match s.fetch16 ia with
  | .error f => .next (s.takeFault f ia)
  | .ok hw1 =>
    if hw1 = s.endOfCode then .next s.finish
    else
      let s1 := s.setReg pcReg (ia + 2)
      if isLong hw1 then longCycle s1 ia hw1 else dispatch s1 ia hw1 0

/-- After a cycle of the `step` transaction: `run <- Halted`, but a fault leaves `Faulted` (R333). -/
def settle (t : State) : State := if t.run = .faulted then t else { t with run := .halted }

/-- The `step` transaction in state Idle or Halted (R333). -/
def stepOnce (s : State) : Result :=
  match instructionCycle s with
  | .next t => .next (settle t)
  | .fault f => .fault f
  | .refused r => .refused r

/-- One turn of the `run` loop: an accepted halt request, or an instruction cycle (R334). -/
def runTurn (s : State) : Result :=
  if s.haltReq then .next { s with haltReq := false, run := .halted } else instructionCycle s

/-- One step of the sequencer by its run state (R330): in Faulted nothing happens (R306). -/
def advance (s : State) : Result :=
  match s.run with
  | .idle => stepOnce s
  | .halted => stepOnce s
  | .running => runTurn s
  | .faulted => .next s

/-! ## Placing a word for the next cycle -/

/-- The device with one byte of its byte store changed, whatever its write rules; a custom device stays as it is. -/
def pokeDevice (d : Device) (a : Word) (b : Byte) : Device :=
  match d.desc.behaviour with
  | .byteStore => { d with state := { d.state with bytes := d.state.bytes.write a.toNat b } }
  | .custom _ => d

/-- The first responsible device poked. -/
def pokeDevices (a : Word) (b : Byte) : List Device → List Device
  | [] => []
  | d :: ds => if d.desc.isResponsibleFor a then pokeDevice d a b :: ds else d :: pokeDevices a b ds

/-- One byte placed where the bus reads it: the fall-through memory, as a load does (R85), or the byte store of the
device that owns the address. -/
def pokeByte (s : State) (a : Word) (b : Byte) : State :=
  match s.owner a with
  | some _ => { s with devices := pokeDevices a b s.devices }
  | none => { s with mem := s.mem.write a.toNat b }

/-- Bytes placed at ascending addresses, modulo 2^32. -/
def pokeBytes (s : State) (a : Word) : List Byte → State
  | [] => s
  | b :: bs => pokeBytes (pokeByte s a b) (a + 1) bs

/-- A sequencer that will run a cycle at its next step: no fault pending, no halt request (R330). -/
def readyToRun (s : State) : State :=
  if s.run = .faulted then { s with run := .idle, fault := none, haltReq := false } else { s with haltReq := false }

/-- The instruction with the given bits placed at PC (assumption log 2). -/
def placeFetchWord (s : State) (nbits w : Nat) : State := pokeBytes (readyToRun s) s.pc (tableBytes nbits w)

end Sys2Proof.Machine
end

