-- ==== Sys2Proof/Machine/Step.lean ====
section
/-! DEFINITION. The step of the machine and the placing of its next instruction. -/

namespace Sys2Proof.Machine

/-- One step: the `step` transaction in state Idle or Halted (R333), one turn of the `run` loop in state Running (R334),
nothing in state Faulted (R306). -/
def step (s : State) : Host.Outcome State Fault Refusal := advance s

/-- `s` with the instruction of bits `w` stored where `step` fetches its next instruction (assumption log 2). -/
def State.withFetchWord (s : State) (nbits w : Nat) : State := placeFetchWord s nbits w

end Sys2Proof.Machine
end

