-- ==== Sys2Proof/Machine/Ports.lean ====
section
/-! DEFINITION. The host's transactions and observation ports (`00_scope.md` R5, `60_exceptions.md` R309, R310, R322,
`70_reset_and_hazards.md` R330 to R340, `20_memory.md` R68, R70). -/

namespace Sys2Proof.Machine

/-! ## Observation: no side effect, any run state (R322) -/

/-- What `obs_reg` can name (R20, R322). -/
inductive RegId where
  | general (r : Reg)
  | apsr
  deriving DecidableEq, Repr

/-- What `obs_flag` can name. -/
inductive FlagId where
  | n | z | c | v
  deriving DecidableEq, Repr

/-- `obs_reg(id)`: PC is the stored value, not `ia + 4` (R322). -/
def obsReg (s : State) : RegId → Word
  | .general r => s.reg r
  | .apsr => s.flags.apsr

/-- `obs_flag(f)` (R322). -/
def obsFlag (s : State) : FlagId → Bool
  | .n => s.flags.n
  | .z => s.flags.z
  | .c => s.flags.c
  | .v => s.flags.v

/-- `obs_byte(a)` (R322). -/
def obsByte (s : State) (a : Word) : Byte := s.busReadByte a

/-- The status port: run state, completion and the fault record with its code and info (R5, R300). -/
structure Status where
  run       : RunState
  completed : Bool
  fault     : Option (Nat × List Nat × Word)
  deriving DecidableEq, Repr

def status (s : State) : Status :=
  ⟨s.run, s.completed, s.fault.map fun r => (r.fault.code, r.fault.info, r.ia)⟩

/-! ## `find_device` (R70): a host port, no instruction uses it -/

/-- The routing error's text, the address in lowercase hex; the number of leading zeros is left open (R70, R310, U19). -/
def routingError (a : Word) : String :=
  "Could not find a device responsible for the address '0x" ++
    String.ofList (List.replicate (Config.routingPadding a) '0' ++ Nat.toDigits 16 a.toNat) ++ "'."

/-- `find_device(a)` (R70, R309 (a)). -/
def findDevice (s : State) (a : Word) : Except String DeviceDesc :=
  match s.owner a with
  | some d => .ok d.desc
  | none => .error (routingError a)

/-! ## Transactions that change state -/

/-- `load(IMAGE, ENTRY)`: the image and entry replaced, then `reset` (R332). -/
def State.loadTransaction (s : State) (image : List (Word × Byte)) (entry : Word) : State :=
  { s with image := image, entry := entry }.resetTransaction

/-- The start of `run`: "`run <- Running`; `halt_req <- false`" (R334). -/
def State.startRun (s : State) : State := { s with run := .running, haltReq := false }

/-- `halt`: "Sets `halt_req <- true` when `run = Running`; has no effect in any other state" (R335). -/
def State.haltTransaction (s : State) : State := if s.run = .running then { s with haltReq := true } else s

/-- A device after a `dev_input` event, or the message the call fails with: only a volatile device takes events (R68), an
invalid event fails with the device's own message (R309 (b)). -/
def deviceAfterInput (i event : Nat) (d : Device) : Except String Device :=
  if d.desc.isVolatile then
    match Config.deviceInput d.desc d.state event with
    | .ok st => .ok { d with state := st.canonical }
    | .error message => .error message
  else .error (Config.inputRefused i event)

/-- `dev_input(d, event)` for the device at a position of the list, with its failure (R68, R309 (b), assumption log 8). -/
def State.tryDevInput (s : State) (i event : Nat) : Except String State :=
  match s.devices[i]? with
  | some d =>
    match deviceAfterInput i event d with
    | .ok e => .ok { s with devices := s.devices.set i e }
    | .error message => .error message
  | none => .error (Config.inputRefused i event)

/-- The state after `dev_input`: a call that fails changes nothing (R309). -/
def State.devInput (s : State) (i event : Nat) : State :=
  match s.tryDevInput i event with
  | .ok t => t
  | .error _ => s

/-- The transactions of R5 that may change state; `turn` is one turn of a `run` in progress (R334). -/
inductive Transaction where
  | reset
  | load (image : List (Word × Byte)) (entry : Word)
  | step
  | run
  | turn
  | halt
  | devInput (i event : Nat)
  deriving DecidableEq, Repr

/-- The state a step reaches (every step reaches one). -/
def stepState (s : State) : Option State :=
  match step s with
  | .next t => some t
  | .fault _ => none
  | .refused _ => none

/-- A transaction's result; `none` where the host breaks its duty to serialise, so that the spec gives no meaning
(R332, R340, assumption log 12). -/
def transact (tr : Transaction) (s : State) : Option State :=
  match tr with
  | .reset => some s.resetTransaction
  | .load image entry => if s.run = .running then none else some (s.loadTransaction image entry)
  | .step => if s.run = .running then none else stepState s
  | .run =>
    match s.run with
    | .idle => some s.startRun
    | .halted => some s.startRun
    | .faulted => some s
    | .running => none
  | .turn => if s.run = .running then stepState s else none
  | .halt => some s.haltTransaction
  | .devInput i event => some (s.devInput i event)

/-- Whether the sentinel stands at PC (R101). -/
def atSentinel (s : State) : Bool :=
  match s.fetch16 s.pc with
  | .ok hw1 => hw1 == s.endOfCode
  | .error _ => false

/-- What the `step` transaction returns: "whether further stepping is possible" (R333): false in Faulted, at the sentinel
and after a fault. -/
def stepReply (s : State) : Bool :=
  s.run != .faulted && !atSentinel s &&
    match stepState s with
    | some t => t.run != .faulted
    | none => false

/-- What a transaction returns to the host. -/
inductive Reply where
  /-- the call succeeded and returns no value -/
  | done
  /-- `step`: whether further stepping is possible (R333) -/
  | more (b : Bool)
  /-- the call failed with its message, "fatal to that call only" (R309): no error is swallowed (R311) -/
  | failed (message : String)
  deriving DecidableEq, Repr

/-- The reply of `dev_input` (R309 (b), R311). -/
def devInputReply (s : State) (i event : Nat) : Reply :=
  match s.tryDevInput i event with
  | .ok _ => .done
  | .error message => .failed message

/-- A transaction's reply; `none` exactly where it has no result (assumption log 12). A fault that an instruction raises
is not in the reply but in the record, which the status port returns (R300, R305). -/
def reply (tr : Transaction) (s : State) : Option Reply :=
  (transact tr s).map fun _ =>
    match tr with
    | .step => .more (stepReply s)
    | .devInput i event => devInputReply s i event
    | .reset => .done
    | .load _ _ => .done
    | .run => .done
    | .turn => .done
    | .halt => .done

/-- The preconditions a model takes as hypotheses of `load` (R332): an even entry, no image byte under a device. -/
abbrev Transaction.allowed (tr : Transaction) (s : State) : Prop :=
  match tr with
  | .load image entry =>
    entry.getLsbD 0 = false ∧ ∀ c ∈ image, ∀ d ∈ s.devices, d.desc.isResponsibleFor c.1 = false
  | _ => True

end Sys2Proof.Machine
end

