-- ==== Sys2Proof/Safety.lean ====
section
/-! DEFINITION. The terms the statements use: the invariant of the machine, what an instruction leaves unchanged, and
what the spec says of a sum, a difference, a shift, in the spec's own words and not in the ALU's. -/

namespace Sys2Proof.Safety

open Sys2Proof.Machine

/-! ## The invariant -/

/-- What every state that runs reach satisfies. In state Faulted nothing is claimed of the registers (R305). -/
structure MachineInv (s : State) : Prop where
  /-- the fall-through memory is in canonical form -/
  memory : s.mem.wf
  /-- each device's range is a range, and its byte stores are in canonical form (R61) -/
  devices : ∀ d ∈ s.devices, d.desc.start ≤ d.desc.last ∧ d.state.bytes.wf ∧ d.desc.resetState.bytes.wf
  /-- the stored entry is even (R4) -/
  entryEven : s.entry.getLsbD 0 = false
  /-- no byte of the stored image lies under a device (R77, R332) -/
  imageClear : ∀ c ∈ s.image, ∀ d ∈ s.devices, d.desc.isResponsibleFor c.1 = false
  /-- bit 0 of PC is 0 (R26) -/
  pcEven : s.run ≠ .faulted → s.pc.getLsbD 0 = false
  /-- the fault record is set exactly in state Faulted (R300, R305) -/
  faultRecord : s.run = .faulted ↔ s.fault.isSome

/-! ## Frames -/

/-- Registers outside the list keep their value. -/
def RegsKept (s t : State) (written : List Reg) : Prop := ∀ r, r ∉ written → t.reg r = s.reg r

/-- Every byte reads as before, whoever owns it, and so does every byte below the devices. -/
structure MemoryKept (s t : State) : Prop where
  bytes   : ∀ a, t.busReadByte a = s.busReadByte a
  mem     : t.mem = s.mem
  devices : t.devices = s.devices

/-- The sequencer's state, the stored image and the parameters are as before. -/
structure ControlKept (s t : State) : Prop where
  run       : t.run = s.run
  haltReq   : t.haltReq = s.haltReq
  completed : t.completed = s.completed
  fault     : t.fault = s.fault
  image     : t.image = s.image
  entry     : t.entry = s.entry
  endOfCode : t.endOfCode = s.endOfCode
  freeCount : t.freeCount = s.freeCount

/-- Registers, memory and devices apart, the fault is recorded and the run stopped (R305): "`fault <- (code(F), info, ia)`;
`run <- Faulted`". Nothing is said of the registers, the flags, memory or the devices' states. -/
structure FaultedWith (s t : State) (f : Fault) (ia : Word) : Prop where
  run         : t.run = .faulted
  record      : t.fault = some ⟨f, ia⟩
  haltReq     : t.haltReq = s.haltReq
  completed   : t.completed = s.completed
  image       : t.image = s.image
  entry       : t.entry = s.entry
  endOfCode   : t.endOfCode = s.endOfCode
  descriptors : t.devices.map Device.desc = s.devices.map Device.desc

/-- The result is a next state with the given property. -/
def Ends (r : Result) (P : State → Prop) : Prop := ∃ t, r = .next t ∧ P t

/-- The result is the entry of the fault `f` raised by the instruction at `ia`. -/
def Raises (s : State) (r : Result) (f : Fault) (ia : Word) : Prop := Ends r fun t => FaultedWith s t f ia

/-- All but the listed registers and the flags is as before. -/
structure Frame (s t : State) (written : List Reg) : Prop where
  regs    : RegsKept s t written
  memory  : MemoryKept s t
  control : ControlKept s t

/-- All but the listed registers is as before, the flags too. -/
structure FrameKeepingFlags (s t : State) (written : List Reg) : Prop where
  frame : Frame s t written
  flags : t.flags = s.flags

/-- The devices' descriptors, in order: configuration, never changed (R4). -/
def descriptors (s : State) : List DeviceDesc := s.devices.map Device.desc

/-! ## Devices and bytes -/

/-- `isResponsibleFor(d, a)`: "`(d.start <= a) AND (a <= d.end)`" (R62). -/
def Responsible (d : Device) (a : Word) : Prop := d.desc.start.toNat ≤ a.toNat ∧ a.toNat ≤ d.desc.last.toNat

/-- No device is responsible for the address. -/
def Unowned (s : State) (a : Word) : Prop := ∀ d ∈ s.devices, ¬ Responsible d a

/-- `d`, between the devices `before` and `after` of the list, is the first that is responsible (R63). -/
structure OwnedBy (s : State) (a : Word) (before : List Device) (d : Device) (after : List Device) : Prop where
  list  : s.devices = before ++ d :: after
  first : ∀ e ∈ before, ¬ Responsible e a
  owns  : Responsible d a

/-- A halfword at an address, little endian: "`h[7:0]` at `a` and `h[15:8]` at `a+1`" (R52). -/
structure HalfwordAt (s : State) (a : Word) (h : Halfword) : Prop where
  low  : s.busReadByte a = h.extractLsb' 0 8
  high : s.busReadByte (a + 1) = h.extractLsb' 8 8

/-- An instruction's one or two halfwords at an address, the first lower (R91). -/
structure InstructionAt (s : State) (a : Word) (i : Instr) : Prop where
  first  : HalfwordAt s a (encodeFirst i)
  second : ∀ h, encodeSecond i = some h → HalfwordAt s (a + 2) h

/-- An instruction's bytes in address order (R52, R91). -/
def instructionBytes (i : Instr) : List Byte := (encode i).flatMap fun h => [h.extractLsb' 0 8, h.extractLsb' 8 8]

/-! ## Stored bytes -/

/-- The address `a` belongs to no device, or to a read-write default device: a byte store there lands and is read back
(R66, R67). -/
def Storable (s : State) (a : Word) : Prop :=
  ∀ d, s.owner a = some d → d.desc.isReadOnly = false ∧ d.desc.behaviour = .byteStore

/-- The `n` byte addresses from `a` upward. -/
def Span (a : Word) (n : Nat) (b : Word) : Prop := ∃ i, i < n ∧ b = a + BitVec.ofNat 32 i

/-- `w` bytes can be stored at `a`: the access does not pass the top of the address space (R71) and each byte lands. -/
structure CanStore (s : State) (a : Word) (w : Width) : Prop where
  inRange  : a.toNat + w.bytes - 1 ≤ 0xFFFFFFFF
  storable : ∀ b, Span a w.bytes b → Storable s b

/-- `w` bytes can be loaded from `a` (R71). -/
def CanLoad (a : Word) (w : Width) : Prop := a.toNat + w.bytes - 1 ≤ 0xFFFFFFFF

/-- Byte `i` of a word, the least significant first (R52). -/
def wordByte (v : Word) (i : Nat) : Byte := BitVec.ofNat 8 (v.toNat / 2 ^ (8 * i))

/-- The little-endian number of the `n` bytes at `a`, `a + 1`, … as the bus reads them: `sum of b_i * 2^(8 i)` (R72). -/
def bytesAt (s : State) (a : Word) : Nat → Nat
  | 0 => 0
  | n + 1 => bytesAt s a n + (s.busReadByte (a + BitVec.ofNat 32 n)).toNat * 2 ^ (8 * n)

/-- The word at `a` (R52). -/
def wordAt (s : State) (a : Word) : Word := BitVec.ofNat 32 (bytesAt s a 4)

/-- The low `n` bytes of `v` are at `a` upward, every other byte reads as before, and where a device owns an address the
fall-through memory below it is untouched (R67, R73). -/
structure Stored (s t : State) (a : Word) (n : Nat) (v : Word) : Prop where
  landed      : ∀ i, i < n → t.busReadByte (a + BitVec.ofNat 32 i) = wordByte v i
  elsewhere   : ∀ b, ¬ Span a n b → t.busReadByte b = s.busReadByte b
  underDevice : ∀ b, (s.owner b).isSome → t.mem.read b.toNat = s.mem.read b.toNat
  descriptors : descriptors t = descriptors s

/-- The words of the listed registers, as `s` holds them, are at `a`, `a + 4`, … and every other byte reads as before. -/
structure StoredWords (s t : State) (a : Word) (regs : List Reg) : Prop where
  landed      : ∀ k r, regs[k]? = some r → ∀ i, i < 4 →
    t.busReadByte (a + BitVec.ofNat 32 (4 * k + i)) = wordByte (s.reg r) i
  elsewhere   : ∀ b, ¬ Span a (4 * regs.length) b → t.busReadByte b = s.busReadByte b
  underDevice : ∀ b, (s.owner b).isSome → t.mem.read b.toNat = s.mem.read b.toNat
  descriptors : descriptors t = descriptors s

/-- The halfword at `a` (R52). -/
def halfAt (s : State) (a : Word) : Halfword := BitVec.ofNat 16 (bytesAt s a 2)

/-- Each of `n` words from `a` upward can be stored. -/
def CanStoreWords (s : State) (a : Word) (n : Nat) : Prop :=
  ∀ k, k < n → CanStore s (a + BitVec.ofNat 32 (4 * k)) .word

/-- Each of `n` words from `a` upward can be loaded. -/
def CanLoadWords (a : Word) (n : Nat) : Prop := ∀ k, k < n → CanLoad (a + BitVec.ofNat 32 (4 * k)) .word

/-! ## Operands -/

/-- `RegRead(i)` in the instruction at `ia`: `ia + 4` for register 15 (R8, R25). -/
def operandAt (s : State) (ia : Word) (r : Reg) : Word := if r = 15 then ia + 4 else s.reg r

/-- The registers of a 16-bit set, ascending (R108). -/
def registersOf (set : BitVec 16) : List Reg := (List.finRange 16).filter fun r => set.getLsbD r.val

/-- "The full 16-bit set is `0 : M : 000000 : register_list` for `PUSH`" (R108). -/
def pushSet (m : Bool) (list : BitVec 8) : BitVec 16 := 0#1 ++ BitVec.ofBool m ++ 0#6 ++ list

/-- The listed low registers: the set of `STM` and `LDM`, and of `POP` without PC (R108). -/
def lowSet (list : BitVec 8) : BitVec 16 := 0#8 ++ list

/-- The bits `p_0 < p_1 < …` at which a pattern has an `X` (R95). -/
def xPositions (p : Pattern) : List Nat := (List.range p.length).filter fun j => p[j]? == some .any

/-! ## What the spec says of results -/

/-- N and Z of a result (R132). -/
structure NZ (r : Word) (f : Flags) : Prop where
  n : f.n = true ↔ 2 ^ 31 ≤ r.toNat
  z : f.z = true ↔ r = 0

/-- A number lies outside the signed 32-bit range. -/
def Overflows (x : Int) : Prop := ¬ (-2 ^ 31 ≤ x ∧ x < 2 ^ 31)

/-- `a + b + carry`: "`C` set iff unsigned result overflows 32 bits", V set iff the signed sum does (R131, R133, R135). -/
structure SumOf (a b : Word) (carry : Bool) (r : Word) (f : Flags) : Prop where
  value : r.toNat = (a.toNat + b.toNat + carry.toNat) % 2 ^ 32
  nz    : NZ r f
  c     : f.c = true ↔ 2 ^ 32 ≤ a.toNat + b.toNat + carry.toNat
  v     : f.v = true ↔ Overflows (a.toInt + b.toInt + carry.toNat)

/-- `a - b - borrow`: C means no borrow, V set iff the signed difference overflows (R134, R135). -/
structure DifferenceOf (a b : Word) (borrow : Bool) (r : Word) (f : Flags) : Prop where
  value : r = a - b - BitVec.ofNat 32 borrow.toNat
  nz    : NZ r f
  c     : f.c = true ↔ b.toNat + borrow.toNat ≤ a.toNat
  v     : f.v = true ↔ Overflows (a.toInt - b.toInt - borrow.toNat)

/-- N and Z from the result, C and V as they were (R136, R143). -/
structure KeepsCV (r : Word) (old f : Flags) : Prop where
  nz : NZ r f
  c  : f.c = old.c
  v  : f.v = old.v

/-- The table of `LSL_C` (R137). -/
structure LslTable (x : Word) (n : Nat) (r : Word) (c : Bool) : Prop where
  below : 1 ≤ n → n ≤ 31 → r.toNat = (x.toNat * 2 ^ n) % 2 ^ 32 ∧ c = x.getLsbD (32 - n)
  at32  : n = 32 → r = 0 ∧ c = x.getLsbD 0
  above : 32 < n → r = 0 ∧ c = false

/-- The table of `LSR_C` (R138). -/
structure LsrTable (x : Word) (n : Nat) (r : Word) (c : Bool) : Prop where
  below : 1 ≤ n → n ≤ 31 → r.toNat = x.toNat / 2 ^ n ∧ c = x.getLsbD (n - 1)
  at32  : n = 32 → r = 0 ∧ c = x.getLsbD 31
  above : 32 < n → r = 0 ∧ c = false

/-- The table of `ASR_C` (R139). -/
structure AsrTable (x : Word) (n : Nat) (r : Word) (c : Bool) : Prop where
  below : 1 ≤ n → n ≤ 31 → r.toInt = x.toInt / 2 ^ n ∧ c = x.getLsbD (n - 1)
  from32 : 32 ≤ n → r = (if x.getLsbD 31 then 0xFFFFFFFF else 0) ∧ c = x.getLsbD 31

/-- The table of `ROR_C` (R140): bit `i` of the result is bit `i + n` of the value, modulo 32. -/
structure RorTable (x : Word) (n : Nat) (r : Word) (c : Bool) : Prop where
  bits  : 1 ≤ n → ∀ i, i < 32 → r.getLsbD i = x.getLsbD ((i + n) % 32)
  carry : 1 ≤ n → c = r.getLsbD 31

/-- A shift instruction's effect by the table of its function: amount 0 passes the value through with C unchanged; N and
Z are written either way, V is kept (R141, R142). -/
structure Shifted (table : Word → Nat → Word → Bool → Prop) (x : Word) (n : Nat) (old : Flags) (r : Word) (f : Flags) :
    Prop where
  passes : n = 0 → r = x ∧ f.c = old.c
  shifts : 1 ≤ n → table x n r f.c
  nz     : NZ r f
  v      : f.v = old.v

/-- The condition table of R145. -/
def CondHolds (cond : Cond) (f : Flags) : Prop :=
  match cond with
  | .eq => f.z = true
  | .ne => f.z = false
  | .cs => f.c = true
  | .cc => f.c = false
  | .mi => f.n = true
  | .pl => f.n = false
  | .vs => f.v = true
  | .vc => f.v = false
  | .hi => f.c = true ∧ f.z = false
  | .ls => f.c = false ∨ f.z = true
  | .ge => f.n = f.v
  | .lt => f.n ≠ f.v
  | .gt => f.z = false ∧ f.n = f.v
  | .le => f.z = true ∨ f.n ≠ f.v

/-! ## What a load and a store do -/

/-- A load of width `w` at `a` by the instruction `i` at `ia`: the value is written to its register and nothing else
changes, or the access passes the top of the address space and the fault names its address (R210). -/
structure Loads (i : Instr) (s : State) (ia : Word) (rt : Reg) (a : Word) (w : Width) (value : Word) : Prop where
  loaded : CanLoad a w → Ends (exec i s) fun t => t.reg rt = value ∧ FrameKeepingFlags s t [rt]
  raises : ¬ CanLoad a w → Raises s (exec i s) (.addressRange a) ia

/-- What storing leaves alone: the registers outside `written`, the flags and the sequencer. -/
structure StoreFrame (s t : State) (written : List Reg) : Prop where
  regs    : RegsKept s t written
  flags   : t.flags = s.flags
  control : ControlKept s t

/-- A store of width `w` at `a` by the instruction `i` at `ia`: it is `MemWrite(a, n, v)`, whatever the devices do; where
every byte can be stored, the bytes are in memory and nothing else changes (R210). -/
structure Stores (i : Instr) (s : State) (ia : Word) (a : Word) (w : Width) (v : Word) : Prop where
  stored : MachineInv s → CanStore s a w → Ends (exec i s) fun t => Stored s t a w.bytes v ∧ StoreFrame s t []
  taken  : ∀ t, s.memWrite a w v = .ok t → exec i s = .next t
  raises : ∀ f, s.memWrite a w v = .error f → Raises s (exec i s) f ia

/-! ## Classes of instructions, from the spec's own lists -/

/-- The instructions that write PC: "the complete list of PC writers is `B`, `B<cond>` (when the condition passes), `BL`,
`BX`, `BLX`, `POP` with bit P, `MOV PC, Rm` and `ADD PC, Rm`" (R28). -/
def writesPc : Instr → Bool
  | .b _ => true
  | .bcond _ _ => true
  | .bl _ _ _ _ _ => true
  | .bx _ => true
  | .blx _ => true
  | .pop p _ => p
  | .movHi rd _ => rd == pcReg
  | .addHi rdn _ => rdn == pcReg
  | _ => false

/-- The instructions that make a data store: `STR`, `STRH`, `STRB` in every form, `PUSH`, `STM` (R75). -/
def storesMemory : Instr → Bool
  | .strReg _ _ _ | .strhReg _ _ _ | .strbReg _ _ _ | .strImm _ _ _ | .strbImm _ _ _ | .strhImm _ _ _ | .strSp _ _ => true
  | .push _ _ | .stm _ _ => true
  | _ => false

/-- The registers an instruction may write besides PC: its destination fields and the registers its rule updates
(R21, R23, R160 to R272). -/
def destinations : Instr → List Reg
  | .lslsImm rd _ _ | .lsrsImm rd _ _ | .asrsImm rd _ _ | .addsImm3 rd _ _ | .subsImm3 rd _ _ => [low rd]
  | .movsReg rd _ | .movsImm rd _ | .mvns rd _ | .rsbs rd _ => [low rd]
  | .addsReg rd _ _ | .subsReg rd _ _ => [low rd]
  | .addsImm8 rdn _ | .subsImm8 rdn _ => [low rdn]
  | .ands rdn _ | .eors rdn _ | .lslsReg rdn _ | .lsrsReg rdn _ | .asrsReg rdn _ | .adcs rdn _ | .sbcs rdn _ => [low rdn]
  | .rors rdn _ | .orrs rdn _ | .muls rdn _ | .bics rdn _ => [low rdn]
  | .addHi rdn _ | .movHi rdn _ => [rdn]
  | .blx _ | .bl _ _ _ _ _ => [lrReg]
  | .ldrLit rt _ | .ldrSp rt _ => [low rt]
  | .ldrsbReg rt _ _ | .ldrReg rt _ _ | .ldrhReg rt _ _ | .ldrbReg rt _ _ | .ldrshReg rt _ _ => [low rt]
  | .ldrImm rt _ _ | .ldrbImm rt _ _ | .ldrhImm rt _ _ => [low rt]
  | .adr rd _ | .addRdSp rd _ => [low rd]
  | .addSp _ | .subSp _ => [spReg]
  | .sxth rd _ | .sxtb rd _ | .uxth rd _ | .uxtb rd _ | .rev rd _ | .rev16 rd _ | .revsh rd _ => [low rd]
  | .push _ _ => [spReg]
  | .pop _ list => spReg :: (lowList list).map low
  | .stm rn _ => [low rn]
  | .ldm rn list => low rn :: (lowList list).map low
  | _ => []

/-- Which flags an instruction may write: the rows of the table of R31. -/
inductive FlagClass where
  | nzcv | nz | nzc | none
  deriving DecidableEq, Repr

def flagClass : Instr → FlagClass
  | .addsReg _ _ _ | .addsImm3 _ _ _ | .addsImm8 _ _ | .adcs _ _ | .cmn _ _ => .nzcv
  | .subsReg _ _ _ | .subsImm3 _ _ _ | .subsImm8 _ _ | .sbcs _ _ | .rsbs _ _ => .nzcv
  | .cmpImm _ _ | .cmpReg _ _ | .cmpHi _ _ => .nzcv
  | .ands _ _ | .eors _ _ | .orrs _ _ | .bics _ _ | .mvns _ _ | .tst _ _ => .nz
  | .movsImm _ _ | .movsReg _ _ | .muls _ _ => .nz
  | .lslsImm _ _ _ | .lsrsImm _ _ _ | .asrsImm _ _ _ => .nzc
  | .lslsReg _ _ | .lsrsReg _ _ | .asrsReg _ _ | .rors _ _ => .nzc
  | _ => .none

/-- The flags outside the class are as before. -/
def FlagsOutsideKept (c : FlagClass) (old f : Flags) : Prop :=
  match c with
  | .nzcv => True
  | .nz => f.c = old.c ∧ f.v = old.v
  | .nzc => f.v = old.v
  | .none => f = old

/-- The rows of the opcode table that the spec refuses by name (R111, R112, R116). -/
def refusedByName : Instr → Bool
  | .cps _ | .bkpt _ | .yield | .wfe | .wfi | .sev | .udf _ | .svc _ => true
  | .msr _ _ | .mrs _ _ | .dsb _ | .dmb _ | .isb _ => true
  | _ => false

/-- The length of an instruction in bytes, `ilen` (R10). -/
def byteLength (i : Instr) : Word := if (encodeSecond i).isSome then 4 else 2

/-- The one-halfword values that fit no row, as R113 lists them. -/
def Unallocated (h : Halfword) : Prop :=
  (0x4700 ≤ h.toNat ∧ h.toNat ≤ 0x47FF ∧ h.toNat % 8 ≠ 0) ∨
  (0xB100 ≤ h.toNat ∧ h.toNat ≤ 0xB1FF) ∨
  (0xB300 ≤ h.toNat ∧ h.toNat ≤ 0xB3FF) ∨
  (0xB600 ≤ h.toNat ∧ h.toNat ≤ 0xB7FF ∧ h.toNat ≠ 0xB662 ∧ h.toNat ≠ 0xB672) ∨
  (0xB800 ≤ h.toNat ∧ h.toNat ≤ 0xB9FF) ∨
  (0xBA80 ≤ h.toNat ∧ h.toNat ≤ 0xBABF) ∨
  (0xBB00 ≤ h.toNat ∧ h.toNat ≤ 0xBBFF) ∨
  (0xBF01 ≤ h.toNat ∧ h.toNat ≤ 0xBFFF ∧ h.toNat ≠ 0xBF10 ∧ h.toNat ≠ 0xBF20 ∧ h.toNat ≠ 0xBF30 ∧ h.toNat ≠ 0xBF40)

/-- The operand values that raise `Unpredictable`: the table of R115. -/
def Unpredictable : Instr → Prop
  | .addHi rdn rm => rdn = 15 ∧ rm = 15
  | .cmpHi rn rm => (rn.val < 8 ∧ rm.val < 8) ∨ rn = 15 ∨ rm = 15
  | .blx rm => rm = 15
  | .push m list => m = false ∧ list = 0
  | .pop p list => p = false ∧ list = 0
  | .stm rn list => list = 0 ∨ (list.getLsbD rn.val = true ∧ ∃ r, r < rn.val ∧ list.getLsbD r = true)
  | .ldm _ list => list = 0
  | _ => False

end Sys2Proof.Safety
end

