-- ==== Sys2Proof/Certificates/Slice0/Obligations.lean ====
section
/-! DEFINITION. The statements about the machine. `ia` is the address of the instruction that executes: PC already holds
`ia + 2`, or `ia + 4` for a two-halfword instruction (R24), which the hypotheses on `s.pc` say. -/

open Sys2Proof Sys2Proof.Machine Sys2Proof.Safety

/-! ## Encoding -/

/-- R125, R104, R105: decoding what the encoder wrote gives the instruction back, at every operand value; so does
decoding its bytes, with what follows them left over. -/
def Obligations.DecodingAnEncodedInstructionGivesItBack : Prop :=
  ∀ i : Instr, i.wellFormed = true →
    (∀ other : Halfword, decode (encodeFirst i) ((encodeSecond i).getD other) = .ok i) ∧
    (∀ rest : List Byte, decodeBytes (instructionBytes i ++ rest) = .ok (i, rest))

/-- R96, R104: a decoded instruction encodes to the halfwords it was read from: no bit is dropped. -/
def Obligations.EncodingADecodedInstructionGivesTheWordsBack : Prop :=
  ∀ (hw1 hw2 : Halfword) (i : Instr), decode hw1 hw2 = .ok i →
    i.wellFormed = true ∧ encode i = hw1 :: (if isLong hw1 then [hw2] else [])

/-- R103: the decoder takes the row with the most literal bits, which no other fitting row matches in number; where no row
fits or the row is refused, `Undefined(hw1)` or `Undefined(hw1, hw2)` is raised; otherwise the row's instruction is
executed. -/
def Obligations.TheMostSpecificFittingRowIsExecuted : Prop :=
  ∀ hw1 hw2 : Halfword,
    (∀ n, selectRow hw1 hw2 = some n ↔
      ∃ row, opcodeTable[n]? = some row ∧ row.fits hw1 hw2 = true ∧
        ∀ m other, opcodeTable[m]? = some other → other.fits hw1 hw2 = true → m ≠ n → other.literals < row.literals) ∧
    (∀ i, decode hw1 hw2 = .ok i → selectRow hw1 hw2 = some i.rowIndex) ∧
    (∀ (s : State) (ia : Word), s.pc = ia + (if isLong hw1 then 4 else 2) →
      (selectRow hw1 hw2 = none ∨ ∃ n row, selectRow hw1 hw2 = some n ∧ opcodeTable[n]? = some row ∧ row.admitted = false) →
      Raises s (dispatch s ia hw1 hw2) (.undefined hw1 (if isLong hw1 then some hw2 else none)) ia) ∧
    (∀ (s : State) (ia : Word) (n : Nat) (row : OpcodeRow), selectRow hw1 hw2 = some n → opcodeTable[n]? = some row →
      row.admitted = true → ∃ i, i.rowIndex = n ∧ decode hw1 hw2 = .ok i ∧ dispatch s ia hw1 hw2 = exec i s)

/-- R104: two rows that fit one halfword are one of the three listed pairs, and the later of the pair fixes every bit the
earlier fixes, and more. -/
def Obligations.OverlappingRowsFormAChain : Prop :=
  ∀ (hw1 hw2 : Halfword) (a b : Nat) (rowA rowB : OpcodeRow),
    opcodeTable[a]? = some rowA → opcodeTable[b]? = some rowB → a < b →
    rowA.fits hw1 hw2 = true → rowB.fits hw1 hw2 = true →
    ((a = 0 ∧ b = 1) ∨ (a = 72 ∧ b = 73) ∨ (a = 72 ∧ b = 74)) ∧
      rowA.mask &&& rowB.mask = rowA.mask ∧ rowA.mask ≠ rowB.mask

/-- R102: the length comes from the first halfword's top five bits alone; a one-halfword instruction is the same
whatever halfword follows. -/
def Obligations.TheFirstHalfwordTellsTheLength : Prop :=
  ∀ hw1 : Halfword,
    (isLong hw1 = true ↔ hw1.toNat / 2 ^ 11 = 0b11101 ∨ hw1.toNat / 2 ^ 11 = 0b11110 ∨ hw1.toNat / 2 ^ 11 = 0b11111) ∧
    (∀ hw2 i, decode hw1 hw2 = .ok i → ((encodeSecond i).isSome = isLong hw1)) ∧
    (isLong hw1 = false → ∀ a b, decode hw1 a = decode hw1 b)

/-- R113, R114: the unallocated one-halfword values are exactly the listed ones, and each raises `Undefined(hw1)`. -/
def Obligations.ExactlyTheListedHalfwordsAreUnallocated : Prop :=
  ∀ hw1 : Halfword, isLong hw1 = false →
    ((∃ i, decode hw1 0 = .ok i) ↔ ¬ Unallocated hw1) ∧
    (Unallocated hw1 → ∀ (s : State) (ia : Word) (hw2 : Halfword),
      Raises s (dispatch s ia hw1 hw2) (.undefined hw1 none) ia)

/-- R112: a pair that is not `BL` raises `Undefined(hw1, hw2)` once its second halfword is fetched. -/
def Obligations.TwoHalfwordEncodingsOtherThanBlAreRefused : Prop :=
  ∀ (s : State) (ia : Word) (hw1 hw2 : Halfword), ia.getLsbD 0 = false → isLong hw1 = true →
    ¬ (hw1.extractLsb' 11 5 = 0b11110 ∧ hw2.getLsbD 15 = true ∧ hw2.getLsbD 14 = true ∧ hw2.getLsbD 12 = true) →
    HalfwordAt s (ia + 2) hw2 → Raises s (longCycle s ia hw1) (.undefined hw1 (some hw2)) ia

/-- R111, R116: fetching `CPS`, `BKPT`, `UDF`, `SVC`, `YIELD`, `WFE`, `WFI`, `SEV` or any other `0xBFxy` but `NOP` raises
`Undefined(hw1)`; `NOP` does nothing. -/
def Obligations.RefusedHalfwordsAndHints : Prop :=
  ∀ (s : State) (ia : Word) (hw2 : Halfword), s.pc = ia + 2 →
    Raises s (dispatch s ia 0xB662 hw2) (.undefined 0xB662 none) ia ∧
    Raises s (dispatch s ia 0xB672 hw2) (.undefined 0xB672 none) ia ∧
    (∀ imm8 : BitVec 8,
      Raises s (dispatch s ia (0xBE#8 ++ imm8) hw2) (.undefined (0xBE#8 ++ imm8) none) ia ∧
      Raises s (dispatch s ia (0xDE#8 ++ imm8) hw2) (.undefined (0xDE#8 ++ imm8) none) ia ∧
      Raises s (dispatch s ia (0xDF#8 ++ imm8) hw2) (.undefined (0xDF#8 ++ imm8) none) ia) ∧
    dispatch s ia 0xBF00 hw2 = .next s ∧
    (∀ imm8 : BitVec 8, imm8 ≠ 0 →
      Raises s (dispatch s ia (0xBF#8 ++ imm8) hw2) (.undefined (0xBF#8 ++ imm8) none) ia)

/-- R313, R111, R112, R116: executing any of the thirteen rows refused by name is raising `Undefined` with the halfwords
of the instruction. -/
def Obligations.RowsRefusedByNameRaiseUndefined : Prop :=
  ∀ (i : Instr) (s : State) (ia : Word), refusedByName i = true → s.pc = ia + byteLength i →
    Raises s (exec i s) (.undefined (encodeFirst i) (encodeSecond i)) ia

/-- A few words written out from the Encoding lines of the rules they cite decode to their instructions. A sanity check. -/
def Obligations.SampleWordsDecode : Prop :=
  decode 0x0108 0 = .ok (.lslsImm 0 1 4) ∧
  decode 0x1888 0 = .ok (.addsReg 0 1 2) ∧
  decode 0x4348 0 = .ok (.muls 0 1) ∧
  decode 0x4685 0 = .ok (.movHi 13 0) ∧
  decode 0x77C8 0 = .ok (.strbImm 0 1 31) ∧
  decode 0xA002 0 = .ok (.adr 0 2) ∧
  decode 0xB501 0 = .ok (.push true 1) ∧
  decode 0xD1FC 0 = .ok (.bcond .ne 0xFC) ∧
  decode 0xF7FF 0xFFFE = .ok (.bl 1 0x3FF 1 1 0x7FE)

/-! ## The opcode pattern engine -/

/-- R92: a pattern is valid iff it has exactly 16 characters, each `0`, `1` or `X`; character j is bit 15-j; `match`,
`create` and `setBits` fail on any other. -/
def Obligations.PatternsAreSixteenTernaryDigits : Prop :=
  (∀ cs : List Char, (∃ p, parsePattern cs = .ok p) ↔ cs.length = 16 ∧ ∀ c ∈ cs, c = '0' ∨ c = '1' ∨ c = 'X') ∧
  (∀ (cs : List Char) (p : Pattern), parsePattern cs = .ok p →
    p.valid = true ∧ ∀ j, j < 16 → ∃ c t, cs[j]? = some c ∧ p[15 - j]? = some t ∧ tritOfChar c = some t) ∧
  (∀ (cs : List Char) (e : PatternError), parsePattern cs = .error e →
    ∀ (w : Halfword) (v : Nat), matchText w cs = .error e ∧ createText cs = .error e ∧ setBitsText w cs v = .error e)

/-- R93, R94: a word matches iff it has the pattern's digit at every literal position; equivalently by mask and value;
`create` gives the literal bits and 0 at every `X`. -/
def Obligations.MatchingComparesTheLiteralBits : Prop :=
  ∀ p : Pattern, p.valid = true →
    (∀ w : Halfword, fits w p = true ↔
      ∀ j, j < 16 → (p[j]? = some .one → w.getLsbD j = true) ∧ (p[j]? = some .zero → w.getLsbD j = false)) ∧
    (∀ w : Halfword, fits w p = (w &&& literalMask p == create p)) ∧
    (∀ j, j < 16 → ((create p).getLsbD j = true ↔ p[j]? = some .one))

/-- R95, R96: `setBits` puts bit j of the value at the j-th `X` from the right and changes nothing else; `getBits` reads
the same positions back. -/
def Obligations.FieldsFillTheFreePositions : Prop :=
  ∀ p : Pattern, p.valid = true → ∀ (w : Halfword) (v : Nat),
    (∀ j b, (xPositions p)[j]? = some b → (setBits w p v).getLsbD b = v.testBit j) ∧
    (∀ b, b < 16 → b ∉ xPositions p → (setBits w p v).getLsbD b = w.getLsbD b) ∧
    (∀ j b, (xPositions p)[j]? = some b → (getBits w p).testBit j = w.getLsbD b) ∧
    getBits w p < 2 ^ (xPositions p).length

/-- R97: the four invariants of the pattern engine. -/
def Obligations.PatternEngineInvariants : Prop :=
  ∀ p : Pattern, p.valid = true →
    fits (create p) p = true ∧
    (∀ (w : Halfword) (v : Nat), (∀ b, b < 16 → p[b]? ≠ some .any → (setBits w p v).getLsbD b = w.getLsbD b) ∧
      getBits (setBits w p v) p = v % 2 ^ p.freeDigits) ∧
    ∀ v : Nat, fits (setBits (create p) p v) p = true

/-! ## Operands -/

/-- R107, R108: the value of each kind of immediate field, and the registers of a list in ascending order. -/
def Obligations.ImmediatesAndRegisterLists : Prop :=
  (∀ v : BitVec 5, rightShiftAmount v = (if v.toNat = 0 then 32 else v.toNat) ∧ (immPlain v).toNat = v.toNat ∧
    (immTimes2 v).toNat = 2 * v.toNat ∧ (immTimes4 v).toNat = 4 * v.toNat) ∧
  (∀ v : BitVec 8, (immPlain v).toNat = v.toNat ∧ (immTimes4 v).toNat = 4 * v.toNat ∧
    (branchOffset v).toInt = 2 * v.toInt) ∧
  (∀ v : BitVec 7, (immTimes4 v).toNat = 4 * v.toNat) ∧
  (∀ v : BitVec 11, (branchOffset v).toInt = 2 * v.toInt) ∧
  (∀ s imm10 j1 j2 imm11, (blOffset s imm10 j1 j2 imm11).toInt =
    2 * (s ++ ~~~(j1 ^^^ s) ++ ~~~(j2 ^^^ s) ++ imm10 ++ imm11).toInt) ∧
  (∀ list : BitVec 8, (lowList list).map low = registersOf (lowSet list) ∧
    (lowList list).Pairwise (fun a b => a < b) ∧ ∀ r, r ∈ lowList list ↔ list.getLsbD r.val = true) ∧
  ∀ (m : Bool) (list : BitVec 8), pushList m list = registersOf (pushSet m list)

/-! ## The sequencer -/

/-- R100: where the bytes at PC are those of a well-formed instruction that the sentinel does not shadow, a step executes
it with PC moved past it; outside a `run` the run state is then `Halted`, unless the instruction raised a fault (R333). -/
def Obligations.AStepRunsTheInstructionAtPc : Prop :=
  ∀ (s : State) (i : Instr), s.run ≠ .faulted → (s.run = .running → s.haltReq = false) → s.pc.getLsbD 0 = false →
    i.wellFormed = true → InstructionAt s s.pc i → encodeFirst i ≠ s.endOfCode →
    ∃ t, exec i (s.setReg pcReg (s.pc + byteLength i)) = .next t ∧
      step s = .next (if s.run = .running ∨ t.run = .faulted then t else { t with run := .halted })

/-- R101: the sentinel as a first halfword ends the program before PC advances, and a further step finds it again; as the
second halfword of an instruction it is no sentinel, and only where it stands at PC does a step complete the program; its
default is `0xFFFF`, the first halfword of no instruction. -/
def Obligations.TheSentinelEndsTheProgram : Prop :=
  Config.endOfCodeDefault = 0xFFFF ∧ State.reset.endOfCode = Config.endOfCodeDefault ∧
  (∀ i : Instr, i.wellFormed = true → encodeFirst i ≠ Config.endOfCodeDefault) ∧
  ∀ s : State, s.pc.getLsbD 0 = false →
    (HalfwordAt s s.pc s.endOfCode → s.run ≠ .faulted → (s.run = .running → s.haltReq = false) →
      ∃ t, step s = .next t ∧ t = { s with completed := true, run := .halted } ∧ step t = .next t) ∧
    (∀ hw1, HalfwordAt s s.pc hw1 → hw1 ≠ s.endOfCode → isLong hw1 = true → HalfwordAt s (s.pc + 2) s.endOfCode →
      instructionCycle s = dispatch (s.setReg pcReg (s.pc + 4)) s.pc hw1 s.endOfCode) ∧
    (∀ t, step s = .next t → s.completed = false → t.completed = true → HalfwordAt s s.pc s.endOfCode)

/-- R333: the `step` transaction and what it returns, in every run state. -/
def Obligations.TheStepTransaction : Prop :=
  ∀ s : State,
    (s.run = .idle ∨ s.run = .halted →
      (atSentinel s = true →
        transact .step s = some { s with completed := true, run := .halted } ∧ stepReply s = false) ∧
      (atSentinel s = false → ∃ t, instructionCycle s = .next t ∧
        (t.run = .faulted → transact .step s = some t ∧ stepReply s = false) ∧
        (t.run ≠ .faulted → transact .step s = some { t with run := .halted } ∧ stepReply s = true))) ∧
    (s.run = .faulted → transact .step s = some s ∧ stepReply s = false)

/-- R334, R335: `run` starts the loop, `halt` asks it to stop, and the loop stops between two cycles with everything as
the last instruction left it; `step` or `run` goes on from there. That `run` is split into its start and its turns is the
model's choice (assumption log 9). -/
def Obligations.HaltIsAcceptedBetweenCycles : Prop :=
  ∀ s : State,
    (s.run = .idle ∨ s.run = .halted → transact .run s = some { s with run := .running, haltReq := false }) ∧
    (s.run = .running → transact .halt s = some { s with haltReq := true }) ∧
    (s.run ≠ .running → transact .halt s = some s) ∧
    (s.run = .running → s.haltReq = true → transact .turn s = some { s with haltReq := false, run := .halted }) ∧
    (s.run = .running → s.haltReq = false → step s = instructionCycle s) ∧
    (s.run = .halted → ∃ t, instructionCycle s = .next t ∧
      step s = .next (if t.run = .faulted then t else { t with run := .halted }))

/-- R306, R307: in state `Faulted` `step`, `run` and `halt` do nothing, and only `reset`, or a `load`, which resets,
leaves it and clears the record. -/
def Obligations.OnlyResetLeavesFaulted : Prop :=
  ∀ s : State, s.run = .faulted →
    step s = .next s ∧ transact .step s = some s ∧ stepReply s = false ∧ transact .run s = some s ∧
    transact .halt s = some s ∧
    ∀ (tr : Transaction) (t : State), transact tr s = some t →
      (t.run = .faulted ∧ t.fault = s.fault) ∨
      ((tr = .reset ∨ ∃ image entry, tr = .load image entry) ∧ t.run = .idle ∧ t.fault = none)

/-- The model's choice (assumption log 5), after R11 and R305: every instruction and every step ends in a next state. -/
def Obligations.EveryInstructionAndStepHasANextState : Prop :=
  (∀ (i : Instr) (s : State), ∃ t, exec i s = .next t) ∧ ∀ s : State, ∃ t, step s = .next t

/-- R302: with PC even neither halfword's fetch can fault. -/
def Obligations.FetchingNeverFaults : Prop :=
  ∀ (s : State) (ia : Word), ia.getLsbD 0 = false →
    ∃ hw1 hw2, s.fetch16 ia = .ok hw1 ∧ s.fetch16 (ia + 2) = .ok hw2 ∧ HalfwordAt s ia hw1 ∧ HalfwordAt s (ia + 2) hw2

/-! ## Reset, load and the invariant -/

/-- R331, R40, R85: what `reset` leaves, in any state; a later pair of the image wins. R332: `load`, outside a `run`, stores
the image and the entry and then performs `reset`. -/
def Obligations.ResetAndLoadLeaveTheTabulatedState : Prop :=
  ∀ s : State,
    (∀ (image : List (Word × Byte)) (entry : Word), s.run ≠ .running →
      transact (.load image entry) s = transact .reset { s with image := image, entry := entry }) ∧
    ∃ t, transact .reset s = some t ∧
    (∀ r, r ≠ pcReg → t.reg r = 0) ∧ t.pc = s.entry ∧ t.flags = ⟨false, false, false, false⟩ ∧ t.flags.apsr = 0 ∧
    (∀ a : Word, t.mem.read a.toNat =
      match s.image.reverse.find? fun c => c.1 == a with
      | some c => c.2
      | none => 0) ∧
    t.devices = s.devices.map (fun d => { d with state := d.desc.resetState }) ∧
    t.run = .idle ∧ t.haltReq = false ∧ t.completed = false ∧ t.fault = none ∧
    t.image = s.image ∧ t.entry = s.entry ∧ t.endOfCode = s.endOfCode

/-- The invariant holds right after reset. -/
def Obligations.ResetMeetsTheInvariant : Prop := MachineInv State.reset

/-- Every step keeps the invariant: memory and the devices' byte stores in canonical form, PC even (R26), the fault record
set exactly in state `Faulted` (R300, R305), the parameters sound (R4, R61, R77). -/
def Obligations.EveryStepKeepsTheInvariant : Prop :=
  ∀ s t : State, MachineInv s → step s = .next t → MachineInv t

/-- Every transaction of the host, under the preconditions that R332 makes hypotheses, keeps the invariant. -/
def Obligations.EveryTransactionKeepsTheInvariant : Prop :=
  ∀ (tr : Transaction) (s t : State), MachineInv s → tr.allowed s → transact tr s = some t → MachineInv t

/-! ## Rules over all instructions -/

/-- R305, R11: an instruction leaves the sequencer as it was, or the entry of one fault is all that is known: the record
with the instruction's address, and the run stopped; the image, the parameters and the requests are as before. A `step`
then returns false, and a `run` in progress has stopped. -/
def Obligations.FaultEntryRecordsTheInstruction : Prop :=
  (∀ (i : Instr) (s t : State) (ia : Word), s.pc = ia + byteLength i → exec i s = .next t →
    ControlKept s t ∨ ∃ f, FaultedWith s t f ia) ∧
  ∀ (s t : State), instructionCycle s = .next t → t.run = .faulted → s.run ≠ .faulted →
    (∃ f, FaultedWith s t f s.pc) ∧ (s.run ≠ .running → step s = .next t ∧ stepReply s = false) ∧
    (s.run = .running → s.haltReq = false → step s = .next t)

/-- R28: no other instruction changes PC; R26: those that do keep bit 0 clear. -/
def Obligations.OnlyTheListedInstructionsWritePc : Prop :=
  ∀ (i : Instr) (s t : State), s.run ≠ .faulted → exec i s = .next t → t.run ≠ .faulted →
    (writesPc i = false → t.pc = s.pc) ∧
    (∀ cond imm8, i = .bcond cond imm8 → ¬ CondHolds cond s.flags → t.pc = s.pc) ∧
    (s.pc.getLsbD 0 = false → t.pc.getLsbD 0 = false)

/-- R21, R23, and the destination fields of the rules: a register that is no destination of the instruction keeps its
value; LR among them, but for `BL`, `BLX` and the two high-register forms. -/
def Obligations.RegistersOutsideTheDestinationsAreKept : Prop :=
  ∀ (i : Instr) (s t : State) (r : Reg), s.run ≠ .faulted → exec i s = .next t → t.run ≠ .faulted →
    r ≠ pcReg → r ∉ destinations i → t.reg r = s.reg r

/-- R31, R13: the flags outside an instruction's row of the table keep their value. -/
def Obligations.FlagsOutsideTheClassAreKept : Prop :=
  ∀ (i : Instr) (s t : State), s.run ≠ .faulted → exec i s = .next t → t.run ≠ .faulted →
    FlagsOutsideKept (flagClass i) s.flags t.flags

/-- R75, R69: an instruction that makes no data store leaves every byte, in memory and in the devices, as it was. -/
def Obligations.OnlyStoresChangeMemory : Prop :=
  ∀ (i : Instr) (s t : State), s.run ≠ .faulted → storesMemory i = false → exec i s = .next t → t.run ≠ .faulted →
    MemoryKept s t

/-! ## Memory and the bus -/

/-- R62, R63, R65: a byte read goes to the first responsible device of the list, or to the fall-through memory. -/
def Obligations.AByteReadGoesToTheFirstDevice : Prop :=
  ∀ (s : State) (a : Word),
    (Unowned s a → s.busReadByte a = s.mem.read a.toNat) ∧
    ∀ before d after, OwnedBy s a before d after → s.busReadByte a = d.read a

/-- R67: a byte write is refused by a read-only device, is the owner's own write otherwise, and reaches the fall-through
memory only where no device owns the address. The default device (R66) is a byte store and never reports an error; whether a
custom device does is a parameter (assumption log 6), so both answers are in the statement. -/
def Obligations.AByteWriteGoesToTheFirstDevice : Prop :=
  ∀ (s : State) (a : Word) (b : Byte),
    (Unowned s a → s.mem.wf → ∃ t, s.busWriteByte a b = .ok t ∧ t = { s with mem := t.mem } ∧
      ∀ x, t.mem.read x = if x = a.toNat then b else s.mem.read x) ∧
    ∀ before d after, OwnedBy s a before d after →
      (d.desc.isReadOnly = true → s.busWriteByte a b = .error (.readOnlyWrite a)) ∧
      (d.desc.isReadOnly = false → d.write a b = none → s.busWriteByte a b = .error (.deviceError a)) ∧
      (∀ st, d.desc.isReadOnly = false → d.write a b = some st →
        s.busWriteByte a b = .ok { s with devices := before ++ { d with state := st } :: after }) ∧
      (d.desc.behaviour = .byteStore → d.state.bytes.wf → d.read a = d.state.bytes.read a.toNat ∧
        ∃ st, d.write a b = some st ∧ st.extra = d.state.extra ∧
          ∀ x, st.bytes.read x = if x = a.toNat then b else d.state.bytes.read x)

/-- R71: an access whose last byte would pass `0xFFFFFFFF` raises `AddressRange`; no other access does. R72: a read gives
the little-endian number of its bytes, each dispatched on its own. -/
def Obligations.ReadsAreLittleEndianWithinTheAddressSpace : Prop :=
  ∀ (s : State) (a : Word) (w : Width) (v : Word),
    (0xFFFFFFFF < a.toNat + w.bytes - 1 →
      s.memRead a w = .error (.addressRange a) ∧ s.memWrite a w v = .error (.addressRange a)) ∧
    (a.toNat + w.bytes - 1 ≤ 0xFFFFFFFF →
      (∃ r, s.memRead a w = .ok r ∧ r.toNat = bytesAt s a w.bytes) ∧
      ∀ x, s.memWrite a w v ≠ .error (.addressRange x))

/-- R73: a write is its bytes in ascending order, the low byte first, and stops at the first that is refused. -/
def Obligations.WritesAreByteWritesInAscendingOrder : Prop :=
  ∀ (s : State) (a v : Word),
    s.memWrite a .byte v = s.busWriteByte a (wordByte v 0) ∧
    (a.toNat + 1 ≤ 0xFFFFFFFF → s.memWrite a .half v =
      (s.busWriteByte a (wordByte v 0)).bind fun t => t.busWriteByte (a + 1) (wordByte v 1)) ∧
    (a.toNat + 3 ≤ 0xFFFFFFFF → s.memWrite a .word v =
      (s.busWriteByte a (wordByte v 0)).bind fun t => (t.busWriteByte (a + 1) (wordByte v 1)).bind fun u =>
        (u.busWriteByte (a + 2) (wordByte v 2)).bind fun w => w.busWriteByte (a + 3) (wordByte v 3))

/-- R53, R52: a value written with one width and read with another gives exactly its bytes; the round trip at one width
gives the value's low bytes. -/
def Obligations.MixedWidthsSeeTheSameBytes : Prop :=
  ∀ (s : State) (a : Word) (w : Width) (v : Word), MachineInv s → CanStore s a w →
    ∃ t, s.memWrite a w v = .ok t ∧ Stored s t a w.bytes v ∧
      (∀ i, i < w.bytes → t.memRead (a + BitVec.ofNat 32 i) .byte = .ok ((wordByte v i).setWidth 32)) ∧
      (∀ i, i + 1 < w.bytes →
        t.memRead (a + BitVec.ofNat 32 i) .half = .ok ((wordByte v (i + 1) ++ wordByte v i).setWidth 32)) ∧
      t.memRead a w = .ok (BitVec.ofNat 32 (v.toNat % 2 ^ (8 * w.bytes)))

/-! ## The ALU -/

/-- R131: the result, the carry and the overflow of `AddWithCarry`, with the rule's two equivalent forms. -/
def Obligations.AddWithCarryIsTheUnboundedSum : Prop :=
  ∀ (x y : Word) (cin : Bool),
    let r := (addWithCarry x y cin).result
    let c := (addWithCarry x y cin).flags.c
    let v := (addWithCarry x y cin).flags.v
    r.toNat = (x.toNat + y.toNat + cin.toNat) % 2 ^ 32 ∧
    (c = true ↔ 2 ^ 32 ≤ x.toNat + y.toNat + cin.toNat) ∧
    (c = true ↔ r.toNat ≠ x.toNat + y.toNat + cin.toNat) ∧
    (v = true ↔ r.toInt ≠ x.toInt + y.toInt + cin.toNat) ∧
    (v = true ↔ x.getLsbD 31 = y.getLsbD 31 ∧ r.getLsbD 31 ≠ x.getLsbD 31)

/-- R137 to R140: the tables of the four shift functions. -/
def Obligations.ShiftFunctionsFollowTheirTables : Prop :=
  ∀ (x : Word) (n : Nat),
    LslTable x n (lslC x n).result (lslC x n).carry ∧ LsrTable x n (lsrC x n).result (lsrC x n).carry ∧
    AsrTable x n (asrC x n).result (asrC x n).carry ∧ RorTable x n (rorC x n).result (rorC x n).carry

/-- R145: the condition table by the field's value, `UDF` and `SVC` in the places of 1110 and 1111, and what the
conditions say after a comparison of `a` with `b`. -/
def Obligations.ConditionsFollowTheTable : Prop :=
  (∀ (cond : Cond) (f : Flags), conditionPassed cond f = true ↔ CondHolds cond f) ∧
  (∀ (imm8 : BitVec 8) (hw2 : Halfword),
    (∀ cond : Cond, decode (0b1101#4 ++ cond.code ++ imm8) hw2 = .ok (.bcond cond imm8)) ∧
    decode (0b1101#4 ++ 0b1110#4 ++ imm8) hw2 = .ok (.udf imm8) ∧
    decode (0b1101#4 ++ 0b1111#4 ++ imm8) hw2 = .ok (.svc imm8)) ∧
  (Cond.eq.code = 0 ∧ Cond.ne.code = 1 ∧ Cond.cs.code = 2 ∧ Cond.cc.code = 3 ∧ Cond.mi.code = 4 ∧ Cond.pl.code = 5 ∧
    Cond.vs.code = 6 ∧ Cond.vc.code = 7 ∧ Cond.hi.code = 8 ∧ Cond.ls.code = 9 ∧ Cond.ge.code = 10 ∧
    Cond.lt.code = 11 ∧ Cond.gt.code = 12 ∧ Cond.le.code = 13) ∧
  ∀ (a b : Word), let f := (aluSub a b).flags
    (conditionPassed .eq f = true ↔ a = b) ∧
    (conditionPassed .cs f = true ↔ b.toNat ≤ a.toNat) ∧ (conditionPassed .cc f = true ↔ a.toNat < b.toNat) ∧
    (conditionPassed .hi f = true ↔ b.toNat < a.toNat) ∧ (conditionPassed .ls f = true ↔ a.toNat ≤ b.toNat) ∧
    (conditionPassed .ge f = true ↔ b.toInt ≤ a.toInt) ∧ (conditionPassed .lt f = true ↔ a.toInt < b.toInt) ∧
    (conditionPassed .gt f = true ↔ b.toInt < a.toInt) ∧ (conditionPassed .le f = true ↔ a.toInt ≤ b.toInt)

/-! ## What each instruction does -/

/-- R164, R166, R170, R185, R133, R135: the additions complete in every state, write the sum and all four flags, and
leave the rest. -/
def Obligations.AdditionsWriteTheSumAndAllFlags : Prop :=
  ∀ s : State,
    (∀ rd rn rm, Ends (exec (.addsReg rd rn rm) s) fun t =>
      SumOf (s.reg (low rn)) (s.reg (low rm)) false (t.reg (low rd)) t.flags ∧ Frame s t [low rd]) ∧
    (∀ rd rn imm3, Ends (exec (.addsImm3 rd rn imm3) s) fun t =>
      SumOf (s.reg (low rn)) (imm3.setWidth 32) false (t.reg (low rd)) t.flags ∧ Frame s t [low rd]) ∧
    (∀ rdn imm8, Ends (exec (.addsImm8 rdn imm8) s) fun t =>
      SumOf (s.reg (low rdn)) (imm8.setWidth 32) false (t.reg (low rdn)) t.flags ∧ Frame s t [low rdn]) ∧
    (∀ rdn rm, Ends (exec (.adcs rdn rm) s) fun t =>
      SumOf (s.reg (low rdn)) (s.reg (low rm)) s.flags.c (t.reg (low rdn)) t.flags ∧ Frame s t [low rdn])

/-- R165, R167, R171, R186, R189, R134, R135: the subtractions complete in every state, write the difference and all four
flags, C meaning no borrow, and leave the rest. -/
def Obligations.SubtractionsWriteTheDifferenceAndAllFlags : Prop :=
  ∀ s : State,
    (∀ rd rn rm, Ends (exec (.subsReg rd rn rm) s) fun t =>
      DifferenceOf (s.reg (low rn)) (s.reg (low rm)) false (t.reg (low rd)) t.flags ∧ Frame s t [low rd]) ∧
    (∀ rd rn imm3, Ends (exec (.subsImm3 rd rn imm3) s) fun t =>
      DifferenceOf (s.reg (low rn)) (imm3.setWidth 32) false (t.reg (low rd)) t.flags ∧ Frame s t [low rd]) ∧
    (∀ rdn imm8, Ends (exec (.subsImm8 rdn imm8) s) fun t =>
      DifferenceOf (s.reg (low rdn)) (imm8.setWidth 32) false (t.reg (low rdn)) t.flags ∧ Frame s t [low rdn]) ∧
    (∀ rdn rm, Ends (exec (.sbcs rdn rm) s) fun t =>
      DifferenceOf (s.reg (low rdn)) (s.reg (low rm)) (!s.flags.c) (t.reg (low rdn)) t.flags ∧ Frame s t [low rdn]) ∧
    (∀ rd rn, Ends (exec (.rsbs rd rn) s) fun t =>
      DifferenceOf 0 (s.reg (low rn)) false (t.reg (low rd)) t.flags ∧ Frame s t [low rd])

/-- R169, R190, R191, R201, R188: the compares and the test complete, write the flags of a result they discard, and leave
the rest; the high-register compare is this one for the operands R115 does not list. -/
def Obligations.ComparesWriteTheFlagsOnly : Prop :=
  ∀ s : State,
    (∀ rn imm8, Ends (exec (.cmpImm rn imm8) s) fun t =>
      (∃ r, DifferenceOf (s.reg (low rn)) (imm8.setWidth 32) false r t.flags) ∧ Frame s t []) ∧
    (∀ rn rm, Ends (exec (.cmpReg rn rm) s) fun t =>
      (∃ r, DifferenceOf (s.reg (low rn)) (s.reg (low rm)) false r t.flags) ∧ Frame s t []) ∧
    (∀ rn rm, Ends (exec (.cmn rn rm) s) fun t =>
      (∃ r, SumOf (s.reg (low rn)) (s.reg (low rm)) false r t.flags) ∧ Frame s t []) ∧
    (∀ rn rm : Reg, 8 ≤ rn.val ∨ 8 ≤ rm.val → rn ≠ 15 → rm ≠ 15 → Ends (exec (.cmpHi rn rm) s) fun t =>
      (∃ r, DifferenceOf (s.reg rn) (s.reg rm) false r t.flags) ∧ Frame s t []) ∧
    (∀ rn rm, Ends (exec (.tst rn rm) s) fun t =>
      KeepsCV (s.reg (low rn) &&& s.reg (low rm)) s.flags t.flags ∧ Frame s t [])

/-- R180, R181, R192, R194, R195, R161, R168, R193, R136, R143: the logical operations, the moves and the multiply
complete in every state, write the result, N and Z, and leave C, V and the rest. -/
def Obligations.LogicMovesAndMultiplyKeepCarryAndOverflow : Prop :=
  ∀ s : State,
    (∀ rdn rm, Ends (exec (.ands rdn rm) s) fun t => t.reg (low rdn) = s.reg (low rdn) &&& s.reg (low rm) ∧
      KeepsCV (t.reg (low rdn)) s.flags t.flags ∧ Frame s t [low rdn]) ∧
    (∀ rdn rm, Ends (exec (.eors rdn rm) s) fun t => t.reg (low rdn) = s.reg (low rdn) ^^^ s.reg (low rm) ∧
      KeepsCV (t.reg (low rdn)) s.flags t.flags ∧ Frame s t [low rdn]) ∧
    (∀ rdn rm, Ends (exec (.orrs rdn rm) s) fun t => t.reg (low rdn) = s.reg (low rdn) ||| s.reg (low rm) ∧
      KeepsCV (t.reg (low rdn)) s.flags t.flags ∧ Frame s t [low rdn]) ∧
    (∀ rdn rm, Ends (exec (.bics rdn rm) s) fun t => t.reg (low rdn) = s.reg (low rdn) &&& ~~~(s.reg (low rm)) ∧
      KeepsCV (t.reg (low rdn)) s.flags t.flags ∧ Frame s t [low rdn]) ∧
    (∀ rd rm, Ends (exec (.mvns rd rm) s) fun t => t.reg (low rd) = ~~~(s.reg (low rm)) ∧
      KeepsCV (t.reg (low rd)) s.flags t.flags ∧ Frame s t [low rd]) ∧
    (∀ rd rm, Ends (exec (.movsReg rd rm) s) fun t => t.reg (low rd) = s.reg (low rm) ∧
      KeepsCV (t.reg (low rd)) s.flags t.flags ∧ Frame s t [low rd]) ∧
    (∀ rd imm8, Ends (exec (.movsImm rd imm8) s) fun t => t.reg (low rd) = imm8.setWidth 32 ∧
      KeepsCV (t.reg (low rd)) s.flags t.flags ∧ Frame s t [low rd]) ∧
    (∀ rdm rn, Ends (exec (.muls rdm rn) s) fun t =>
      (t.reg (low rdm)).toNat = ((s.reg (low rn)).toNat * (s.reg (low rdm)).toNat) % 2 ^ 32 ∧
      KeepsCV (t.reg (low rdm)) s.flags t.flags ∧ Frame s t [low rdm])

/-- R160, R162, R163, R141: the immediate shifts complete in every state; the field value 0 is no shift for `LSLS` and a
shift by 32 for `LSRS` and `ASRS`. -/
def Obligations.ImmediateShiftsFollowTheTables : Prop :=
  ∀ (s : State) (rd rm : LowReg) (imm5 : BitVec 5),
    let n := if imm5.toNat = 0 then 32 else imm5.toNat
    (Ends (exec (.lslsImm rd rm imm5) s) fun t =>
      Shifted LslTable (s.reg (low rm)) imm5.toNat s.flags (t.reg (low rd)) t.flags ∧ Frame s t [low rd]) ∧
    (Ends (exec (.lsrsImm rd rm imm5) s) fun t =>
      Shifted LsrTable (s.reg (low rm)) n s.flags (t.reg (low rd)) t.flags ∧ Frame s t [low rd]) ∧
    (Ends (exec (.asrsImm rd rm imm5) s) fun t =>
      Shifted AsrTable (s.reg (low rm)) n s.flags (t.reg (low rd)) t.flags ∧ Frame s t [low rd])

/-- R182, R183, R184, R187, R142: the register shifts complete in every state, by the low byte of the amount register;
amount 0 passes the value through with C unchanged. -/
def Obligations.RegisterShiftsFollowTheTables : Prop :=
  ∀ (s : State) (rdn rm : LowReg),
    let n := (s.reg (low rm)).toNat % 256
    (Ends (exec (.lslsReg rdn rm) s) fun t =>
      Shifted LslTable (s.reg (low rdn)) n s.flags (t.reg (low rdn)) t.flags ∧ Frame s t [low rdn]) ∧
    (Ends (exec (.lsrsReg rdn rm) s) fun t =>
      Shifted LsrTable (s.reg (low rdn)) n s.flags (t.reg (low rdn)) t.flags ∧ Frame s t [low rdn]) ∧
    (Ends (exec (.asrsReg rdn rm) s) fun t =>
      Shifted AsrTable (s.reg (low rdn)) n s.flags (t.reg (low rdn)) t.flags ∧ Frame s t [low rdn]) ∧
    (Ends (exec (.rors rdn rm) s) fun t =>
      Shifted RorTable (s.reg (low rdn)) n s.flags (t.reg (low rdn)) t.flags ∧ Frame s t [low rdn])

/-- R200, R202, R206, R25: `ADD` and `MOV` of any registers touch no flag; PC reads as `ia + 4`, and a result in PC is a
branch with bit 0 cleared; `ADD PC, PC` is shut out here and is R115's. -/
def Obligations.HighRegisterAddAndMove : Prop :=
  ∀ (s : State) (ia : Word), s.pc = ia + 2 →
    (∀ rdn rm : Reg, ¬ (rdn = 15 ∧ rm = 15) → Ends (exec (.addHi rdn rm) s) fun t =>
      t.reg rdn = (if rdn = 15 then (operandAt s ia rdn + operandAt s ia rm) &&& 0xFFFFFFFE
        else operandAt s ia rdn + operandAt s ia rm) ∧ FrameKeepingFlags s t [rdn]) ∧
    (∀ rd rm : Reg, Ends (exec (.movHi rd rm) s) fun t =>
      t.reg rd = (if rd = 15 then operandAt s ia rm &&& 0xFFFFFFFE else operandAt s ia rm) ∧
      FrameKeepingFlags s t [rd])

/-- R203, R204, R205: `BX` and `BLX` branch to a target with bit 0 set, `BLX` writing the return address with bit 0 set;
a target with bit 0 clear raises `Interwork`; `BLX PC` is R115's. -/
def Obligations.BranchExchange : Prop :=
  ∀ (s : State) (ia : Word) (rm : Reg), s.pc = ia + 2 →
    ((operandAt s ia rm).getLsbD 0 = true → Ends (exec (.bx rm) s) fun t =>
      t.pc = operandAt s ia rm &&& 0xFFFFFFFE ∧ FrameKeepingFlags s t [pcReg]) ∧
    ((operandAt s ia rm).getLsbD 0 = false → Raises s (exec (.bx rm) s) (.interwork (operandAt s ia rm)) ia) ∧
    (rm ≠ 15 → (s.reg rm).getLsbD 0 = true → Ends (exec (.blx rm) s) fun t =>
      t.pc = s.reg rm &&& 0xFFFFFFFE ∧ t.reg 14 = (ia + 2) ||| 1 ∧ FrameKeepingFlags s t [14, pcReg]) ∧
    (rm ≠ 15 → (s.reg rm).getLsbD 0 = false → Raises s (exec (.blx rm) s) (.interwork (s.reg rm)) ia)

/-- R211 to R227, R210, R74: every load reads at its address, whatever its alignment, and writes its register only; where
the access passes the top of the address space it raises `AddressRange`. -/
def Obligations.LoadsReadTheirAddress : Prop :=
  ∀ (s : State) (ia : Word), s.pc = ia + 2 →
    (∀ rt imm8, let a := ((ia + 4) &&& 0xFFFFFFFC) + BitVec.ofNat 32 (4 * imm8.toNat)
      Loads (.ldrLit rt imm8) s ia (low rt) a .word (wordAt s a)) ∧
    (∀ rt rn rm, let a := s.reg (low rn) + s.reg (low rm)
      Loads (.ldrReg rt rn rm) s ia (low rt) a .word (wordAt s a) ∧
      Loads (.ldrhReg rt rn rm) s ia (low rt) a .half ((halfAt s a).setWidth 32) ∧
      Loads (.ldrbReg rt rn rm) s ia (low rt) a .byte ((s.busReadByte a).setWidth 32) ∧
      Loads (.ldrshReg rt rn rm) s ia (low rt) a .half ((halfAt s a).signExtend 32) ∧
      Loads (.ldrsbReg rt rn rm) s ia (low rt) a .byte ((s.busReadByte a).signExtend 32)) ∧
    (∀ rt rn imm5, let a := s.reg (low rn) + BitVec.ofNat 32 (4 * imm5.toNat)
      Loads (.ldrImm rt rn imm5) s ia (low rt) a .word (wordAt s a)) ∧
    (∀ rt rn imm5, let a := s.reg (low rn) + BitVec.ofNat 32 (2 * imm5.toNat)
      Loads (.ldrhImm rt rn imm5) s ia (low rt) a .half ((halfAt s a).setWidth 32)) ∧
    (∀ rt rn imm5, let a := s.reg (low rn) + BitVec.ofNat 32 imm5.toNat
      Loads (.ldrbImm rt rn imm5) s ia (low rt) a .byte ((s.busReadByte a).setWidth 32)) ∧
    (∀ rt imm8, let a := s.reg 13 + BitVec.ofNat 32 (4 * imm8.toNat)
      Loads (.ldrSp rt imm8) s ia (low rt) a .word (wordAt s a))

/-- R212 to R226, R210, R74: every store writes the low bytes of its register at its address, whatever its alignment, and
nothing else; where the access or one of its bytes is refused, that fault is raised. -/
def Obligations.StoresWriteTheirAddress : Prop :=
  ∀ (s : State) (ia : Word), s.pc = ia + 2 →
    (∀ rt rn rm, let a := s.reg (low rn) + s.reg (low rm)
      Stores (.strReg rt rn rm) s ia a .word (s.reg (low rt)) ∧
      Stores (.strhReg rt rn rm) s ia a .half (s.reg (low rt)) ∧
      Stores (.strbReg rt rn rm) s ia a .byte (s.reg (low rt))) ∧
    (∀ rt rn imm5, let a := s.reg (low rn) + BitVec.ofNat 32 (4 * imm5.toNat)
      Stores (.strImm rt rn imm5) s ia a .word (s.reg (low rt))) ∧
    (∀ rt rn imm5, let a := s.reg (low rn) + BitVec.ofNat 32 (2 * imm5.toNat)
      Stores (.strhImm rt rn imm5) s ia a .half (s.reg (low rt))) ∧
    (∀ rt rn imm5, let a := s.reg (low rn) + BitVec.ofNat 32 imm5.toNat
      Stores (.strbImm rt rn imm5) s ia a .byte (s.reg (low rt))) ∧
    (∀ rt imm8, let a := s.reg 13 + BitVec.ofNat 32 (4 * imm8.toNat)
      Stores (.strSp rt imm8) s ia a .word (s.reg (low rt)))

/-- R240 to R243: address generation and stack-pointer adjustment complete in every state, touch no flag, and wrap. -/
def Obligations.AddressGenerationAndStackAdjustment : Prop :=
  ∀ (s : State) (ia : Word), s.pc = ia + 2 →
    (∀ rd imm8, Ends (exec (.adr rd imm8) s) fun t =>
      t.reg (low rd) = ((ia + 4) &&& 0xFFFFFFFC) + BitVec.ofNat 32 (4 * imm8.toNat) ∧
      FrameKeepingFlags s t [low rd]) ∧
    (∀ rd imm8, Ends (exec (.addRdSp rd imm8) s) fun t =>
      t.reg (low rd) = s.reg 13 + BitVec.ofNat 32 (4 * imm8.toNat) ∧ FrameKeepingFlags s t [low rd]) ∧
    (∀ imm7, Ends (exec (.addSp imm7) s) fun t =>
      t.reg 13 = s.reg 13 + BitVec.ofNat 32 (4 * imm7.toNat) ∧ FrameKeepingFlags s t [13]) ∧
    (∀ imm7, Ends (exec (.subSp imm7) s) fun t =>
      t.reg 13 = s.reg 13 - BitVec.ofNat 32 (4 * imm7.toNat) ∧ FrameKeepingFlags s t [13])

/-- R244 to R251, R147: extension, byte reversal and `NOP` complete in every state and touch no flag; bytes are numbered
from the least significant. -/
def Obligations.ExtensionReversalAndNop : Prop :=
  ∀ s : State,
    (∀ rd rm, Ends (exec (.sxth rd rm) s) fun t =>
      (t.reg (low rd)).toInt = ((s.reg (low rm)).extractLsb' 0 16).toInt ∧ FrameKeepingFlags s t [low rd]) ∧
    (∀ rd rm, Ends (exec (.sxtb rd rm) s) fun t =>
      (t.reg (low rd)).toInt = ((s.reg (low rm)).extractLsb' 0 8).toInt ∧ FrameKeepingFlags s t [low rd]) ∧
    (∀ rd rm, Ends (exec (.uxth rd rm) s) fun t =>
      (t.reg (low rd)).toNat = (s.reg (low rm)).toNat % 2 ^ 16 ∧ FrameKeepingFlags s t [low rd]) ∧
    (∀ rd rm, Ends (exec (.uxtb rd rm) s) fun t =>
      (t.reg (low rd)).toNat = (s.reg (low rm)).toNat % 2 ^ 8 ∧ FrameKeepingFlags s t [low rd]) ∧
    (∀ rd rm, Ends (exec (.rev rd rm) s) fun t =>
      (∀ i, i < 4 → wordByte (t.reg (low rd)) i = wordByte (s.reg (low rm)) (3 - i)) ∧
      FrameKeepingFlags s t [low rd]) ∧
    (∀ rd rm, Ends (exec (.rev16 rd rm) s) fun t =>
      (∀ h, h < 2 → wordByte (t.reg (low rd)) (2 * h) = wordByte (s.reg (low rm)) (2 * h + 1) ∧
        wordByte (t.reg (low rd)) (2 * h + 1) = wordByte (s.reg (low rm)) (2 * h)) ∧
      FrameKeepingFlags s t [low rd]) ∧
    (∀ rd rm, Ends (exec (.revsh rd rm) s) fun t =>
      (t.reg (low rd)).toInt = (wordByte (s.reg (low rm)) 0 ++ wordByte (s.reg (low rm)) 1).toInt ∧
      FrameKeepingFlags s t [low rd]) ∧
    exec .nop s = .next s

/-- R260, R264: `PUSH` stores its registers, the lowest at the lowest address, below SP, and leaves SP at the lowest
address; a word store that is refused, the first in address order, raises its fault. -/
def Obligations.PushStoresItsRegistersBelowSp : Prop :=
  ∀ (s : State) (ia : Word) (m : Bool) (list : BitVec 8), s.pc = ia + 2 → m = true ∨ list ≠ 0 →
    let regs := registersOf (pushSet m list)
    let a := s.reg 13 - BitVec.ofNat 32 (4 * regs.length)
    (MachineInv s → CanStoreWords s a regs.length → Ends (exec (.push m list) s) fun t =>
      t.reg 13 = a ∧ StoredWords s t a regs ∧ StoreFrame s t [13]) ∧
    (∀ t, s.storeRegs a regs = .ok t → Ends (exec (.push m list) s) fun u => u = t.setReg 13 a) ∧
    (∀ f, s.storeRegs a regs = .error f → Raises s (exec (.push m list) s) f ia)

/-- R261, R264: `POP` loads its registers from SP upward, PC last by a branch-exchange, and leaves SP above the last word;
a word read that passes the top of the address space raises `AddressRange`, an even PC word `Interwork`. -/
def Obligations.PopLoadsItsRegistersFromSp : Prop :=
  ∀ (s : State) (ia : Word) (p : Bool) (list : BitVec 8), s.pc = ia + 2 → p = true ∨ list ≠ 0 →
    let regs := registersOf (lowSet list)
    let a := s.reg 13
    let target := wordAt s (a + BitVec.ofNat 32 (4 * regs.length))
    (p = false → CanLoadWords a regs.length → Ends (exec (.pop p list) s) fun t =>
      (∀ k r, regs[k]? = some r → t.reg r = wordAt s (a + BitVec.ofNat 32 (4 * k))) ∧
      t.reg 13 = a + BitVec.ofNat 32 (4 * regs.length) ∧ FrameKeepingFlags s t (13 :: regs)) ∧
    (p = true → CanLoadWords a (regs.length + 1) → target.getLsbD 0 = true → Ends (exec (.pop p list) s) fun t =>
      (∀ k r, regs[k]? = some r → t.reg r = wordAt s (a + BitVec.ofNat 32 (4 * k))) ∧
      t.pc = target &&& 0xFFFFFFFE ∧ t.reg 13 = a + BitVec.ofNat 32 (4 * (regs.length + 1)) ∧
      FrameKeepingFlags s t (13 :: pcReg :: regs)) ∧
    (p = true → CanLoadWords a (regs.length + 1) → target.getLsbD 0 = false →
      Raises s (exec (.pop p list) s) (.interwork target) ia) ∧
    (∀ k, k < regs.length + p.toNat → CanLoadWords a k → ¬ CanLoad (a + BitVec.ofNat 32 (4 * k)) .word →
      Raises s (exec (.pop p list) s) (.addressRange (a + BitVec.ofNat 32 (4 * k))) ia)

/-- R262, R264: `STM` stores its registers from the base upward and writes the end address back; the base, if listed, is
stored as it was; a refused word store raises its fault. -/
def Obligations.StmStoresItsRegistersAndWritesBack : Prop :=
  ∀ (s : State) (ia : Word) (rn : LowReg) (list : BitVec 8), s.pc = ia + 2 → ¬ Unpredictable (.stm rn list) →
    let regs := registersOf (lowSet list)
    let a := s.reg (low rn)
    (MachineInv s → CanStoreWords s a regs.length → Ends (exec (.stm rn list) s) fun t =>
      t.reg (low rn) = a + BitVec.ofNat 32 (4 * regs.length) ∧ StoredWords s t a regs ∧ StoreFrame s t [low rn]) ∧
    (∀ t, s.storeRegs a regs = .ok t → Ends (exec (.stm rn list) s) fun u =>
      u = t.setReg (low rn) (a + BitVec.ofNat 32 (4 * regs.length))) ∧
    (∀ f, s.storeRegs a regs = .error f → Raises s (exec (.stm rn list) s) f ia)

/-- R263, R264: `LDM` loads its registers from the base upward and writes the end address back only where the base is not
listed; the addresses come from the original base; a word read past the top of the address space raises. -/
def Obligations.LdmLoadsItsRegisters : Prop :=
  ∀ (s : State) (ia : Word) (rn : LowReg) (list : BitVec 8), s.pc = ia + 2 → list ≠ 0 →
    let regs := registersOf (lowSet list)
    let a := s.reg (low rn)
    (CanLoadWords a regs.length → Ends (exec (.ldm rn list) s) fun t =>
      (∀ k r, regs[k]? = some r → t.reg r = wordAt s (a + BitVec.ofNat 32 (4 * k))) ∧
      (low rn ∉ regs → t.reg (low rn) = a + BitVec.ofNat 32 (4 * regs.length)) ∧
      FrameKeepingFlags s t (low rn :: regs)) ∧
    (∀ k, k < regs.length → CanLoadWords a k → ¬ CanLoad (a + BitVec.ofNat 32 (4 * k)) .word →
      Raises s (exec (.ldm rn list) s) (.addressRange (a + BitVec.ofNat 32 (4 * k))) ia)

/-- R261, the source's stack scenario: `PUSH` then `POP` with the same list, whatever happened to the registers in
between, restores the listed registers and SP, and returns to a pushed LR with bit 0 set. A pushed LR with bit 0 clear
raises `Interwork` instead, which `PopLoadsItsRegistersFromSp` states. -/
def Obligations.PopRestoresWhatPushStored : Prop :=
  ∀ (s : State) (m : Bool) (list : BitVec 8), m = true ∨ list ≠ 0 → MachineInv s → (m = true → (s.reg 14).getLsbD 0 = true) →
    CanStoreWords s (s.reg 13 - BitVec.ofNat 32 (4 * (registersOf (pushSet m list)).length))
      (registersOf (pushSet m list)).length →
    Ends (exec (.push m list) s) fun t =>
      ∀ u : State, u.mem = t.mem → u.devices = t.devices → u.reg 13 = t.reg 13 →
        Ends (exec (.pop m list) u) fun v =>
          (∀ r, r ∈ registersOf (lowSet list) → v.reg r = s.reg r) ∧ v.reg 13 = s.reg 13 ∧
          (m = true → v.pc = s.reg 14 &&& 0xFFFFFFFE) ∧
          FrameKeepingFlags u v (13 :: (if m then [pcReg] else []) ++ registersOf (lowSet list))

/-- R270, R271, R272, R273, R107: the branches complete in every state; the base is `ia + 4` for one and two halfwords
alike; a condition that fails leaves PC at the next instruction; `BL` writes the return address with bit 0 set. -/
def Obligations.BranchesAreRelativeToTheInstruction : Prop :=
  ∀ (s : State) (ia : Word),
    (s.pc = ia + 2 →
      (∀ cond imm8, Ends (exec (.bcond cond imm8) s) fun t =>
        (CondHolds cond s.flags → t.pc = (ia + 4 + BitVec.ofInt 32 (2 * imm8.toInt)) &&& 0xFFFFFFFE) ∧
        (¬ CondHolds cond s.flags → t.pc = ia + 2) ∧ FrameKeepingFlags s t [pcReg]) ∧
      (∀ imm11, Ends (exec (.b imm11) s) fun t =>
        t.pc = (ia + 4 + BitVec.ofInt 32 (2 * imm11.toInt)) &&& 0xFFFFFFFE ∧ FrameKeepingFlags s t [pcReg])) ∧
    (s.pc = ia + 4 →
      ∀ sign imm10 j1 j2 imm11, Ends (exec (.bl sign imm10 j1 j2 imm11) s) fun t =>
        t.pc = (ia + 4 + BitVec.ofInt 32
          (2 * (sign ++ ~~~(j1 ^^^ sign) ++ ~~~(j2 ^^^ sign) ++ imm10 ++ imm11).toInt)) &&& 0xFFFFFFFE ∧
        t.reg 14 = (ia + 4) ||| 1 ∧ FrameKeepingFlags s t [14, pcReg])

/-- R115: the listed operand values raise `Unpredictable` with the first halfword, and no other operand values do. -/
def Obligations.ExactlyTheListedOperandsAreUnpredictable : Prop :=
  ∀ (i : Instr) (s : State) (ia : Word), s.pc = ia + byteLength i →
    (Unpredictable i → Raises s (exec i s) (.unpredictable (encodeFirst i)) ia) ∧
    (¬ Unpredictable i → s.run ≠ .faulted → ∀ t h, exec i s = .next t → t.run = .faulted →
      t.fault ≠ some ⟨.unpredictable h, ia⟩)

/-! ## The host's ports -/

/-- R322, R30, R300, R301: what the host observes: the registers as stored, the flags, APSR with N, Z, C, V in bits 31 to
28 and zeros below, a byte as the bus reads it, and the fault record with its code. -/
def Obligations.TheHostObservesTheState : Prop :=
  ∀ s : State,
    (∀ r, obsReg s (.general r) = s.reg r) ∧
    ((obsReg s .apsr).getLsbD 31 = s.flags.n ∧ (obsReg s .apsr).getLsbD 30 = s.flags.z ∧
      (obsReg s .apsr).getLsbD 29 = s.flags.c ∧ (obsReg s .apsr).getLsbD 28 = s.flags.v ∧
      ∀ b, b < 28 → (obsReg s .apsr).getLsbD b = false) ∧
    (obsFlag s .n = s.flags.n ∧ obsFlag s .z = s.flags.z ∧ obsFlag s .c = s.flags.c ∧ obsFlag s .v = s.flags.v) ∧
    (∀ a, obsByte s a = s.busReadByte a) ∧
    (status s).run = s.run ∧ (status s).completed = s.completed ∧
    (s.fault = none → (status s).fault = none) ∧
    ∀ ia : Word,
      (∀ h, s.fault = some ⟨.undefined h none, ia⟩ → (status s).fault = some (1, [h.toNat], ia)) ∧
      (∀ h h2, s.fault = some ⟨.undefined h (some h2), ia⟩ → (status s).fault = some (1, [h.toNat, h2.toNat], ia)) ∧
      (∀ h, s.fault = some ⟨.unpredictable h, ia⟩ → (status s).fault = some (2, [h.toNat], ia)) ∧
      (∀ v, s.fault = some ⟨.interwork v, ia⟩ → (status s).fault = some (3, [v.toNat], ia)) ∧
      (∀ a, s.fault = some ⟨.addressRange a, ia⟩ → (status s).fault = some (4, [a.toNat], ia)) ∧
      (∀ a, s.fault = some ⟨.readOnlyWrite a, ia⟩ → (status s).fault = some (5, [a.toNat], ia)) ∧
      (∀ a, s.fault = some ⟨.deviceError a, ia⟩ → (status s).fault = some (6, [a.toNat], ia))

/-- R68, R70, R309, R311: `dev_input` changes the state of one volatile device at most and nothing else, an invalid event
changes nothing, and its failure is the reply to the host; `find_device` gives the first responsible device, and where
there is none the fixed message with the address in lowercase hex, leading zeros left open. That an event for a device
that is not volatile, or for no device, fails is the model's choice (assumption log 8). -/
def Obligations.DeviceInputAndRouting : Prop :=
  ∀ (s : State) (i event : Nat),
    (∃ t, transact (.devInput i event) s = some t ∧ t = { s with devices := t.devices } ∧
      descriptors t = descriptors s ∧ (∀ j, j ≠ i → t.devices[j]? = s.devices[j]?) ∧
      (s.devices[i]? = none → t = s ∧ ∃ message, reply (.devInput i event) s = some (.failed message)) ∧
      (∀ d, s.devices[i]? = some d → d.desc.isVolatile = false →
        t = s ∧ ∃ message, reply (.devInput i event) s = some (.failed message)) ∧
      (∀ d, s.devices[i]? = some d → d.desc.isVolatile = true →
        match Config.deviceInput d.desc d.state event with
        | .ok st => t.devices[i]? = some { d with state := st.canonical } ∧ reply (.devInput i event) s = some .done
        | .error message => t = s ∧ reply (.devInput i event) s = some (.failed message))) ∧
    ∀ a : Word,
      (∀ before d after, OwnedBy s a before d after → findDevice s a = .ok d.desc) ∧
      (Unowned s a → ∃ zeros : Nat, findDevice s a = .error
        ("Could not find a device responsible for the address '0x" ++
          String.ofList (List.replicate zeros '0' ++ Nat.toDigits 16 a.toNat) ++ "'."))
end

