-- ==== Sys2Proof/Laws/Memory.lean ====
section
/-! SUPPORT. The laws of byte stores: a byte written is read back, every other byte stays, and every operation that makes
or changes a byte store keeps the canonical form. -/

namespace Sys2Proof

namespace Memory

@[simp] theorem read_nil (a : Nat) : read [] a = 0 := rfl

theorem read_cons (k : Nat) (b : Byte) (m : Memory) (a : Nat) :
    read ((k, b) :: m) a = if k = a then b else read m a := rfl

/-- An address below every listed one reads as zero. -/
theorem read_eq_zero {m : Memory} {a : Nat} (h : ∀ c ∈ m, a < c.1) : read m a = 0 := by
  induction m with
  | nil => rfl
  | cons c m ih =>
    obtain ⟨k, b⟩ := c
    have hk : a < k := h (k, b) (by simp)
    rw [read_cons, if_neg (by omega)]
    exact ih fun c hc => h c (by simp [hc])

theorem mem_write {m : Memory} {a : Nat} {b : Byte} {c : Host.Cell} (h : c ∈ write m a b) :
    c ∈ m ∨ (c = (a, b) ∧ b ≠ 0) := by
  induction m with
  | nil =>
    simp only [write] at h
    split at h
    · simp at h
    · simp at h; exact .inr ⟨h, ‹_›⟩
  | cons d m ih =>
    obtain ⟨k, x⟩ := d
    simp only [write] at h
    split at h
    · split at h
      · exact .inl h
      · rcases List.mem_cons.mp h with h | h
        · exact .inr ⟨h, ‹_›⟩
        · exact .inl h
    · split at h
      · split at h
        · exact .inl (List.mem_cons_of_mem _ h)
        · rcases List.mem_cons.mp h with h | h
          · exact .inr ⟨h, ‹_›⟩
          · exact .inl (List.mem_cons_of_mem _ h)
      · rcases List.mem_cons.mp h with h | h
        · exact .inl (by simp [h])
        · rcases ih h with h | h
          · exact .inl (List.mem_cons_of_mem _ h)
          · exact .inr h

/-- Reading after a write, in a byte store whose addresses rise. -/
theorem read_write {m : Memory} (hm : m.Pairwise fun c d => c.1 < d.1) (a : Nat) (b : Byte) (x : Nat) :
    (write m a b).read x = if x = a then b else m.read x := by
  induction m with
  | nil =>
    simp only [write]
    split
    · next h => simp [h]
    · simp [read_cons, eq_comm]
  | cons c m ih =>
    obtain ⟨k, y⟩ := c
    rw [List.pairwise_cons] at hm
    have below : x ≤ k → read m x = 0 := fun h => read_eq_zero fun c hc => by
      have := hm.1 c hc; omega
    simp only [write]
    split
    · next hak =>
      split
      · next hb =>
        by_cases hx : x = a
        · subst hx
          rw [if_pos rfl, read_cons, if_neg (by omega), below (by omega), hb]
        · rw [if_neg hx]
      · rw [read_cons]
        by_cases hx : x = a
        · simp [hx]
        · rw [if_neg (Ne.symm hx), if_neg hx]
    · split
      · next hak =>
        subst hak
        split
        · next hb =>
          by_cases hx : x = a
          · subst hx
            rw [if_pos rfl, below (by omega), hb]
          · rw [if_neg hx, read_cons, if_neg (Ne.symm hx)]
        · rw [read_cons, read_cons]
          by_cases hx : x = a
          · simp [hx]
          · rw [if_neg (Ne.symm hx), if_neg (Ne.symm hx), if_neg hx]
      · rw [read_cons, read_cons, ih hm.2]
        by_cases hx : k = x
        · rw [if_pos hx, if_neg (by omega), if_pos hx]
        · rw [if_neg hx, if_neg hx]

theorem wf_nil : wf [] := by simp [wf]

theorem wf_write {m : Memory} (hm : m.wf) {a : Nat} (ha : a < 2 ^ 32) (b : Byte) : (write m a b).wf := by
  obtain ⟨hp, hc⟩ := hm
  refine ⟨?_, fun c h => ?_⟩
  · induction m with
    | nil => simp only [write]; split <;> simp
    | cons d m ih =>
      obtain ⟨k, y⟩ := d
      rw [List.pairwise_cons] at hp
      simp only [write]
      split
      · next hak =>
        split
        · exact List.pairwise_cons.mpr hp
        · refine List.pairwise_cons.mpr ⟨fun c h => ?_, List.pairwise_cons.mpr hp⟩
          rcases List.mem_cons.mp h with h | h
          · subst h; exact hak
          · have := hp.1 c h; simp only at this ⊢; omega
      · split
        · next hak =>
          subst hak
          split
          · exact hp.2
          · exact List.pairwise_cons.mpr ⟨hp.1, hp.2⟩
        · refine List.pairwise_cons.mpr ⟨fun c h => ?_, ih hp.2 fun c h => hc c (List.mem_cons_of_mem _ h)⟩
          rcases mem_write h with h | h
          · exact hp.1 c h
          · rw [h.1]; simp only; omega
  · rcases mem_write h with h | h
    · exact hc c h
    · rw [h.1]; exact ⟨ha, h.2⟩

/-- A byte store in canonical form is decided by what its addresses read as. -/
theorem ext {m n : Memory} (hm : m.wf) (hn : n.wf) (h : ∀ a, m.read a = n.read a) : m = n := by
  induction m generalizing n with
  | nil =>
    cases n with
    | nil => rfl
    | cons d n =>
      have := h d.1
      rw [read_cons d.1 d.2 n, if_pos rfl] at this
      exact absurd this.symm (hn.2 d (by simp)).2
  | cons c m ih =>
    cases n with
    | nil =>
      have := h c.1
      rw [read_cons c.1 c.2 m, if_pos rfl] at this
      exact absurd this (hm.2 c (by simp)).2
    | cons d n =>
      obtain ⟨k, x⟩ := c
      obtain ⟨l, y⟩ := d
      have hmp := List.pairwise_cons.mp hm.1
      have hnp := List.pairwise_cons.mp hn.1
      have hx := (hm.2 (k, x) (by simp)).2
      have hy := (hn.2 (l, y) (by simp)).2
      have hkl : k = l := by
        rcases Nat.lt_trichotomy k l with hlt | heq | hgt
        · have hk := h k
          rw [read_cons, if_pos rfl, read_cons, if_neg (by omega),
            read_eq_zero fun c hc => by have := hnp.1 c hc; simp only at this; omega] at hk
          exact absurd hk hx
        · exact heq
        · have hl := h l
          rw [read_cons, if_neg (by omega), read_cons, if_pos rfl,
            read_eq_zero fun c hc => by have := hmp.1 c hc; simp only at this; omega] at hl
          exact absurd hl.symm hy
      subst hkl
      have hxy : x = y := by have := h k; simpa [read_cons] using this
      subst hxy
      have tail : m = n := by
        apply ih ⟨hmp.2, fun c hc => hm.2 c (List.mem_cons_of_mem _ hc)⟩
          ⟨hnp.2, fun c hc => hn.2 c (List.mem_cons_of_mem _ hc)⟩
        intro a
        by_cases ha : k = a
        · subst ha
          rw [read_eq_zero fun c hc => hmp.1 c hc, read_eq_zero fun c hc => hnp.1 c hc]
        · have := h a
          rwa [read_cons, read_cons, if_neg ha, if_neg ha] at this
      rw [tail]

theorem wf_foldl_write {α : Type} (f : α → Nat × Byte) (hf : ∀ x, (f x).1 < 2 ^ 32) (l : List α) (m : Memory)
    (hm : m.wf) : (l.foldl (fun m x => write m (f x).1 (f x).2) m).wf := by
  induction l generalizing m with
  | nil => exact hm
  | cons x l ih => exact ih _ (wf_write hm (hf x) _)

/-- Any list of cells brought to the canonical form is in canonical form. -/
theorem wf_ofCells (cells : List Host.Cell) : (ofCells cells).wf :=
  wf_foldl_write (fun c : Host.Cell => (c.1 % 2 ^ 32, c.2)) (fun c => Nat.mod_lt c.1 (by decide)) cells [] wf_nil

end Memory

theorem DevState.wf_canonical (st : DevState) : st.canonical.bytes.wf := Memory.wf_ofCells _

namespace Machine

theorem State.wf_imageMemory (image : List (Word × Byte)) : (State.imageMemory image).wf :=
  Memory.wf_foldl_write (fun c : Word × Byte => (c.1.toNat, c.2)) (fun c => c.1.isLt) image [] Memory.wf_nil

/-- The machine right after reset has memory in canonical form. -/
theorem State.wf_reset : State.reset.mem.wf := Memory.wf_nil

theorem State.wf_takeFault (s : State) (f : Fault) (ia : Word) : (s.takeFault f ia).mem.wf := Memory.wf_ofCells _

/-- A device's byte store stays in canonical form under a byte write. -/
theorem Device.wf_write {d : Device} {a : Word} {b : Byte} {st : DevState} (h : d.write a b = some st)
    (hd : d.state.bytes.wf) : st.bytes.wf := by
  unfold Device.write at h
  split at h
  · cases h; exact Memory.wf_write hd a.isLt b
  · rw [Option.map_eq_some_iff] at h
    obtain ⟨x, -, rfl⟩ := h
    exact DevState.wf_canonical x

end Machine

end Sys2Proof
end

