-- ==== Sys2Proof/Laws/State.lean ====
section
/-! SUPPORT. Each update of the state read back: one lemma per field per update, and the register file's laws. -/

namespace Sys2Proof.Machine

namespace State

/-! ## Registers -/

@[simp] theorem reg_setReg_self (s : State) (r : Reg) (v : Word) : (s.setReg r v).reg r = v := by
  simp [reg, setReg]

theorem reg_setReg_ne (s : State) {r q : Reg} (v : Word) (h : q ≠ r) : (s.setReg r v).reg q = s.reg q := by
  have : r.val ≠ q.val := fun e => h (Fin.ext e.symm)
  simp [reg, setReg, this]

theorem reg_setReg (s : State) (r q : Reg) (v : Word) : (s.setReg r v).reg q = if q = r then v else s.reg q := by
  split
  · subst_vars; simp
  · exact reg_setReg_ne s v ‹_›

@[simp] theorem reg_setFlags (s : State) (f : Flags) (r : Reg) : (s.setFlags f).reg r = s.reg r := rfl

@[simp] theorem reg_finish (s : State) (r : Reg) : s.finish.reg r = s.reg r := rfl

@[simp] theorem reg_startRun (s : State) (r : Reg) : s.startRun.reg r = s.reg r := rfl

@[simp] theorem lowReg_eq (s : State) (r : LowReg) : s.lowReg r = s.reg (low r) := rfl

/-- Registers decide the register file. -/
theorem regs_ext {s t : State} (h : ∀ r, t.reg r = s.reg r) : t.regs = s.regs := by
  apply Vector.ext
  intro i hi
  exact h ⟨i, hi⟩

/-! ## One lemma per field per update -/

@[simp] theorem flags_setReg (s : State) (r : Reg) (v : Word) : (s.setReg r v).flags = s.flags := rfl
@[simp] theorem mem_setReg (s : State) (r : Reg) (v : Word) : (s.setReg r v).mem = s.mem := rfl
@[simp] theorem devices_setReg (s : State) (r : Reg) (v : Word) : (s.setReg r v).devices = s.devices := rfl
@[simp] theorem run_setReg (s : State) (r : Reg) (v : Word) : (s.setReg r v).run = s.run := rfl
@[simp] theorem haltReq_setReg (s : State) (r : Reg) (v : Word) : (s.setReg r v).haltReq = s.haltReq := rfl
@[simp] theorem completed_setReg (s : State) (r : Reg) (v : Word) : (s.setReg r v).completed = s.completed := rfl
@[simp] theorem fault_setReg (s : State) (r : Reg) (v : Word) : (s.setReg r v).fault = s.fault := rfl
@[simp] theorem image_setReg (s : State) (r : Reg) (v : Word) : (s.setReg r v).image = s.image := rfl
@[simp] theorem entry_setReg (s : State) (r : Reg) (v : Word) : (s.setReg r v).entry = s.entry := rfl
@[simp] theorem endOfCode_setReg (s : State) (r : Reg) (v : Word) : (s.setReg r v).endOfCode = s.endOfCode := rfl
@[simp] theorem freeCount_setReg (s : State) (r : Reg) (v : Word) : (s.setReg r v).freeCount = s.freeCount := rfl

@[simp] theorem regs_setFlags (s : State) (f : Flags) : (s.setFlags f).regs = s.regs := rfl
@[simp] theorem mem_setFlags (s : State) (f : Flags) : (s.setFlags f).mem = s.mem := rfl
@[simp] theorem devices_setFlags (s : State) (f : Flags) : (s.setFlags f).devices = s.devices := rfl
@[simp] theorem run_setFlags (s : State) (f : Flags) : (s.setFlags f).run = s.run := rfl
@[simp] theorem haltReq_setFlags (s : State) (f : Flags) : (s.setFlags f).haltReq = s.haltReq := rfl
@[simp] theorem completed_setFlags (s : State) (f : Flags) : (s.setFlags f).completed = s.completed := rfl
@[simp] theorem fault_setFlags (s : State) (f : Flags) : (s.setFlags f).fault = s.fault := rfl
@[simp] theorem image_setFlags (s : State) (f : Flags) : (s.setFlags f).image = s.image := rfl
@[simp] theorem entry_setFlags (s : State) (f : Flags) : (s.setFlags f).entry = s.entry := rfl
@[simp] theorem endOfCode_setFlags (s : State) (f : Flags) : (s.setFlags f).endOfCode = s.endOfCode := rfl
@[simp] theorem freeCount_setFlags (s : State) (f : Flags) : (s.setFlags f).freeCount = s.freeCount := rfl
@[simp] theorem flags_setFlags (s : State) (f : Flags) : (s.setFlags f).flags = f := rfl

@[simp] theorem flags_branchTo (s : State) (v : Word) : (s.branchTo v).flags = s.flags := rfl
@[simp] theorem mem_branchTo (s : State) (v : Word) : (s.branchTo v).mem = s.mem := rfl
@[simp] theorem devices_branchTo (s : State) (v : Word) : (s.branchTo v).devices = s.devices := rfl
@[simp] theorem run_branchTo (s : State) (v : Word) : (s.branchTo v).run = s.run := rfl
@[simp] theorem haltReq_branchTo (s : State) (v : Word) : (s.branchTo v).haltReq = s.haltReq := rfl
@[simp] theorem completed_branchTo (s : State) (v : Word) : (s.branchTo v).completed = s.completed := rfl
@[simp] theorem fault_branchTo (s : State) (v : Word) : (s.branchTo v).fault = s.fault := rfl
@[simp] theorem image_branchTo (s : State) (v : Word) : (s.branchTo v).image = s.image := rfl
@[simp] theorem entry_branchTo (s : State) (v : Word) : (s.branchTo v).entry = s.entry := rfl
@[simp] theorem endOfCode_branchTo (s : State) (v : Word) : (s.branchTo v).endOfCode = s.endOfCode := rfl
@[simp] theorem freeCount_branchTo (s : State) (v : Word) : (s.branchTo v).freeCount = s.freeCount := rfl

@[simp] theorem mem_writeAlu (s : State) (r : Reg) (o : AluOut) : (s.writeAlu r o).mem = s.mem := rfl
@[simp] theorem devices_writeAlu (s : State) (r : Reg) (o : AluOut) : (s.writeAlu r o).devices = s.devices := rfl
@[simp] theorem run_writeAlu (s : State) (r : Reg) (o : AluOut) : (s.writeAlu r o).run = s.run := rfl
@[simp] theorem haltReq_writeAlu (s : State) (r : Reg) (o : AluOut) : (s.writeAlu r o).haltReq = s.haltReq := rfl
@[simp] theorem completed_writeAlu (s : State) (r : Reg) (o : AluOut) : (s.writeAlu r o).completed = s.completed := rfl
@[simp] theorem fault_writeAlu (s : State) (r : Reg) (o : AluOut) : (s.writeAlu r o).fault = s.fault := rfl
@[simp] theorem image_writeAlu (s : State) (r : Reg) (o : AluOut) : (s.writeAlu r o).image = s.image := rfl
@[simp] theorem entry_writeAlu (s : State) (r : Reg) (o : AluOut) : (s.writeAlu r o).entry = s.entry := rfl
@[simp] theorem endOfCode_writeAlu (s : State) (r : Reg) (o : AluOut) : (s.writeAlu r o).endOfCode = s.endOfCode := rfl
@[simp] theorem freeCount_writeAlu (s : State) (r : Reg) (o : AluOut) : (s.writeAlu r o).freeCount = s.freeCount := rfl
@[simp] theorem flags_writeAlu (s : State) (r : Reg) (o : AluOut) : (s.writeAlu r o).flags = o.flags := rfl

@[simp] theorem regs_writeFlags (s : State) (o : AluOut) : (s.writeFlags o).regs = s.regs := rfl
@[simp] theorem mem_writeFlags (s : State) (o : AluOut) : (s.writeFlags o).mem = s.mem := rfl
@[simp] theorem devices_writeFlags (s : State) (o : AluOut) : (s.writeFlags o).devices = s.devices := rfl
@[simp] theorem run_writeFlags (s : State) (o : AluOut) : (s.writeFlags o).run = s.run := rfl
@[simp] theorem haltReq_writeFlags (s : State) (o : AluOut) : (s.writeFlags o).haltReq = s.haltReq := rfl
@[simp] theorem completed_writeFlags (s : State) (o : AluOut) : (s.writeFlags o).completed = s.completed := rfl
@[simp] theorem fault_writeFlags (s : State) (o : AluOut) : (s.writeFlags o).fault = s.fault := rfl
@[simp] theorem image_writeFlags (s : State) (o : AluOut) : (s.writeFlags o).image = s.image := rfl
@[simp] theorem entry_writeFlags (s : State) (o : AluOut) : (s.writeFlags o).entry = s.entry := rfl
@[simp] theorem endOfCode_writeFlags (s : State) (o : AluOut) : (s.writeFlags o).endOfCode = s.endOfCode := rfl
@[simp] theorem freeCount_writeFlags (s : State) (o : AluOut) : (s.writeFlags o).freeCount = s.freeCount := rfl
@[simp] theorem flags_writeFlags (s : State) (o : AluOut) : (s.writeFlags o).flags = o.flags := rfl

@[simp] theorem regs_finish (s : State) : (s.finish).regs = s.regs := rfl
@[simp] theorem flags_finish (s : State) : (s.finish).flags = s.flags := rfl
@[simp] theorem mem_finish (s : State) : (s.finish).mem = s.mem := rfl
@[simp] theorem devices_finish (s : State) : (s.finish).devices = s.devices := rfl
@[simp] theorem haltReq_finish (s : State) : (s.finish).haltReq = s.haltReq := rfl
@[simp] theorem fault_finish (s : State) : (s.finish).fault = s.fault := rfl
@[simp] theorem image_finish (s : State) : (s.finish).image = s.image := rfl
@[simp] theorem entry_finish (s : State) : (s.finish).entry = s.entry := rfl
@[simp] theorem endOfCode_finish (s : State) : (s.finish).endOfCode = s.endOfCode := rfl
@[simp] theorem freeCount_finish (s : State) : (s.finish).freeCount = s.freeCount := rfl
@[simp] theorem run_finish (s : State) : (s.finish).run = .halted := rfl
@[simp] theorem completed_finish (s : State) : (s.finish).completed = true := rfl

@[simp] theorem haltReq_takeFault (s : State) (f : Fault) (ia : Word) : (s.takeFault f ia).haltReq = s.haltReq := rfl
@[simp] theorem completed_takeFault (s : State) (f : Fault) (ia : Word) : (s.takeFault f ia).completed = s.completed := rfl
@[simp] theorem image_takeFault (s : State) (f : Fault) (ia : Word) : (s.takeFault f ia).image = s.image := rfl
@[simp] theorem entry_takeFault (s : State) (f : Fault) (ia : Word) : (s.takeFault f ia).entry = s.entry := rfl
@[simp] theorem endOfCode_takeFault (s : State) (f : Fault) (ia : Word) : (s.takeFault f ia).endOfCode = s.endOfCode := rfl
@[simp] theorem run_takeFault (s : State) (f : Fault) (ia : Word) : (s.takeFault f ia).run = .faulted := rfl
@[simp] theorem fault_takeFault (s : State) (f : Fault) (ia : Word) : (s.takeFault f ia).fault = some ⟨f, ia⟩ := rfl
@[simp] theorem freeCount_takeFault (s : State) (f : Fault) (ia : Word) : (s.takeFault f ia).freeCount = s.freeCount + 1 := rfl
@[simp] theorem mem_takeFault (s : State) (f : Fault) (ia : Word) : (s.takeFault f ia).mem = Memory.ofCells (Config.faultMem s.freeCount) := rfl

@[simp] theorem regs_startRun (s : State) : (s.startRun).regs = s.regs := rfl
@[simp] theorem flags_startRun (s : State) : (s.startRun).flags = s.flags := rfl
@[simp] theorem mem_startRun (s : State) : (s.startRun).mem = s.mem := rfl
@[simp] theorem devices_startRun (s : State) : (s.startRun).devices = s.devices := rfl
@[simp] theorem completed_startRun (s : State) : (s.startRun).completed = s.completed := rfl
@[simp] theorem fault_startRun (s : State) : (s.startRun).fault = s.fault := rfl
@[simp] theorem image_startRun (s : State) : (s.startRun).image = s.image := rfl
@[simp] theorem entry_startRun (s : State) : (s.startRun).entry = s.entry := rfl
@[simp] theorem endOfCode_startRun (s : State) : (s.startRun).endOfCode = s.endOfCode := rfl
@[simp] theorem freeCount_startRun (s : State) : (s.startRun).freeCount = s.freeCount := rfl
@[simp] theorem run_startRun (s : State) : (s.startRun).run = .running := rfl
@[simp] theorem haltReq_startRun (s : State) : (s.startRun).haltReq = false := rfl

@[simp] theorem image_resetTransaction (s : State) : (s.resetTransaction).image = s.image := rfl
@[simp] theorem entry_resetTransaction (s : State) : (s.resetTransaction).entry = s.entry := rfl
@[simp] theorem endOfCode_resetTransaction (s : State) : (s.resetTransaction).endOfCode = s.endOfCode := rfl
@[simp] theorem freeCount_resetTransaction (s : State) : (s.resetTransaction).freeCount = s.freeCount := rfl
@[simp] theorem flags_resetTransaction (s : State) : (s.resetTransaction).flags = ⟨false, false, false, false⟩ := rfl
@[simp] theorem mem_resetTransaction (s : State) : (s.resetTransaction).mem = imageMemory s.image := rfl
@[simp] theorem devices_resetTransaction (s : State) : (s.resetTransaction).devices = s.devices.map fun d => { d with state := d.desc.resetState } := rfl
@[simp] theorem run_resetTransaction (s : State) : (s.resetTransaction).run = .idle := rfl
@[simp] theorem haltReq_resetTransaction (s : State) : (s.resetTransaction).haltReq = false := rfl
@[simp] theorem completed_resetTransaction (s : State) : (s.resetTransaction).completed = false := rfl
@[simp] theorem fault_resetTransaction (s : State) : (s.resetTransaction).fault = none := rfl

/-! ## What each composite update does to the registers and the flags -/

theorem reg_branchTo (s : State) (v : Word) (q : Reg) :
    (s.branchTo v).reg q = if q = pcReg then v &&& 0xFFFFFFFE else s.reg q := reg_setReg s pcReg q _

@[simp] theorem reg_writeAlu_self (s : State) (r : Reg) (o : AluOut) : (s.writeAlu r o).reg r = o.result := by
  simp [writeAlu]

theorem reg_writeAlu_ne (s : State) {r q : Reg} (o : AluOut) (h : q ≠ r) : (s.writeAlu r o).reg q = s.reg q := by
  simp [writeAlu, reg_setReg_ne _ _ h]

@[simp] theorem reg_writeFlags (s : State) (o : AluOut) (r : Reg) : (s.writeFlags o).reg r = s.reg r := rfl

theorem reg_writeResult (s : State) (r q : Reg) (v : Word) :
    (s.writeResult r v).reg q = if q = r then (if r = pcReg then v &&& 0xFFFFFFFE else v) else s.reg q := by
  unfold writeResult
  split
  · subst_vars; rw [reg_branchTo]
  · rw [reg_setReg]

theorem writeResult_eq (s : State) (r : Reg) (v : Word) :
    s.writeResult r v = { s with regs := (s.writeResult r v).regs } := by
  unfold writeResult; split <;> rfl

@[simp] theorem reg_resetTransaction_pc (s : State) : s.resetTransaction.reg pcReg = s.entry := rfl

theorem reg_resetTransaction_ne (s : State) {r : Reg} (h : r ≠ pcReg) : s.resetTransaction.reg r = 0 := by
  have : (15 : Nat) ≠ r.val := fun e => h (Fin.ext e.symm)
  simp [reg, resetTransaction, this]

/-! ## The bus reads devices and fall-through memory only -/

theorem owner_congr {s t : State} (h : t.devices = s.devices) (a : Word) : t.owner a = s.owner a := by
  simp [owner, h]

theorem busReadByte_congr {s t : State} (hm : t.mem = s.mem) (hd : t.devices = s.devices) (a : Word) :
    t.busReadByte a = s.busReadByte a := by
  simp [busReadByte, owner, hm, hd]

theorem busReadBytes_congr {s t : State} (h : ∀ a, t.busReadByte a = s.busReadByte a) (a : Word) (n : Nat) :
    t.busReadBytes a n = s.busReadBytes a n := by
  induction n generalizing a with
  | zero => rfl
  | succ n ih => simp [busReadBytes, h, ih]

@[simp] theorem busReadByte_setReg (s : State) (r : Reg) (v : Word) (a : Word) :
    (s.setReg r v).busReadByte a = s.busReadByte a := rfl

@[simp] theorem busReadByte_setFlags (s : State) (f : Flags) (a : Word) :
    (s.setFlags f).busReadByte a = s.busReadByte a := rfl

@[simp] theorem owner_setReg (s : State) (r : Reg) (v : Word) (a : Word) : (s.setReg r v).owner a = s.owner a := rfl

@[simp] theorem memRead_setReg (s : State) (r : Reg) (v : Word) (a : Word) (w : Width) :
    (s.setReg r v).memRead a w = s.memRead a w := by
  simp only [memRead, busReadBytes_congr (busReadByte_setReg s r v)]

/-! ## Fault entry -/

/-- Fault entry keeps each device's descriptor (configuration), in order. -/
theorem descriptors_takeFault (s : State) (f : Fault) (ia : Word) :
    Safety.descriptors (s.takeFault f ia) = Safety.descriptors s := by
  simp [Safety.descriptors, takeFault, unspecified, List.mapIdx_eq_zipIdx_map, List.map_map, Function.comp_def]
  rw [← Function.comp_def Device.desc Prod.fst, ← List.map_map, List.zipIdx_map_fst]

end State

/-- A low register is none of SP, LR, PC. -/
theorem low_val (r : LowReg) : (low r).val = r.val := rfl

@[simp] theorem low_ne_sp (r : LowReg) : low r ≠ spReg := by
  intro h
  have h' : r.val = 13 := congrArg Fin.val h
  omega

@[simp] theorem low_ne_lr (r : LowReg) : low r ≠ lrReg := by
  intro h
  have h' : r.val = 14 := congrArg Fin.val h
  omega

@[simp] theorem low_ne_pc (r : LowReg) : low r ≠ pcReg := by
  intro h
  have h' : r.val = 15 := congrArg Fin.val h
  omega

theorem low_injective {q r : LowReg} (h : low q = low r) : q = r :=
  Fin.ext (show (low q).val = (low r).val from congrArg Fin.val h)

end Sys2Proof.Machine
end

