-- ==== Sys2Proof/Laws/Bus.lean ====
section
/-! SUPPORT. What each shared operation can do, said once: byte writes, accesses, register transfers, branch-exchange and
the end of an instruction. A caller cites these and unfolds none of them. -/

namespace Sys2Proof.Machine

open Safety

/-- The byte stores a state holds are in canonical form. -/
structure StoresWf (s : State) : Prop where
  mem     : s.mem.wf
  devices : ∀ d ∈ s.devices, d.state.bytes.wf

/-- `t` is `s` with other contents of memory and of the devices' states, nothing else. -/
structure OnlyStores (s t : State) : Prop where
  same        : t = { s with mem := t.mem, devices := t.devices }
  descriptors : descriptors t = descriptors s

/-- `t` is `s` with other registers, nothing else. -/
def OnlyRegs (s t : State) : Prop := t = { s with regs := t.regs }

theorem OnlyStores.refl (s : State) : OnlyStores s s := ⟨rfl, rfl⟩

theorem OnlyStores.trans {s t u : State} (h : OnlyStores s t) (k : OnlyStores t u) : OnlyStores s u := by
  refine ⟨?_, k.descriptors.trans h.descriptors⟩
  have := h.same
  rw [k.same]; rw [this]

theorem OnlyStores.reg {s t : State} (h : OnlyStores s t) (r : Reg) : t.reg r = s.reg r := by rw [h.same]; rfl

theorem OnlyRegs.refl (s : State) : OnlyRegs s s := rfl

theorem OnlyRegs.trans {s t u : State} (h : OnlyRegs s t) (k : OnlyRegs t u) : OnlyRegs s u := by
  unfold OnlyRegs at *
  rw [k, h]

theorem OnlyRegs.setReg (s : State) (r : Reg) (v : Word) : OnlyRegs s (s.setReg r v) := rfl

theorem OnlyRegs.branchTo (s : State) (v : Word) : OnlyRegs s (s.branchTo v) := rfl

theorem OnlyRegs.memRead {s t : State} (h : OnlyRegs s t) (a : Word) (w : Width) : t.memRead a w = s.memRead a w := by
  rw [h]
  simp only [State.memRead, State.busReadBytes_congr (s := s) (t := { s with regs := t.regs }) fun _ => rfl]

/-! ## One byte -/

theorem find_owner_pos {d : Device} {a : Word} (ds : List Device) (h : d.desc.isResponsibleFor a = true) :
    (d :: ds).find? (·.desc.isResponsibleFor a) = some d := by simp [List.find?, h]

theorem find_owner_neg {d : Device} {a : Word} (ds : List Device) (h : ¬ d.desc.isResponsibleFor a = true) :
    (d :: ds).find? (·.desc.isResponsibleFor a) = ds.find? (·.desc.isResponsibleFor a) := by simp [List.find?, h]

/-- A byte write changes the state of one device at most, and no descriptor. -/
theorem writeDevices_descriptors {a : Word} {b : Byte} {ds es : List Device} (h : writeDevices a b ds = .ok es) :
    es.map Device.desc = ds.map Device.desc := by
  induction ds generalizing es with
  | nil => cases h; rfl
  | cons d ds ih =>
    simp only [writeDevices] at h
    split at h
    · split at h
      · cases h
      · split at h <;> cases h
        rfl
    · split at h <;> cases h
      simp [ih ‹_›]

theorem writeDevices_wf {a : Word} {b : Byte} {ds es : List Device} (h : writeDevices a b ds = .ok es)
    (hd : ∀ d ∈ ds, d.state.bytes.wf) : ∀ d ∈ es, d.state.bytes.wf := by
  induction ds generalizing es with
  | nil => cases h; exact hd
  | cons d ds ih =>
    have hds := fun e he => hd e (List.mem_cons_of_mem d he)
    simp only [writeDevices] at h
    split at h
    · split at h
      · cases h
      · split at h
        · next st hw =>
          cases h
          intro e he
          rcases List.mem_cons.mp he with rfl | he
          · exact Device.wf_write hw (hd d (by simp))
          · exact hds e he
        · cases h
    · split at h
      · next es' hw =>
        cases h
        intro e he
        rcases List.mem_cons.mp he with rfl | he
        · exact hd e (by simp)
        · exact ih hw hds e he
      · cases h

/-- The write lands at the owner: the first responsible device takes the byte, every other device stays. -/
theorem writeDevices_find {a : Word} {b : Byte} {ds es : List Device} (h : writeDevices a b ds = .ok es) {d : Device}
    (hd : ds.find? (·.desc.isResponsibleFor a) = some d) :
    d.desc.isReadOnly = false ∧ ∃ st, d.write a b = some st ∧
      es.find? (·.desc.isResponsibleFor a) = some { d with state := st } := by
  induction ds generalizing es with
  | nil => simp at hd
  | cons e ds ih =>
    simp only [writeDevices] at h
    split at h
    · next hr =>
      rw [find_owner_pos _ hr] at hd
      cases hd
      split at h
      · cases h
      · next hro =>
        split at h
        · next st hw =>
          cases h
          exact ⟨by simpa using hro, st, hw, by simp [List.find?, hr]⟩
        · cases h
    · next hr =>
      rw [find_owner_neg _ hr] at hd
      split at h
      · next es' hw =>
        cases h
        obtain ⟨hro, st, hst, hf⟩ := ih hw hd
        exact ⟨hro, st, hst, by rw [find_owner_neg _ hr]; exact hf⟩
      · cases h

/-- At an address another device owns, nothing changed; at an address the writing device owns too, that device is the one
with the new state. -/
theorem writeDevices_find_other {a x : Word} {b : Byte} {ds es : List Device} (h : writeDevices a b ds = .ok es) :
    es.find? (·.desc.isResponsibleFor x) = ds.find? (·.desc.isResponsibleFor x) ∨
      ∃ d st, ds.find? (·.desc.isResponsibleFor a) = some d ∧ d.write a b = some st ∧
        ds.find? (·.desc.isResponsibleFor x) = some d ∧
        es.find? (·.desc.isResponsibleFor x) = some { d with state := st } := by
  induction ds generalizing es with
  | nil => cases h; exact .inl rfl
  | cons e ds ih =>
    simp only [writeDevices] at h
    split at h
    · next hr =>
      split at h
      · cases h
      · split at h
        · next st hw =>
          cases h
          by_cases hx : e.desc.isResponsibleFor x
          · exact .inr ⟨e, st, by simp [List.find?, hr], hw, by simp [List.find?, hx], by simp [List.find?, hx]⟩
          · exact .inl (by simp [List.find?, hx])
        · cases h
    · next hr =>
      split at h
      · next es' hw =>
        cases h
        by_cases hx : e.desc.isResponsibleFor x
        · exact .inl (by simp [List.find?, hx])
        · rcases ih hw with hk | ⟨d, st, h1, h2, h3, h4⟩
          · exact .inl (by rw [find_owner_neg _ hx, find_owner_neg _ hx, hk])
          · exact .inr ⟨d, st, by rw [find_owner_neg _ hr, h1], h2, by rw [find_owner_neg _ hx, h3],
              by rw [find_owner_neg _ hx, h4]⟩
      · cases h

/-- A byte write to a read-write default device is taken. -/
theorem writeDevices_byteStore {a : Word} {b : Byte} {ds : List Device} {d : Device}
    (hd : ds.find? (·.desc.isResponsibleFor a) = some d) (hro : d.desc.isReadOnly = false)
    (hb : d.desc.behaviour = .byteStore) : ∃ es, writeDevices a b ds = .ok es := by
  induction ds with
  | nil => simp at hd
  | cons e ds ih =>
    by_cases hr : e.desc.isResponsibleFor a
    · rw [find_owner_pos _ hr] at hd
      cases hd
      simp [writeDevices, hr, hro, Device.write, hb]
    · rw [find_owner_neg _ hr] at hd
      obtain ⟨es, he⟩ := ih hd
      exact ⟨e :: es, by simp [writeDevices, hr, he]⟩

namespace State

theorem busWriteByte_ok {s t : State} {a : Word} {b : Byte} (h : s.busWriteByte a b = .ok t) : OnlyStores s t := by
  unfold busWriteByte at h
  split at h
  · split at h
    · next es hw => cases h; exact ⟨rfl, writeDevices_descriptors hw⟩
    · cases h
  · cases h; exact ⟨rfl, rfl⟩

theorem busWriteByte_wf {s t : State} {a : Word} {b : Byte} (h : s.busWriteByte a b = .ok t) (hs : StoresWf s) :
    StoresWf t := by
  unfold busWriteByte at h
  split at h
  · split at h
    · next es hw => cases h; exact ⟨hs.mem, writeDevices_wf hw hs.devices⟩
    · cases h
  · cases h; exact ⟨Memory.wf_write hs.mem a.isLt b, hs.devices⟩

/-- Where a device owns an address, no store reaches the fall-through byte below it (R67). -/
theorem busWriteByte_mem {s t : State} {a x : Word} {b : Byte} (h : s.busWriteByte a b = .ok t) (hs : s.mem.wf)
    (hx : (s.owner x).isSome) : t.mem.read x.toNat = s.mem.read x.toNat := by
  unfold busWriteByte at h
  split at h
  · split at h <;> cases h; rfl
  · next ha =>
    cases h
    show (s.mem.write a.toNat b).read x.toNat = _
    rw [Memory.read_write hs.1, if_neg]
    intro e
    rw [BitVec.toNat_inj.mp e, ha] at hx
    simp at hx

/-- A byte write to a storable address is taken, is read back, and every other address reads as before. -/
theorem busWriteByte_storable {s : State} {a : Word} (b : Byte) (hs : StoresWf s) (ha : Storable s a) :
    ∃ t, s.busWriteByte a b = .ok t ∧ ∀ x, t.busReadByte x = if x = a then b else s.busReadByte x := by
  unfold busWriteByte
  split
  · next d hd =>
    obtain ⟨hro, hb⟩ := ha d hd
    obtain ⟨es, he⟩ := writeDevices_byteStore (b := b) hd hro hb
    rw [he]
    refine ⟨_, rfl, fun x => ?_⟩
    have dwf : d.state.bytes.wf := hs.devices d (List.mem_of_find?_eq_some hd)
    rcases writeDevices_find_other (x := x) he with hk | ⟨e, st, h1, h2, h3, h4⟩
    · by_cases hx : x = a
      · subst hx
        obtain ⟨-, st, hst, hf⟩ := writeDevices_find he hd
        simp only [Device.write, hb] at hst
        cases hst
        rw [if_pos rfl]
        simp only [busReadByte, owner, hf, Device.read, hb]
        rw [Memory.read_write dwf.1, if_pos rfl]
      · rw [if_neg hx]
        simp only [busReadByte, owner, hk]
    · have : e = d := Option.some.inj (h1.symm.trans hd)
      subst this
      simp only [Device.write, hb] at h2
      cases h2
      simp only [busReadByte, owner, h3, h4, Device.read, hb]
      rw [Memory.read_write dwf.1]
      by_cases hx : x = a
      · simp [hx]
      · rw [if_neg hx, if_neg]
        intro hc; exact hx (BitVec.toNat_inj.mp hc)
  · next hn =>
    refine ⟨_, rfl, fun x => ?_⟩
    simp only [busReadByte, owner]
    by_cases hx : x = a
    · subst hx
      rw [if_pos rfl, show s.devices.find? (·.desc.isResponsibleFor x) = none from hn]
      simp only
      rw [Memory.read_write hs.mem.1, if_pos rfl]
    · rw [if_neg hx]
      split
      · rfl
      · rw [Memory.read_write hs.mem.1, if_neg]
        intro hc; exact hx (BitVec.toNat_inj.mp hc)

/-- Which device owns an address depends on the descriptors only. -/
theorem owner_desc {s t : State} (h : descriptors t = descriptors s) (a : Word) :
    (t.owner a).map Device.desc = (s.owner a).map Device.desc := by
  have key : ∀ ds : List Device, (ds.find? (·.desc.isResponsibleFor a)).map Device.desc =
      (ds.map Device.desc).find? (·.isResponsibleFor a) := by
    intro ds
    rw [List.find?_map]; rfl
  unfold owner
  rw [key, key]
  exact congrArg _ h

theorem owner_isSome {s t : State} (h : descriptors t = descriptors s) (a : Word) :
    (t.owner a).isSome = (s.owner a).isSome := by
  have := congrArg Option.isSome (owner_desc h a)
  simpa using this

theorem storable_congr {s t : State} (h : descriptors t = descriptors s) {a : Word} (ha : Storable s a) :
    Storable t a := by
  intro d hd
  have := owner_desc h a
  rw [hd] at this
  cases ho : s.owner a with
  | none => rw [ho] at this; cases this
  | some e =>
    rw [ho] at this
    have heq : d.desc = e.desc := Option.some.inj this
    rw [heq]; exact ha e ho

/-! ## Accesses -/

theorem busWriteBytes_ok {s t : State} {a v : Word} {n : Nat} (h : s.busWriteBytes a v n = .ok t) : OnlyStores s t := by
  induction n generalizing s a v with
  | zero => cases h; exact .refl _
  | succ n ih =>
    simp only [busWriteBytes] at h
    split at h
    · next u hu => exact (busWriteByte_ok hu).trans (ih h)
    · cases h

theorem busWriteBytes_wf {s t : State} {a v : Word} {n : Nat} (h : s.busWriteBytes a v n = .ok t) (hs : StoresWf s) :
    StoresWf t := by
  induction n generalizing s a v with
  | zero => cases h; exact hs
  | succ n ih =>
    simp only [busWriteBytes] at h
    split at h
    · next u hu => exact ih h (busWriteByte_wf hu hs)
    · cases h

theorem busWriteBytes_mem {s t : State} {a v x : Word} {n : Nat} (h : s.busWriteBytes a v n = .ok t) (hs : StoresWf s)
    (hx : (s.owner x).isSome) : t.mem.read x.toNat = s.mem.read x.toNat := by
  induction n generalizing s a v with
  | zero => cases h; rfl
  | succ n ih =>
    simp only [busWriteBytes] at h
    split at h
    · next u hu =>
      rw [ih h (busWriteByte_wf hu hs) (by rwa [owner_isSome (busWriteByte_ok hu).descriptors])]
      exact busWriteByte_mem hu hs.mem hx
    · cases h

/-- A store answers the state with other store contents, or a fault. -/
theorem memWrite_ok {s t : State} {a v : Word} {w : Width} (h : s.memWrite a w v = .ok t) : OnlyStores s t := by
  unfold memWrite at h
  split at h
  · cases h
  · exact busWriteBytes_ok h

theorem memWrite_wf {s t : State} {a v : Word} {w : Width} (h : s.memWrite a w v = .ok t) (hs : StoresWf s) :
    StoresWf t := by
  unfold memWrite at h
  split at h
  · cases h
  · exact busWriteBytes_wf h hs

theorem memWrite_mem {s t : State} {a v x : Word} {w : Width} (h : s.memWrite a w v = .ok t) (hs : StoresWf s)
    (hx : (s.owner x).isSome) : t.mem.read x.toNat = s.mem.read x.toNat := by
  unfold memWrite at h
  split at h
  · cases h
  · exact busWriteBytes_mem h hs hx

/-! ## Register transfers -/

theorem loadRegs_ok {s t : State} {a : Word} {rs : List Reg} (h : s.loadRegs a rs = .ok t) :
    OnlyRegs s t ∧ ∀ r, r ∉ rs → t.reg r = s.reg r := by
  induction rs generalizing s a with
  | nil => cases h; exact ⟨.refl _, fun _ _ => rfl⟩
  | cons r rs ih =>
    simp only [loadRegs] at h
    split at h
    · next v hv =>
      obtain ⟨h1, h2⟩ := ih h
      refine ⟨(OnlyRegs.setReg s r v).trans h1, fun q hq => ?_⟩
      rw [List.mem_cons, not_or] at hq
      rw [h2 q hq.2, reg_setReg_ne _ _ hq.1]
    · cases h

theorem storeRegs_ok {s t : State} {a : Word} {rs : List Reg} (h : s.storeRegs a rs = .ok t) : OnlyStores s t := by
  induction rs generalizing s a with
  | nil => cases h; exact .refl _
  | cons r rs ih =>
    simp only [storeRegs] at h
    split at h
    · next u hu => exact (memWrite_ok hu).trans (ih h)
    · cases h

theorem storeRegs_wf {s t : State} {a : Word} {rs : List Reg} (h : s.storeRegs a rs = .ok t) (hs : StoresWf s) :
    StoresWf t := by
  induction rs generalizing s a with
  | nil => cases h; exact hs
  | cons r rs ih =>
    simp only [storeRegs] at h
    split at h
    · next u hu => exact ih h (memWrite_wf hu hs)
    · cases h

theorem storeRegs_mem {s t : State} {a x : Word} {rs : List Reg} (h : s.storeRegs a rs = .ok t) (hs : StoresWf s)
    (hx : (s.owner x).isSome) : t.mem.read x.toNat = s.mem.read x.toNat := by
  induction rs generalizing s a with
  | nil => cases h; rfl
  | cons r rs ih =>
    simp only [storeRegs] at h
    split at h
    · next u hu =>
      rw [ih h (memWrite_wf hu hs) (by rwa [owner_isSome (memWrite_ok hu).descriptors])]
      exact memWrite_mem hu hs hx
    · cases h

theorem branchExchange_ok {s t : State} {v : Word} (h : s.branchExchange v = .ok t) :
    v.getLsbD 0 = true ∧ t = s.branchTo v := by
  unfold branchExchange at h
  split at h
  · cases h; exact ⟨‹_›, rfl⟩
  · cases h

theorem branchExchange_error {s : State} {v : Word} {f : Fault} (h : s.branchExchange v = .error f) :
    v.getLsbD 0 = false ∧ f = .interwork v := by
  unfold branchExchange at h
  split at h
  · cases h
  · cases h; exact ⟨(Bool.not_eq_true _).mp ‹_›, rfl⟩

end State

/-! ## How an instruction ends -/

/-- An instruction that may raise ends in the state it reached, or in fault entry. -/
theorem complete_next {s t : State} {ia : Word} {r : Except Fault State} (h : complete s ia r = .next t) :
    r = .ok t ∨ ∃ f, r = .error f ∧ t = s.takeFault f ia := by
  cases r with
  | ok u => cases h; exact .inl rfl
  | error f => cases h; exact .inr ⟨f, rfl, rfl⟩

theorem completeShort_next {s t : State} {r : Except Fault State} (h : completeShort s r = .next t) :
    r = .ok t ∨ ∃ f, r = .error f ∧ t = s.takeFault f s.iaShort := complete_next h

@[simp] theorem completeShort_ok (s t : State) : completeShort s (.ok t) = .next t := rfl

@[simp] theorem completeShort_error (s : State) (f : Fault) :
    completeShort s (.error f) = .next (s.takeFault f s.iaShort) := rfl

end Sys2Proof.Machine
end

