-- ==== Sys2Proof/Laws/Frame.lean ====
section
/-! SUPPORT. The frame of each way an instruction ends: what it leaves unchanged, once per shared operation. -/

namespace Sys2Proof.Machine

open Safety

theorem controlKept_refl (s : State) : ControlKept s s := ⟨rfl, rfl, rfl, rfl, rfl, rfl, rfl, rfl⟩

/-- Other registers and flags only. -/
theorem controlKept_of_eq {s t : State} (h : t = { s with regs := t.regs, flags := t.flags, mem := t.mem, devices := t.devices }) :
    ControlKept s t := by
  rw [h]; exact ⟨rfl, rfl, rfl, rfl, rfl, rfl, rfl, rfl⟩

theorem memoryKept_of_eq {s t : State} (hm : t.mem = s.mem) (hd : t.devices = s.devices) : MemoryKept s t :=
  ⟨State.busReadByte_congr hm hd, hm, hd⟩

theorem OnlyRegs.memory {s t : State} (h : OnlyRegs s t) : MemoryKept s t :=
  memoryKept_of_eq (by rw [h]) (by rw [h])

theorem OnlyRegs.control {s t : State} (h : OnlyRegs s t) : ControlKept s t := by
  rw [h]; exact ⟨rfl, rfl, rfl, rfl, rfl, rfl, rfl, rfl⟩

theorem OnlyRegs.flags {s t : State} (h : OnlyRegs s t) : t.flags = s.flags := by rw [h]

theorem OnlyRegs.frame {s t : State} (h : OnlyRegs s t) {written : List Reg} (hr : RegsKept s t written) :
    FrameKeepingFlags s t written := ⟨⟨hr, h.memory, h.control⟩, h.flags⟩

theorem OnlyStores.control {s t : State} (h : OnlyStores s t) : ControlKept s t := by
  rw [h.same]; exact ⟨rfl, rfl, rfl, rfl, rfl, rfl, rfl, rfl⟩

theorem OnlyStores.flags {s t : State} (h : OnlyStores s t) : t.flags = s.flags := by rw [h.same]

theorem frame_writeAlu (s : State) (r : Reg) (o : AluOut) : Frame s (s.writeAlu r o) [r] where
  regs q hq := State.reg_writeAlu_ne s o (by simpa using hq)
  memory := memoryKept_of_eq rfl rfl
  control := ⟨rfl, rfl, rfl, rfl, rfl, rfl, rfl, rfl⟩

theorem frame_writeFlags (s : State) (o : AluOut) : Frame s (s.writeFlags o) [] where
  regs _ _ := rfl
  memory := memoryKept_of_eq rfl rfl
  control := ⟨rfl, rfl, rfl, rfl, rfl, rfl, rfl, rfl⟩

theorem frame_setReg (s : State) (r : Reg) (v : Word) : FrameKeepingFlags s (s.setReg r v) [r] :=
  (OnlyRegs.setReg s r v).frame fun _ hq => State.reg_setReg_ne s v (by simpa using hq)

theorem frame_branchTo (s : State) (v : Word) : FrameKeepingFlags s (s.branchTo v) [pcReg] := frame_setReg s pcReg _

theorem frame_writeResult (s : State) (r : Reg) (v : Word) : FrameKeepingFlags s (s.writeResult r v) [r] := by
  unfold State.writeResult
  split
  · subst_vars; exact frame_branchTo s v
  · exact frame_setReg s r v

/-- Fault entry: the record, the run state, and what it leaves alone (R305). -/
theorem faultedWith_takeFault (s : State) (f : Fault) (ia : Word) : FaultedWith s (s.takeFault f ia) f ia where
  run := State.run_takeFault s f ia
  record := State.fault_takeFault s f ia
  haltReq := State.haltReq_takeFault s f ia
  completed := State.completed_takeFault s f ia
  image := State.image_takeFault s f ia
  entry := State.entry_takeFault s f ia
  endOfCode := State.endOfCode_takeFault s f ia
  descriptors := State.descriptors_takeFault s f ia

/-- What fault entry says of the state before is the same for two states that differ in registers, flags and bytes. -/
theorem faultedWith_congr {s t u : State} {f : Fault} {ia : Word} (h : FaultedWith s u f ia) (hh : s.haltReq = t.haltReq)
    (hc : s.completed = t.completed) (hi : s.image = t.image) (he : s.entry = t.entry) (ho : s.endOfCode = t.endOfCode)
    (hd : descriptors s = descriptors t) : FaultedWith t u f ia :=
  ⟨h.run, h.record, h.haltReq.trans hh, h.completed.trans hc, h.image.trans hi, h.entry.trans he, h.endOfCode.trans ho,
    h.descriptors.trans hd⟩

end Sys2Proof.Machine
end

