-- ==== Sys2Proof/Laws/Access.lean ====
section
/-! SUPPORT. Accesses of several bytes and words: what a read gives, what a store leaves where each byte can be stored,
register transfers, and the values of scaled immediates. -/

namespace Sys2Proof.Machine

open Safety

/-! ## The owner of an address -/

theorem isResponsibleFor_iff (d : Device) (a : Word) : d.desc.isResponsibleFor a = true ↔ Responsible d a := by
  simp [DeviceDesc.isResponsibleFor, Responsible, BitVec.le_def]

theorem owner_unowned {s : State} {a : Word} (h : Unowned s a) : s.owner a = none := by
  unfold State.owner
  rw [List.find?_eq_none]
  intro d hd hr
  exact h d hd ((isResponsibleFor_iff d a).mp hr)

theorem owner_ownedBy {s : State} {a : Word} {before after : List Device} {d : Device} (h : OwnedBy s a before d after) :
    s.owner a = some d := by
  unfold State.owner
  rw [h.list, List.find?_append, List.find?_eq_none.mpr]
  · simp [(isResponsibleFor_iff d a).mpr h.owns]
  · intro e he hr
    exact h.first e he ((isResponsibleFor_iff e a).mp hr)

theorem storesWf_of_inv {s : State} (h : MachineInv s) : StoresWf s := ⟨h.memory, fun d hd => (h.devices d hd).2.1⟩

/-! ## Addresses -/

theorem add_one_add (a : Word) (i : Nat) : a + 1 + BitVec.ofNat 32 i = a + BitVec.ofNat 32 (i + 1) := by
  rw [BitVec.add_assoc, Nat.add_comm i 1, BitVec.ofNat_add]; rfl

theorem add_four_add (a : Word) (n : Nat) : a + 4 + BitVec.ofNat 32 n = a + BitVec.ofNat 32 (n + 4) := by
  rw [BitVec.add_assoc, Nat.add_comm n 4, BitVec.ofNat_add]; rfl

theorem add_four_mul (a : Word) (k : Nat) : a + 4 + BitVec.ofNat 32 (4 * k) = a + BitVec.ofNat 32 (4 * (k + 1)) :=
  add_four_add a (4 * k)

theorem add_zero_mul (a : Word) : a + BitVec.ofNat 32 (4 * 0) = a := BitVec.add_zero a

/-! ## Reading -/

theorem wordByte_eq (v : Word) (i : Nat) : wordByte v i = (v >>> (8 * i)).setWidth 8 := by
  apply BitVec.eq_of_toNat_eq
  simp [wordByte, Nat.shiftRight_eq_div_pow]

theorem wordByte_shift (v : Word) (i : Nat) : wordByte (v >>> 8) i = wordByte v (i + 1) := by
  rw [wordByte_eq, wordByte_eq, ← BitVec.shiftRight_add, Nat.mul_add, Nat.add_comm (8 * i)]

theorem bytesAt_lt (s : State) (a : Word) (n : Nat) : bytesAt s a n < 2 ^ (8 * n) := by
  induction n with
  | zero => simp [bytesAt]
  | succ n ih =>
    have h := (s.busReadByte (a + BitVec.ofNat 32 n)).isLt
    have := Nat.mul_le_mul_right (2 ^ (8 * n)) (Nat.le_of_lt_succ h)
    rw [bytesAt, Nat.mul_add, pow_add]
    omega

/-- The lowest byte apart. -/
theorem bytesAt_succ (s : State) (a : Word) (n : Nat) :
    bytesAt s a (n + 1) = (s.busReadByte a).toNat + 256 * bytesAt s (a + 1) n := by
  induction n with
  | zero => simp [bytesAt]
  | succ n ih =>
    rw [bytesAt, ih, bytesAt, add_one_add]
    ring

theorem toNat_busReadBytes (s : State) (a : Word) (n : Nat) (hn : n ≤ 4) : (s.busReadBytes a n).toNat = bytesAt s a n := by
  induction n generalizing a with
  | zero => rfl
  | succ n ih =>
    have h1 := bytesAt_lt s (a + 1) n
    have h2 := (s.busReadByte a).isLt
    have h3 : (2 : Nat) ^ (8 * n) ≤ 2 ^ 24 := Nat.pow_le_pow_right (by decide) (by omega)
    rw [bytesAt_succ, State.busReadBytes, BitVec.toNat_or, BitVec.toNat_shiftLeft, ih _ (by omega), Nat.shiftLeft_eq,
      Nat.mod_eq_of_lt (by omega), BitVec.toNat_setWidth, Nat.mod_eq_of_lt (by omega), Nat.or_comm, ← Nat.shiftLeft_eq,
      ← Nat.shiftLeft_add_eq_or_of_lt h2, Nat.shiftLeft_eq]
    ring

theorem busReadBytes_word (s : State) (a : Word) : s.busReadBytes a 4 = wordAt s a := by
  apply BitVec.eq_of_toNat_eq
  rw [toNat_busReadBytes _ _ _ (by decide), wordAt, BitVec.toNat_ofNat, Nat.mod_eq_of_lt (bytesAt_lt s a 4)]

theorem busReadBytes_half (s : State) (a : Word) : (s.busReadBytes a 2).setWidth 16 = halfAt s a := by
  apply BitVec.eq_of_toNat_eq
  rw [BitVec.toNat_setWidth, toNat_busReadBytes _ _ _ (by decide), halfAt, BitVec.toNat_ofNat]

theorem busReadBytes_byte (s : State) (a : Word) : (s.busReadBytes a 1).setWidth 8 = s.busReadByte a := by
  apply BitVec.eq_of_toNat_eq
  simpa [toNat_busReadBytes _ _ _ (show 1 ≤ 4 by decide), bytesAt] using (s.busReadByte a).isLt

theorem outOfRange_eq_false (a : Word) (w : Width) : outOfRange a w = false ↔ CanLoad a w := by
  simp [CanLoad, outOfRange]

theorem memRead_of_canLoad (s : State) {a : Word} {w : Width} (h : CanLoad a w) :
    s.memRead a w = .ok (s.busReadBytes a w.bytes) := by
  simp [State.memRead, (outOfRange_eq_false a w).mpr h]

theorem memRead_of_not_canLoad (s : State) {a : Word} {w : Width} (h : ¬ CanLoad a w) :
    s.memRead a w = .error (.addressRange a) := by
  rw [← outOfRange_eq_false, Bool.not_eq_false] at h
  simp [State.memRead, h]

/-! ## Storing where each byte can be stored -/

theorem busWriteBytes_storable {s : State} (hs : StoresWf s) (a v : Word) (n : Nat) (hn : n ≤ 4)
    (hst : ∀ b, Span a n b → Storable s b) :
    ∃ t, s.busWriteBytes a v n = .ok t ∧ (∀ i, i < n → t.busReadByte (a + BitVec.ofNat 32 i) = wordByte v i) ∧
      ∀ b, ¬ Span a n b → t.busReadByte b = s.busReadByte b := by
  induction n generalizing s a v with
  | zero => exact ⟨s, rfl, fun i hi => absurd hi (by omega), fun _ _ => rfl⟩
  | succ n ih =>
    obtain ⟨u, hu, hr⟩ := State.busWriteByte_storable (v.setWidth 8) hs (hst a ⟨0, by omega, by simp⟩)
    obtain ⟨t, ht, h1, h2⟩ := ih (s := u) (State.busWriteByte_wf hu hs) (a + 1) (v >>> 8) (by omega) (by
      rintro b ⟨i, hi, rfl⟩
      exact State.storable_congr (State.busWriteByte_ok hu).descriptors (hst _ ⟨i + 1, by omega, add_one_add a i⟩))
    have hlow : ¬ Span (a + 1) n a := by
      rintro ⟨j, hj, hx⟩
      have := congrArg BitVec.toNat (hx.trans (add_one_add a j))
      simp only [BitVec.toNat_add, BitVec.toNat_ofNat] at this
      have := a.isLt
      omega
    refine ⟨t, by simp only [State.busWriteBytes, hu, ht], fun i hi => ?_, fun b hb => ?_⟩
    · cases i with
      | zero => rw [show a + BitVec.ofNat 32 0 = a by simp, h2 _ hlow, hr, if_pos rfl, wordByte_eq]; simp
      | succ i => rw [← add_one_add, h1 i (by omega), wordByte_shift]
    · rw [h2, hr, if_neg]
      · rintro rfl; exact hb ⟨0, by omega, by simp⟩
      · rintro ⟨i, hi, rfl⟩; exact hb ⟨i + 1, by omega, add_one_add a i⟩

theorem memWrite_storable {s : State} (hs : StoresWf s) {a : Word} {w : Width} (v : Word) (h : CanStore s a w) :
    ∃ t, s.memWrite a w v = .ok t ∧ Stored s t a w.bytes v := by
  obtain ⟨t, ht, h1, h2⟩ := busWriteBytes_storable hs a v w.bytes (by cases w <;> decide) h.storable
  have he : s.memWrite a w v = .ok t := by simp [State.memWrite, (outOfRange_eq_false a w).mpr h.inRange, ht]
  exact ⟨t, he, h1, h2, fun b hb => State.memWrite_mem he hs hb, (State.memWrite_ok he).descriptors⟩

theorem canStore_congr {s t : State} (h : descriptors t = descriptors s) {a : Word} {w : Width} (hc : CanStore s a w) :
    CanStore t a w := ⟨hc.inRange, fun b hb => State.storable_congr h (hc.storable b hb)⟩

/-! ## Register transfers -/

theorem storeRegs_storable {s : State} (hs : StoresWf s) (a : Word) (rs : List Reg) (hl : rs.length ≤ 16)
    (hc : CanStoreWords s a rs.length) : ∃ t, s.storeRegs a rs = .ok t ∧ StoredWords s t a rs := by
  suffices h : ∃ t, s.storeRegs a rs = .ok t ∧ (∀ k r, rs[k]? = some r → ∀ i, i < 4 →
      t.busReadByte (a + BitVec.ofNat 32 (4 * k + i)) = wordByte (s.reg r) i) ∧
      ∀ b, ¬ Span a (4 * rs.length) b → t.busReadByte b = s.busReadByte b by
    obtain ⟨t, ht, h1, h2⟩ := h
    exact ⟨t, ht, h1, h2, fun b hb => State.storeRegs_mem ht hs hb, (State.storeRegs_ok ht).descriptors⟩
  induction rs generalizing s a with
  | nil => exact ⟨s, rfl, by simp, fun _ _ => rfl⟩
  | cons r rs ih =>
    simp only [List.length_cons] at hl hc ⊢
    obtain ⟨u, hu, hst⟩ := memWrite_storable hs (s.reg r) (add_zero_mul a ▸ hc 0 (by omega))
    have hd := (State.memWrite_ok hu).descriptors
    obtain ⟨t, ht, h1, h2⟩ := ih (s := u) (State.memWrite_wf hu hs) (a + 4) (by omega) (by
      intro k hk
      rw [add_four_mul]
      exact canStore_congr hd (hc (k + 1) (by omega)))
    refine ⟨t, by simp only [State.storeRegs, hu, ht], ?_, ?_⟩
    · intro k q hq i hi
      cases k with
      | zero =>
        cases hq
        rw [h2, Nat.mul_zero, Nat.zero_add]
        · exact hst.landed i hi
        · rintro ⟨j, hj, hx⟩
          have := congrArg BitVec.toNat (hx.trans (add_four_add a j))
          simp only [BitVec.toNat_add, BitVec.toNat_ofNat] at this
          have := a.isLt
          omega
      | succ k =>
        rw [show 4 * (k + 1) + i = 4 * k + i + 4 by omega, ← add_four_add, h1 k q (by simpa using hq) i hi,
          (State.memWrite_ok hu).reg]
    · intro b hb
      rw [h2, hst.elsewhere]
      · rintro ⟨i, hi, rfl⟩
        simp only [Width.bytes] at hi
        exact hb ⟨i, by omega, rfl⟩
      · rintro ⟨i, hi, rfl⟩
        exact hb ⟨i + 4, by omega, add_four_add a i⟩

theorem loadRegs_loads (s : State) (a : Word) (rs : List Reg) (hn : rs.Nodup) (hc : CanLoadWords a rs.length) :
    ∃ t, s.loadRegs a rs = .ok t ∧ ∀ k r, rs[k]? = some r → t.reg r = wordAt s (a + BitVec.ofNat 32 (4 * k)) := by
  induction rs generalizing s a with
  | nil => exact ⟨s, rfl, by simp⟩
  | cons r rs ih =>
    simp only [List.length_cons] at hc
    rw [List.nodup_cons] at hn
    obtain ⟨t, ht, h1⟩ := ih (s.setReg r (s.busReadBytes a 4)) (a + 4) hn.2 (by
      intro k hk
      rw [add_four_mul]
      exact hc (k + 1) (by omega))
    refine ⟨t, ?_, fun k q hq => ?_⟩
    · simp only [State.loadRegs, memRead_of_canLoad s (add_zero_mul a ▸ hc 0 (by omega))]
      exact ht
    · cases k with
      | zero =>
        cases hq
        rw [(State.loadRegs_ok ht).2 r hn.1, State.reg_setReg_self, busReadBytes_word, add_zero_mul]
      | succ k => rw [h1 k q (by simpa using hq), ← add_four_mul]; rfl

theorem loadRegs_raises (s : State) (a : Word) (rs : List Reg) (k : Nat) (hk : k < rs.length) (hc : CanLoadWords a k)
    (hf : ¬ CanLoad (a + BitVec.ofNat 32 (4 * k)) .word) :
    s.loadRegs a rs = .error (.addressRange (a + BitVec.ofNat 32 (4 * k))) := by
  induction rs generalizing s a k with
  | nil => simp at hk
  | cons r rs ih =>
    cases k with
    | zero =>
      rw [add_zero_mul] at *
      simp only [State.loadRegs, memRead_of_not_canLoad s hf]
    | succ k =>
      simp only [State.loadRegs, memRead_of_canLoad s (add_zero_mul a ▸ hc 0 (by omega))]
      rw [← add_four_mul]
      refine ih _ (a + 4) k (by simpa using hk) (fun j hj => ?_) (by rwa [add_four_mul])
      rw [add_four_mul]
      exact hc (j + 1) (by omega)

/-! ## The address of the instruction that executes -/

theorem iaShort_of_pc {s : State} {ia : Word} (h : s.pc = ia + 2) : s.iaShort = ia := by
  unfold State.iaShort; rw [h]; simp

theorem iaLong_of_pc {s : State} {ia : Word} (h : s.pc = ia + 4) : s.iaLong = ia := by
  unfold State.iaLong; rw [h]; simp

/-! ## Immediates -/

theorem immTimes4_eq {n : Nat} (v : BitVec n) : immTimes4 v = BitVec.ofNat 32 (4 * v.toNat) := by
  apply BitVec.eq_of_toNat_eq
  simp only [immTimes4, BitVec.toNat_setWidth, BitVec.toNat_append, BitVec.toNat_ofNat]
  rw [show v.toNat <<< 2 ||| 0 % 2 ^ 2 = 4 * v.toNat by simp [Nat.shiftLeft_eq]; omega]

theorem immTimes2_eq {n : Nat} (v : BitVec n) : immTimes2 v = BitVec.ofNat 32 (2 * v.toNat) := by
  apply BitVec.eq_of_toNat_eq
  simp only [immTimes2, BitVec.toNat_setWidth, BitVec.toNat_append, BitVec.toNat_ofNat]
  rw [show v.toNat <<< 1 ||| 0 % 2 ^ 1 = 2 * v.toNat by simp [Nat.shiftLeft_eq]; omega]

theorem immPlain_eq {n : Nat} (v : BitVec n) : immPlain v = BitVec.ofNat 32 v.toNat := by
  apply BitVec.eq_of_toNat_eq; simp [immPlain]

end Sys2Proof.Machine
end

