-- ==== Sys2Proof/Laws/Ports.lean ====
section
/-! SUPPORT. What a host transaction on a device can do, said once. -/

namespace Sys2Proof.Machine

open Safety

/-- `dev_input` succeeds only at a volatile device whose input function accepts the event, and then replaces that device's
state and nothing else. -/
theorem State.tryDevInput_ok {s t : State} {i event : Nat} (h : s.tryDevInput i event = .ok t) :
    ∃ d st, s.devices[i]? = some d ∧ d.desc.isVolatile = true ∧ Config.deviceInput d.desc d.state event = .ok st ∧
      t = { s with devices := s.devices.set i { d with state := st.canonical } } := by
  unfold State.tryDevInput at h
  split at h
  · next d hd =>
    split at h
    · next e he =>
      unfold deviceAfterInput at he
      split at he
      · next hv =>
        split at he
        · next st hst => cases he; cases h; exact ⟨d, st, hd, hv, hst, rfl⟩
        · cases he
      · cases he
    · cases h
  · cases h

/-- The state and the reply come from one result: either the call succeeds, or nothing changes and the host is told. -/
theorem State.devInput_cases (s : State) (i event : Nat) :
    (∃ t, s.tryDevInput i event = .ok t ∧ s.devInput i event = t ∧ devInputReply s i event = .done) ∨
      ∃ message, s.tryDevInput i event = .error message ∧ s.devInput i event = s ∧
        devInputReply s i event = .failed message := by
  cases h : s.tryDevInput i event with
  | ok t => exact .inl ⟨t, rfl, by simp [State.devInput, h], by simp [devInputReply, h]⟩
  | error m => exact .inr ⟨m, rfl, by simp [State.devInput, h], by simp [devInputReply, h]⟩

theorem transact_devInput (s : State) (i event : Nat) : transact (.devInput i event) s = some (s.devInput i event) := rfl

theorem reply_devInput (s : State) (i event : Nat) : reply (.devInput i event) s = some (devInputReply s i event) := rfl

/-- A transaction has a reply exactly where it has a result (R311). -/
theorem reply_isSome (tr : Transaction) (s : State) : (reply tr s).isSome = (transact tr s).isSome := by
  simp [reply]

end Sys2Proof.Machine
end

