-- ==== Sys2Proof/Tests/Slice0.lean ====
section
/-! SUPPORT. Tests: ill-formed terms, one word per constructor written out from its encoding, one step per vector of
spec/95_test_vectors.md (V and Q numbers), and for every obligation a witness of its hypotheses. -/

namespace Sys2Proof.Tests

open Sys2Proof.Machine Sys2Proof.Safety

/-! ## Ill-formed terms -/

/-- `LSLS Rd, Rm, #0` has no encoding of its own (R125). -/
theorem test_wf_refuses_lsls_by_zero : (Instr.lslsImm 3 2 0).wellFormed = false := by decide

theorem test_wf_admits_lsls_by_one : (Instr.lslsImm 3 2 1).wellFormed = true := by decide

/-! ## Words written out from the encodings -/

theorem test_decode_shift_add_sub :
    decode 0b00000_00100_010_001 0 = .ok (.lslsImm 1 2 4) ∧
    decode 0b00000_00000_010_001 0 = .ok (.movsReg 1 2) ∧
    decode 0b00001_00000_100_011 0 = .ok (.lsrsImm 3 4 0) ∧
    decode 0b00010_11111_110_101 0 = .ok (.asrsImm 5 6 31) ∧
    decode 0b0001100_011_010_001 0 = .ok (.addsReg 1 2 3) ∧
    decode 0b0001101_011_010_001 0 = .ok (.subsReg 1 2 3) ∧
    decode 0b0001110_111_010_001 0 = .ok (.addsImm3 1 2 7) ∧
    decode 0b0001111_110_010_001 0 = .ok (.subsImm3 1 2 6) ∧
    decode 0b00100_011_10100101 0 = .ok (.movsImm 3 0xA5) ∧
    decode 0b00101_100_10100101 0 = .ok (.cmpImm 4 0xA5) ∧
    decode 0b00110_101_10100101 0 = .ok (.addsImm8 5 0xA5) ∧
    decode 0b00111_110_10100101 0 = .ok (.subsImm8 6 0xA5) := by decide

theorem test_decode_data_processing :
    decode 0b010000_0000_101_010 0 = .ok (.ands 2 5) ∧
    decode 0b010000_0001_101_010 0 = .ok (.eors 2 5) ∧
    decode 0b010000_0010_101_010 0 = .ok (.lslsReg 2 5) ∧
    decode 0b010000_0011_101_010 0 = .ok (.lsrsReg 2 5) ∧
    decode 0b010000_0100_101_010 0 = .ok (.asrsReg 2 5) ∧
    decode 0b010000_0101_101_010 0 = .ok (.adcs 2 5) ∧
    decode 0b010000_0110_101_010 0 = .ok (.sbcs 2 5) ∧
    decode 0b010000_0111_101_010 0 = .ok (.rors 2 5) ∧
    decode 0b010000_1000_101_010 0 = .ok (.tst 2 5) ∧
    decode 0b010000_1001_101_010 0 = .ok (.rsbs 2 5) ∧
    decode 0b010000_1010_101_010 0 = .ok (.cmpReg 2 5) ∧
    decode 0b010000_1011_101_010 0 = .ok (.cmn 2 5) ∧
    decode 0b010000_1100_101_010 0 = .ok (.orrs 2 5) ∧
    decode 0b010000_1101_101_010 0 = .ok (.muls 2 5) ∧
    decode 0b010000_1110_101_010 0 = .ok (.bics 2 5) ∧
    decode 0b010000_1111_101_010 0 = .ok (.mvns 2 5) := by decide

theorem test_decode_high_register :
    decode 0b01000100_1_1100_001 0 = .ok (.addHi 9 12) ∧
    decode 0b01000101_1_0011_000 0 = .ok (.cmpHi 8 3) ∧
    decode 0b01000110_0_1110_101 0 = .ok (.movHi 5 14) ∧
    decode 0b010001110_1110_000 0 = .ok (.bx 14) ∧
    decode 0b010001111_0011_000 0 = .ok (.blx 3) := by decide

theorem test_decode_load_store :
    decode 0b01001_110_10100101 0 = .ok (.ldrLit 6 0xA5) ∧
    decode 0b0101_000_011_010_001 0 = .ok (.strReg 1 2 3) ∧
    decode 0b0101_001_011_010_001 0 = .ok (.strhReg 1 2 3) ∧
    decode 0b0101_010_011_010_001 0 = .ok (.strbReg 1 2 3) ∧
    decode 0b0101_011_011_010_001 0 = .ok (.ldrsbReg 1 2 3) ∧
    decode 0b0101_100_011_010_001 0 = .ok (.ldrReg 1 2 3) ∧
    decode 0b0101_101_011_010_001 0 = .ok (.ldrhReg 1 2 3) ∧
    decode 0b0101_110_011_010_001 0 = .ok (.ldrbReg 1 2 3) ∧
    decode 0b0101_111_011_010_001 0 = .ok (.ldrshReg 1 2 3) ∧
    decode 0b01100_10010_010_001 0 = .ok (.strImm 1 2 18) ∧
    decode 0b01101_10010_010_001 0 = .ok (.ldrImm 1 2 18) ∧
    decode 0b01110_10010_010_001 0 = .ok (.strbImm 1 2 18) ∧
    decode 0b01111_10010_010_001 0 = .ok (.ldrbImm 1 2 18) ∧
    decode 0b10000_10010_010_001 0 = .ok (.strhImm 1 2 18) ∧
    decode 0b10001_10010_010_001 0 = .ok (.ldrhImm 1 2 18) ∧
    decode 0b10010_110_10100101 0 = .ok (.strSp 6 0xA5) ∧
    decode 0b10011_110_10100101 0 = .ok (.ldrSp 6 0xA5) := by decide

theorem test_decode_misc :
    decode 0b10100_110_10100101 0 = .ok (.adr 6 0xA5) ∧
    decode 0b10101_110_10100101 0 = .ok (.addRdSp 6 0xA5) ∧
    decode 0b101100000_1010101 0 = .ok (.addSp 0x55) ∧
    decode 0b101100001_1010101 0 = .ok (.subSp 0x55) ∧
    decode 0b1011001000_101_010 0 = .ok (.sxth 2 5) ∧
    decode 0b1011001001_101_010 0 = .ok (.sxtb 2 5) ∧
    decode 0b1011001010_101_010 0 = .ok (.uxth 2 5) ∧
    decode 0b1011001011_101_010 0 = .ok (.uxtb 2 5) ∧
    decode 0b1011101000_101_010 0 = .ok (.rev 2 5) ∧
    decode 0b1011101001_101_010 0 = .ok (.rev16 2 5) ∧
    decode 0b1011101011_101_010 0 = .ok (.revsh 2 5) ∧
    decode 0b1011111100000000 0 = .ok .nop := by decide

theorem test_decode_multiple_and_branch :
    decode 0b1011010_1_10100101 0 = .ok (.push true 0xA5) ∧
    decode 0b1011110_0_10100101 0 = .ok (.pop false 0xA5) ∧
    decode 0b11000_110_10100101 0 = .ok (.stm 6 0xA5) ∧
    decode 0b11001_110_10100101 0 = .ok (.ldm 6 0xA5) ∧
    decode 0b1101_0000_10100101 0 = .ok (.bcond .eq 0xA5) ∧
    decode 0b1101_1101_10100101 0 = .ok (.bcond .le 0xA5) ∧
    decode 0b11100_10100101011 0 = .ok (.b 0b10100101011) ∧
    decode 0b11110_1_0100101101 0b11_0_1_1_10100101011 = .ok (.bl 1 0b0100101101 0 1 0b10100101011) := by decide

theorem test_decode_refused_rows :
    decode 0b10110110011_1_0010 0 = .ok (.cps true) ∧
    decode 0b10111110_10100101 0 = .ok (.bkpt 0xA5) ∧
    decode 0b10111111_0001_0000 0 = .ok .yield ∧
    decode 0b10111111_0010_0000 0 = .ok .wfe ∧
    decode 0b10111111_0011_0000 0 = .ok .wfi ∧
    decode 0b10111111_0100_0000 0 = .ok .sev ∧
    decode 0b11011110_10100101 0 = .ok (.udf 0xA5) ∧
    decode 0b11011111_10100101 0 = .ok (.svc 0xA5) ∧
    decode 0b111100111000_0101 0b10001000_00010000 = .ok (.msr 5 0x10) ∧
    decode 0b1111001111101111 0b1000_0101_00010000 = .ok (.mrs 5 0x10) ∧
    decode 0b1111001110111111 0b100011110100_1111 = .ok (.dsb 15) ∧
    decode 0b1111001110111111 0b100011110101_1111 = .ok (.dmb 15) ∧
    decode 0b1111001110111111 0b100011110110_1111 = .ok (.isb 15) := by decide

/-- The boundary of the two-halfword encodings (R102, R112): the first half alone, with a second half of zeros. -/
theorem test_decode_table_words :
    decodeTableWord 16 0x1888 = some (.addsReg 0 1 2) ∧
    decodeTableWord 32 0xFFFEF7FF = some (.bl 1 0x3FF 1 1 0x7FE) ∧
    decodeTableWord 16 0xF000 = none ∧ decodeTableWord 16 0xB100 = none := by decide

/-! ## The pattern engine: S2, S3 -/

theorem test_pattern_s2 :
    createText "00100XXXXXXXXXXX".toList = .ok 0x2000 ∧
    matchText 0x2105 "00100XXXXXXXXXXX".toList = .ok true ∧
    matchText 0x2905 "00100XXXXXXXXXXX".toList = .ok false := by decide

theorem test_pattern_s3 :
    setBitsText 0x2000 "00000XXX00000000".toList 0xF9 = .ok 0x2100 ∧
    setBitsText 0x4600 "00000000X0000XXX".toList 13 = .ok 0x4685 ∧
    (parsePattern "00000000X0000XXX".toList).map (getBits 0x4685) = .ok 13 ∧
    createText "0010".toList = .error (.wrongLength 4) := by decide

/-! ## One step -/

/-- Four flag bits as the vectors write them. -/
def nzcv (b : BitVec 4) : Flags := ⟨b.getLsbD 3, b.getLsbD 2, b.getLsbD 1, b.getLsbD 0⟩

/-- The reset state with the given PC, flags, registers, memory and devices. -/
def start (ia : Word) (f : Flags) (regs : List (Reg × Word)) (cells : Memory) (devices : List Device) : State :=
  let s : State := { State.reset with flags := f, mem := cells, devices := devices }
  (regs.foldl (fun s r => s.setReg r.1 r.2) s).setReg pcReg ia

/-- One step ends without a fault in a state with the property. -/
def reaches (s : State) (P : State → Bool) : Bool :=
  match step s with
  | .next t => t.run != .faulted && P t
  | _ => false

/-- The fault record a step leaves. -/
def faultOf (s : State) : Option FaultRecord :=
  match step s with
  | .next t => if t.run = .faulted then t.fault else none
  | _ => none

/-- The device `LED` of the vectors. -/
def led : Device := ⟨⟨0x60000100, 0x60000103, false, false, .byteStore, ⟨[], []⟩⟩, ⟨[], []⟩⟩

/-- The device `SW` of the vectors. -/
def sw : Device :=
  ⟨⟨0x60000200, 0x60000203, true, false, .byteStore, ⟨[(0x60000200, 0x0F)], []⟩⟩, ⟨[(0x60000200, 0x0F)], []⟩⟩

def ledAndSw : List Device := [led, sw]

/-- V1: `LSLS R0, R1, #1` -/
theorem test_v1_lsls :
    reaches ((start 0x100 (nzcv 0b0001) [(1, 0x80000001)] [] []).withFetchWord 16 0x0048) (fun t =>
    t.reg 0 == 0x2 && t.pc == 0x102 && t.flags == (nzcv 0b0011)) = true := by decide

/-- V2: `LSLS R0, R1, #31` -/
theorem test_v2_lsls :
    reaches ((start 0x100 (nzcv 0b0000) [(1, 0x3)] [] []).withFetchWord 16 0x07C8) (fun t =>
    t.reg 0 == 0x80000000 && t.pc == 0x102 && t.flags == (nzcv 0b1010)) = true := by decide

/-- V3: `MOVS R0, R1` -/
theorem test_v3_movs :
    reaches ((start 0x100 (nzcv 0b0111) [(1, 0x80000000)] [] []).withFetchWord 16 0x0008) (fun t =>
    t.reg 0 == 0x80000000 && t.pc == 0x102 && t.flags == (nzcv 0b1011)) = true := by decide

/-- V4: `MOVS R0, R0` -/
theorem test_v4_movs :
    reaches ((start 0x100 (nzcv 0b1011) [(0, 0x0)] [] []).withFetchWord 16 0x0000) (fun t =>
    t.reg 0 == 0x0 && t.pc == 0x102 && t.flags == (nzcv 0b0111)) = true := by decide

/-- V5: `LSRS R0, R1, #1` -/
theorem test_v5_lsrs :
    reaches ((start 0x100 (nzcv 0b0001) [(1, 0x80000001)] [] []).withFetchWord 16 0x0848) (fun t =>
    t.reg 0 == 0x40000000 && t.pc == 0x102 && t.flags == (nzcv 0b0011)) = true := by decide

/-- V6: `LSRS R0, R1, #32` -/
theorem test_v6_lsrs :
    reaches ((start 0x100 (nzcv 0b0000) [(1, 0x80000000)] [] []).withFetchWord 16 0x0808) (fun t =>
    t.reg 0 == 0x0 && t.pc == 0x102 && t.flags == (nzcv 0b0110)) = true := by decide

/-- V10: `ASRS R0, R1, #32` -/
theorem test_v10_asrs :
    reaches ((start 0x100 (nzcv 0b0000) [(1, 0x80000000)] [] []).withFetchWord 16 0x1008) (fun t =>
    t.reg 0 == 0xFFFFFFFF && t.pc == 0x102 && t.flags == (nzcv 0b1010)) = true := by decide

/-- V12: `ASRS R0, R1, #4` -/
theorem test_v12_asrs :
    reaches ((start 0x100 (nzcv 0b0000) [(1, 0xFFFFFF08)] [] []).withFetchWord 16 0x1108) (fun t =>
    t.reg 0 == 0xFFFFFFF0 && t.pc == 0x102 && t.flags == (nzcv 0b1010)) = true := by decide

/-- V13: `ADDS R0, R1, R2` -/
theorem test_v13_adds :
    reaches ((start 0x100 (nzcv 0b0000) [(1, 0xFFFFFFFF), (2, 0x1)] [] []).withFetchWord 16 0x1888) (fun t =>
    t.reg 0 == 0x0 && t.pc == 0x102 && t.flags == (nzcv 0b0110)) = true := by decide

/-- V15: `ADDS R0, R1, R2` -/
theorem test_v15_adds :
    reaches ((start 0x100 (nzcv 0b0000) [(1, 0x80000000), (2, 0x80000000)] [] []).withFetchWord 16 0x1888) (fun t =>
    t.reg 0 == 0x0 && t.pc == 0x102 && t.flags == (nzcv 0b0111)) = true := by decide

/-- V17: `SUBS R0, R1, R2` -/
theorem test_v17_subs :
    reaches ((start 0x100 (nzcv 0b0000) [(1, 0x0), (2, 0xA)] [] []).withFetchWord 16 0x1A88) (fun t =>
    t.reg 0 == 0xFFFFFFF6 && t.pc == 0x102 && t.flags == (nzcv 0b1000)) = true := by decide

/-- V19: `SUBS R0, R1, R2` -/
theorem test_v19_subs :
    reaches ((start 0x100 (nzcv 0b0000) [(1, 0x80000000), (2, 0x1)] [] []).withFetchWord 16 0x1A88) (fun t =>
    t.reg 0 == 0x7FFFFFFF && t.pc == 0x102 && t.flags == (nzcv 0b0011)) = true := by decide

/-- V21: `ADDS R2, R1, #3` -/
theorem test_v21_adds :
    reaches ((start 0x100 (nzcv 0b0000) [(1, 0x5)] [] []).withFetchWord 16 0x1CCA) (fun t =>
    t.reg 2 == 0x8 && t.pc == 0x102 && t.flags == (nzcv 0b0000)) = true := by decide

/-- V22: `ADDS R0, R1, #7` -/
theorem test_v22_adds :
    reaches ((start 0x100 (nzcv 0b0000) [(1, 0xFFFFFFF9)] [] []).withFetchWord 16 0x1DC8) (fun t =>
    t.reg 0 == 0x0 && t.pc == 0x102 && t.flags == (nzcv 0b0110)) = true := by decide

/-- V24: `SUBS R0, R1, #1` -/
theorem test_v24_subs :
    reaches ((start 0x100 (nzcv 0b0000) [(1, 0x0)] [] []).withFetchWord 16 0x1E48) (fun t =>
    t.reg 0 == 0xFFFFFFFF && t.pc == 0x102 && t.flags == (nzcv 0b1000)) = true := by decide

/-- V26: `SUBS R0, R1, #7` -/
theorem test_v26_subs :
    reaches ((start 0x100 (nzcv 0b0000) [(1, 0x80000006)] [] []).withFetchWord 16 0x1FC8) (fun t =>
    t.reg 0 == 0x7FFFFFFF && t.pc == 0x102 && t.flags == (nzcv 0b0011)) = true := by decide

/-- V27: `MOVS R1, #5` -/
theorem test_v27_movs :
    reaches ((start 0x100 (nzcv 0b1011) [(1, 0xFFFFFFFF)] [] []).withFetchWord 16 0x2105) (fun t =>
    t.reg 1 == 0x5 && t.pc == 0x102 && t.flags == (nzcv 0b0011)) = true := by decide

/-- V28: `MOVS R0, #0` -/
theorem test_v28_movs :
    reaches ((start 0x100 (nzcv 0b1011) [(0, 0x7)] [] []).withFetchWord 16 0x2000) (fun t =>
    t.reg 0 == 0x0 && t.pc == 0x102 && t.flags == (nzcv 0b0111)) = true := by decide

/-- V30: `CMP R0, #0` -/
theorem test_v30_cmp :
    reaches ((start 0x100 (nzcv 0b0000) [(0, 0x0)] [] []).withFetchWord 16 0x2800) (fun t =>
    t.reg 0 == 0x0 && t.pc == 0x102 && t.flags == (nzcv 0b0110)) = true := by decide

/-- V32: `CMP R0, #1` -/
theorem test_v32_cmp :
    reaches ((start 0x100 (nzcv 0b0000) [(0, 0x80000000)] [] []).withFetchWord 16 0x2801) (fun t =>
    t.reg 0 == 0x80000000 && t.pc == 0x102 && t.flags == (nzcv 0b0011)) = true := by decide

/-- V33: `ADDS R0, #255` -/
theorem test_v33_adds :
    reaches ((start 0x100 (nzcv 0b0000) [(0, 0xFFFFFF01)] [] []).withFetchWord 16 0x30FF) (fun t =>
    t.reg 0 == 0x0 && t.pc == 0x102 && t.flags == (nzcv 0b0110)) = true := by decide

/-- V34: `ADDS R0, #1` -/
theorem test_v34_adds :
    reaches ((start 0x100 (nzcv 0b0000) [(0, 0x7FFFFFFF)] [] []).withFetchWord 16 0x3001) (fun t =>
    t.reg 0 == 0x80000000 && t.pc == 0x102 && t.flags == (nzcv 0b1001)) = true := by decide

/-- V35: `SUBS R1, #1` -/
theorem test_v35_subs :
    reaches ((start 0x100 (nzcv 0b0000) [(1, 0x1)] [] []).withFetchWord 16 0x3901) (fun t =>
    t.reg 1 == 0x0 && t.pc == 0x102 && t.flags == (nzcv 0b0110)) = true := by decide

/-- V36: `SUBS R0, #10` -/
theorem test_v36_subs :
    reaches ((start 0x100 (nzcv 0b0000) [(0, 0x0)] [] []).withFetchWord 16 0x380A) (fun t =>
    t.reg 0 == 0xFFFFFFF6 && t.pc == 0x102 && t.flags == (nzcv 0b1000)) = true := by decide

/-- V37: `ANDS R0, R1` -/
theorem test_v37_ands :
    reaches ((start 0x100 (nzcv 0b0011) [(0, 0xF0F0F0F0), (1, 0xFF00FF00)] [] []).withFetchWord 16 0x4008) (fun t =>
    t.reg 0 == 0xF000F000 && t.pc == 0x102 && t.flags == (nzcv 0b1011)) = true := by decide

/-- V38: `ANDS R0, R1` -/
theorem test_v38_ands :
    reaches ((start 0x100 (nzcv 0b1000) [(0, 0xF0F0F0F), (1, 0xF0F0F0F0)] [] []).withFetchWord 16 0x4008) (fun t =>
    t.reg 0 == 0x0 && t.pc == 0x102 && t.flags == (nzcv 0b0100)) = true := by decide

/-- V39: `EORS R0, R1` -/
theorem test_v39_eors :
    reaches ((start 0x100 (nzcv 0b1010) [(0, 0xAAAAAAAA), (1, 0xAAAAAAAA)] [] []).withFetchWord 16 0x4048) (fun t =>
    t.reg 0 == 0x0 && t.pc == 0x102 && t.flags == (nzcv 0b0110)) = true := by decide

/-- V44: `LSLS R0, R1` -/
theorem test_v44_lsls :
    reaches ((start 0x100 (nzcv 0b0001) [(0, 0x80000001), (1, 0x20)] [] []).withFetchWord 16 0x4088) (fun t =>
    t.reg 0 == 0x0 && t.pc == 0x102 && t.flags == (nzcv 0b0111)) = true := by decide

/-- V47: `LSLS R0, R1` -/
theorem test_v47_lsls :
    reaches ((start 0x100 (nzcv 0b0001) [(0, 0x80000001), (1, 0x100)] [] []).withFetchWord 16 0x4088) (fun t =>
    t.reg 0 == 0x80000001 && t.pc == 0x102 && t.flags == (nzcv 0b1001)) = true := by decide

/-- V53: `LSRS R0, R1` -/
theorem test_v53_lsrs :
    reaches ((start 0x100 (nzcv 0b0001) [(0, 0x80000001), (1, 0x120)] [] []).withFetchWord 16 0x40C8) (fun t =>
    t.reg 0 == 0x0 && t.pc == 0x102 && t.flags == (nzcv 0b0111)) = true := by decide

/-- V50: `LSRS R0, R1` -/
theorem test_v50_lsrs :
    reaches ((start 0x100 (nzcv 0b0001) [(0, 0x80000001), (1, 0x1F)] [] []).withFetchWord 16 0x40C8) (fun t =>
    t.reg 0 == 0x1 && t.pc == 0x102 && t.flags == (nzcv 0b0001)) = true := by decide

/-- V57: `ASRS R0, R1` -/
theorem test_v57_asrs :
    reaches ((start 0x100 (nzcv 0b0001) [(0, 0x80000001), (1, 0x20)] [] []).withFetchWord 16 0x4108) (fun t =>
    t.reg 0 == 0xFFFFFFFF && t.pc == 0x102 && t.flags == (nzcv 0b1011)) = true := by decide

/-- V60: `ASRS R0, R1` -/
theorem test_v60_asrs :
    reaches ((start 0x100 (nzcv 0b0011) [(0, 0x40000000), (1, 0x28)] [] []).withFetchWord 16 0x4108) (fun t =>
    t.reg 0 == 0x0 && t.pc == 0x102 && t.flags == (nzcv 0b0101)) = true := by decide

/-- V67: `ADCS R0, R1` -/
theorem test_v67_adcs :
    reaches ((start 0x100 (nzcv 0b0010) [(0, 0xFFFFFFFF), (1, 0x0)] [] []).withFetchWord 16 0x4148) (fun t =>
    t.reg 0 == 0x0 && t.pc == 0x102 && t.flags == (nzcv 0b0110)) = true := by decide

/-- V68: `ADCS R0, R1` -/
theorem test_v68_adcs :
    reaches ((start 0x100 (nzcv 0b0010) [(0, 0x7FFFFFFF), (1, 0x0)] [] []).withFetchWord 16 0x4148) (fun t =>
    t.reg 0 == 0x80000000 && t.pc == 0x102 && t.flags == (nzcv 0b1001)) = true := by decide

/-- V71: `SBCS R0, R1` -/
theorem test_v71_sbcs :
    reaches ((start 0x100 (nzcv 0b0000) [(0, 0x5), (1, 0x3)] [] []).withFetchWord 16 0x4188) (fun t =>
    t.reg 0 == 0x1 && t.pc == 0x102 && t.flags == (nzcv 0b0010)) = true := by decide

/-- V73: `SBCS R0, R1` -/
theorem test_v73_sbcs :
    reaches ((start 0x100 (nzcv 0b0000) [(0, 0x80000000), (1, 0x0)] [] []).withFetchWord 16 0x4188) (fun t =>
    t.reg 0 == 0x7FFFFFFF && t.pc == 0x102 && t.flags == (nzcv 0b0011)) = true := by decide

/-- V64: `RORS R0, R1` -/
theorem test_v64_rors :
    reaches ((start 0x100 (nzcv 0b0001) [(0, 0x80000001), (1, 0x20)] [] []).withFetchWord 16 0x41C8) (fun t =>
    t.reg 0 == 0x80000001 && t.pc == 0x102 && t.flags == (nzcv 0b1011)) = true := by decide

/-- V63: `RORS R0, R1` -/
theorem test_v63_rors :
    reaches ((start 0x100 (nzcv 0b0001) [(0, 0x80000001), (1, 0x4)] [] []).withFetchWord 16 0x41C8) (fun t =>
    t.reg 0 == 0x18000000 && t.pc == 0x102 && t.flags == (nzcv 0b0001)) = true := by decide

/-- V74: `TST R0, R1` -/
theorem test_v74_tst :
    reaches ((start 0x100 (nzcv 0b0011) [(0, 0x80000000), (1, 0xFFFFFFFF)] [] []).withFetchWord 16 0x4208) (fun t =>
    t.reg 0 == 0x80000000 && t.pc == 0x102 && t.flags == (nzcv 0b1011)) = true := by decide

/-- V75: `TST R0, R1` -/
theorem test_v75_tst :
    reaches ((start 0x100 (nzcv 0b1000) [(0, 0xF), (1, 0xF0)] [] []).withFetchWord 16 0x4208) (fun t =>
    t.reg 0 == 0xF && t.pc == 0x102 && t.flags == (nzcv 0b0100)) = true := by decide

/-- V76: `RSBS R0, R1, #0` -/
theorem test_v76_rsbs :
    reaches ((start 0x100 (nzcv 0b0000) [(1, 0x1)] [] []).withFetchWord 16 0x4248) (fun t =>
    t.reg 0 == 0xFFFFFFFF && t.pc == 0x102 && t.flags == (nzcv 0b1000)) = true := by decide

/-- V78: `RSBS R0, R1, #0` -/
theorem test_v78_rsbs :
    reaches ((start 0x100 (nzcv 0b0000) [(1, 0x80000000)] [] []).withFetchWord 16 0x4248) (fun t =>
    t.reg 0 == 0x80000000 && t.pc == 0x102 && t.flags == (nzcv 0b1001)) = true := by decide

/-- V80: `CMP R0, R1` -/
theorem test_v80_cmp :
    reaches ((start 0x100 (nzcv 0b0000) [(0, 0x80000000), (1, 0x1)] [] []).withFetchWord 16 0x4288) (fun t =>
    t.reg 0 == 0x80000000 && t.pc == 0x102 && t.flags == (nzcv 0b0011)) = true := by decide

/-- V81: `CMP R0, R1` -/
theorem test_v81_cmp :
    reaches ((start 0x100 (nzcv 0b0000) [(0, 0x0), (1, 0x1)] [] []).withFetchWord 16 0x4288) (fun t =>
    t.reg 0 == 0x0 && t.pc == 0x102 && t.flags == (nzcv 0b1000)) = true := by decide

/-- V82: `CMN R0, R1` -/
theorem test_v82_cmn :
    reaches ((start 0x100 (nzcv 0b0000) [(0, 0xFFFFFFFF), (1, 0x1)] [] []).withFetchWord 16 0x42C8) (fun t =>
    t.reg 0 == 0xFFFFFFFF && t.pc == 0x102 && t.flags == (nzcv 0b0110)) = true := by decide

/-- V83: `CMN R0, R1` -/
theorem test_v83_cmn :
    reaches ((start 0x100 (nzcv 0b0000) [(0, 0x7FFFFFFF), (1, 0x1)] [] []).withFetchWord 16 0x42C8) (fun t =>
    t.reg 0 == 0x7FFFFFFF && t.pc == 0x102 && t.flags == (nzcv 0b1001)) = true := by decide

/-- V84: `ORRS R0, R1` -/
theorem test_v84_orrs :
    reaches ((start 0x100 (nzcv 0b0011) [(0, 0x80000000), (1, 0x1)] [] []).withFetchWord 16 0x4308) (fun t =>
    t.reg 0 == 0x80000001 && t.pc == 0x102 && t.flags == (nzcv 0b1011)) = true := by decide

/-- V87: `MULS R0, R1, R0` -/
theorem test_v87_muls :
    reaches ((start 0x100 (nzcv 0b0000) [(0, 0xFFFFFFFF), (1, 0xFFFFFFFF)] [] []).withFetchWord 16 0x4348) (fun t =>
    t.reg 0 == 0x1 && t.pc == 0x102 && t.flags == (nzcv 0b0000)) = true := by decide

/-- V89: `MULS R0, R1, R0` -/
theorem test_v89_muls :
    reaches ((start 0x100 (nzcv 0b1011) [(0, 0x3), (1, 0x0)] [] []).withFetchWord 16 0x4348) (fun t =>
    t.reg 0 == 0x0 && t.pc == 0x102 && t.flags == (nzcv 0b0111)) = true := by decide

/-- V91: `BICS R0, R1` -/
theorem test_v91_bics :
    reaches ((start 0x100 (nzcv 0b0010) [(0, 0xFF), (1, 0xF)] [] []).withFetchWord 16 0x4388) (fun t =>
    t.reg 0 == 0xF0 && t.pc == 0x102 && t.flags == (nzcv 0b0010)) = true := by decide

/-- V92: `BICS R0, R1` -/
theorem test_v92_bics :
    reaches ((start 0x100 (nzcv 0b1001) [(0, 0xFFFFFFFF), (1, 0xFFFFFFFF)] [] []).withFetchWord 16 0x4388) (fun t =>
    t.reg 0 == 0x0 && t.pc == 0x102 && t.flags == (nzcv 0b0101)) = true := by decide

/-- V93: `MVNS R0, R1` -/
theorem test_v93_mvns :
    reaches ((start 0x100 (nzcv 0b0001) [(1, 0x7FFFFFFF)] [] []).withFetchWord 16 0x43C8) (fun t =>
    t.reg 0 == 0x80000000 && t.pc == 0x102 && t.flags == (nzcv 0b1001)) = true := by decide

/-- V94: `MVNS R0, R1` -/
theorem test_v94_mvns :
    reaches ((start 0x100 (nzcv 0b1010) [(1, 0xFFFFFFFF)] [] []).withFetchWord 16 0x43C8) (fun t =>
    t.reg 0 == 0x0 && t.pc == 0x102 && t.flags == (nzcv 0b0110)) = true := by decide

/-- V95: `ADD R8, R1` -/
theorem test_v95_add :
    reaches ((start 0x100 (nzcv 0b1111) [(8, 0xFFFFFFFF), (1, 0x2)] [] []).withFetchWord 16 0x4488) (fun t =>
    t.reg 8 == 0x1 && t.pc == 0x102 && t.flags == (nzcv 0b1111)) = true := by decide

/-- V100: `ADD PC, R0` -/
theorem test_v100_add :
    reaches ((start 0x100 (nzcv 0b0000) [(0, 0x21)] [] []).withFetchWord 16 0x4487) (fun t =>
    t.pc == 0x124 && t.flags == (nzcv 0b0000)) = true := by decide

/-- V102: `CMP R8, R1` -/
theorem test_v102_cmp :
    reaches ((start 0x100 (nzcv 0b0000) [(8, 0x5), (1, 0x5)] [] []).withFetchWord 16 0x4588) (fun t =>
    t.pc == 0x102 && t.flags == (nzcv 0b0110)) = true := by decide

/-- V104: `CMP R1, R2 (high-register format)` -/
theorem test_v104_cmp :
    faultOf ((start 0x100 (nzcv 0b0000) [] [] []).withFetchWord 16 0x4511) = some ⟨.unpredictable 0x4511, 0x100⟩ := by decide

/-- V107: `MOV R0, PC` -/
theorem test_v107_mov :
    reaches ((start 0x100 (nzcv 0b0000) [] [] []).withFetchWord 16 0x4678) (fun t =>
    t.reg 0 == 0x104 && t.pc == 0x102 && t.flags == (nzcv 0b0000)) = true := by decide

/-- V109: `MOV PC, LR` -/
theorem test_v109_mov :
    reaches ((start 0x100 (nzcv 0b0000) [(14, 0x200)] [] []).withFetchWord 16 0x46F7) (fun t =>
    t.pc == 0x200 && t.flags == (nzcv 0b0000)) = true := by decide

/-- V111: `BX LR` -/
theorem test_v111_bx :
    reaches ((start 0x100 (nzcv 0b0000) [(14, 0x201)] [] []).withFetchWord 16 0x4770) (fun t =>
    t.reg 14 == 0x201 && t.pc == 0x200 && t.flags == (nzcv 0b0000)) = true := by decide

/-- V112: `BX LR` -/
theorem test_v112_bx :
    faultOf ((start 0x100 (nzcv 0b0000) [(14, 0x200)] [] []).withFetchWord 16 0x4770) = some ⟨.interwork 0x200, 0x100⟩ := by decide

/-- V117: `BLX LR` -/
theorem test_v117_blx :
    reaches ((start 0x100 (nzcv 0b0000) [(14, 0x401)] [] []).withFetchWord 16 0x47F0) (fun t =>
    t.reg 14 == 0x103 && t.pc == 0x400 && t.flags == (nzcv 0b0000)) = true := by decide

/-- V118: `BLX PC` -/
theorem test_v118_blx :
    faultOf ((start 0x100 (nzcv 0b0000) [] [] []).withFetchWord 16 0x47F8) = some ⟨.unpredictable 0x47F8, 0x100⟩ := by decide

/-- V120: `LDR R1, [PC, #8]` -/
theorem test_v120_ldr :
    reaches ((start 0x102 (nzcv 0b0000) [] [(0x10C, 0xBE), (0x10D, 0xBA), (0x10E, 0xFE), (0x10F, 0xCA)] []).withFetchWord 16 0x4902) (fun t =>
    t.reg 1 == 0xCAFEBABE && t.pc == 0x104 && t.flags == (nzcv 0b0000)) = true := by decide

/-- V121: `STR R0, [R1, R2]` -/
theorem test_v121_str :
    reaches ((start 0x100 (nzcv 0b0000) [(1, 0x20000000), (2, 0x10), (0, 0xA1B2C3D4)] [(0x20000010, 0xE5), (0x20000011, 0xF6), (0x20000012, 0x99), (0x20000013, 0x88)] []).withFetchWord 16 0x5088) (fun t =>
    t.pc == 0x102 && t.flags == (nzcv 0b0000) && t.memRead 0x20000010 .word == .ok 0xA1B2C3D4) = true := by decide

/-- V135: `STR R0, [R1, R2]` -/
theorem test_v135_str :
    reaches ((start 0x100 (nzcv 0b0000) [(0, 0xA1B2C3D4), (1, 0x20000000), (2, 0x1)] [] []).withFetchWord 16 0x5088) (fun t =>
    t.pc == 0x102 && t.flags == (nzcv 0b0000) && t.memRead 0x20000000 .word == .ok 0xB2C3D400 && t.memRead 0x20000004 .word == .ok 0xA1) = true := by decide

/-- V122: `STRH R0, [R1, R2]` -/
theorem test_v122_strh :
    reaches ((start 0x100 (nzcv 0b0000) [(1, 0x20000000), (2, 0x10), (0, 0xA1B2C3D4)] [(0x20000010, 0xE5), (0x20000011, 0xF6), (0x20000012, 0x99), (0x20000013, 0x88)] []).withFetchWord 16 0x5288) (fun t =>
    t.pc == 0x102 && t.flags == (nzcv 0b0000) && t.memRead 0x20000010 .word == .ok 0x8899C3D4) = true := by decide

/-- V123: `STRB R0, [R1, R2]` -/
theorem test_v123_strb :
    reaches ((start 0x100 (nzcv 0b0000) [(1, 0x20000000), (2, 0x10), (0, 0xA1B2C3D4)] [(0x20000010, 0xE5), (0x20000011, 0xF6), (0x20000012, 0x99), (0x20000013, 0x88)] []).withFetchWord 16 0x5488) (fun t =>
    t.pc == 0x102 && t.flags == (nzcv 0b0000) && t.memRead 0x20000010 .word == .ok 0x8899F6D4) = true := by decide

/-- V124: `LDRSB R0, [R1, R2]` -/
theorem test_v124_ldrsb :
    reaches ((start 0x100 (nzcv 0b0000) [(1, 0x20000000), (2, 0x10), (0, 0xA1B2C3D4)] [(0x20000010, 0xE5), (0x20000011, 0xF6), (0x20000012, 0x99), (0x20000013, 0x88)] []).withFetchWord 16 0x5688) (fun t =>
    t.reg 0 == 0xFFFFFFE5 && t.pc == 0x102 && t.flags == (nzcv 0b0000)) = true := by decide

/-- V134: `LDR R0, [R1, R2]` -/
theorem test_v134_ldr :
    reaches ((start 0x100 (nzcv 0b0000) [(1, 0x20000000), (2, 0x1)] [(0x20000000, 0x11), (0x20000001, 0x22), (0x20000002, 0x33), (0x20000003, 0x44), (0x20000004, 0x55), (0x20000005, 0x66), (0x20000006, 0x77), (0x20000007, 0x88)] []).withFetchWord 16 0x5888) (fun t =>
    t.reg 0 == 0x55443322 && t.pc == 0x102 && t.flags == (nzcv 0b0000)) = true := by decide

/-- V132: `LDR R0, [R1, R2]` -/
theorem test_v132_ldr :
    faultOf ((start 0x100 (nzcv 0b0000) [(1, 0xFFFFFFF0), (2, 0xE)] [] []).withFetchWord 16 0x5888) = some ⟨.addressRange 0xFFFFFFFE, 0x100⟩ := by decide

/-- V126: `LDRH R0, [R1, R2]` -/
theorem test_v126_ldrh :
    reaches ((start 0x100 (nzcv 0b0000) [(1, 0x20000000), (2, 0x10), (0, 0xA1B2C3D4)] [(0x20000010, 0xE5), (0x20000011, 0xF6), (0x20000012, 0x99), (0x20000013, 0x88)] []).withFetchWord 16 0x5A88) (fun t =>
    t.reg 0 == 0xF6E5 && t.pc == 0x102 && t.flags == (nzcv 0b0000)) = true := by decide

/-- V133: `LDRH R0, [R1, R2]` -/
theorem test_v133_ldrh :
    reaches ((start 0x100 (nzcv 0b0000) [(1, 0xFFFFFFF0), (2, 0xE)] [(0xFFFFFFFE, 0x34), (0xFFFFFFFF, 0x12)] []).withFetchWord 16 0x5A88) (fun t =>
    t.reg 0 == 0x1234 && t.pc == 0x102 && t.flags == (nzcv 0b0000)) = true := by decide

/-- V131: `LDRB R0, [R1, R2]` -/
theorem test_v131_ldrb :
    reaches ((start 0x100 (nzcv 0b0000) [(1, 0xFFFFFFFF), (2, 0x2)] [(0x1, 0x5A)] []).withFetchWord 16 0x5C88) (fun t =>
    t.reg 0 == 0x5A && t.pc == 0x102 && t.flags == (nzcv 0b0000)) = true := by decide

/-- V128: `LDRSH R0, [R1, R2]` -/
theorem test_v128_ldrsh :
    reaches ((start 0x100 (nzcv 0b0000) [(1, 0x20000000), (2, 0x10), (0, 0xA1B2C3D4)] [(0x20000010, 0xE5), (0x20000011, 0xF6), (0x20000012, 0x99), (0x20000013, 0x88)] []).withFetchWord 16 0x5E88) (fun t =>
    t.reg 0 == 0xFFFFF6E5 && t.pc == 0x102 && t.flags == (nzcv 0b0000)) = true := by decide

/-- V130: `LDRSH R0, [R1, R2]` -/
theorem test_v130_ldrsh :
    reaches ((start 0x100 (nzcv 0b0000) [(1, 0x20000000), (2, 0x10), (0, 0xA1B2C3D4)] [(0x20000010, 0xFF), (0x20000011, 0x7F)] []).withFetchWord 16 0x5E88) (fun t =>
    t.reg 0 == 0x7FFF && t.pc == 0x102 && t.flags == (nzcv 0b0000)) = true := by decide

/-- V137: `STR R0, [R1, #124]` -/
theorem test_v137_str :
    reaches ((start 0x100 (nzcv 0b0000) [(1, 0x20000000), (2, 0x10), (0, 0xA1B2C3D4)] [] []).withFetchWord 16 0x67C8) (fun t =>
    t.pc == 0x102 && t.flags == (nzcv 0b0000) && t.memRead 0x2000007C .word == .ok 0xA1B2C3D4) = true := by decide

/-- V139: `LDR R1, [R1, #0]` -/
theorem test_v139_ldr :
    reaches ((start 0x100 (nzcv 0b0000) [(1, 0x20000000)] [(0x20000000, 0x55)] []).withFetchWord 16 0x6809) (fun t =>
    t.reg 1 == 0x55 && t.pc == 0x102 && t.flags == (nzcv 0b0000)) = true := by decide

/-- V140: `STRB R0, [R1, #0x1F]` -/
theorem test_v140_strb :
    reaches ((start 0x100 (nzcv 0b0000) [(1, 0x20000000), (2, 0x10), (0, 0xA1B2C3D4)] [] []).withFetchWord 16 0x77C8) (fun t =>
    t.pc == 0x102 && t.flags == (nzcv 0b0000) && t.memRead 0x2000001C .word == .ok 0xD4000000) = true := by decide

/-- V150: `STR R0, [R1, #0]` -/
theorem test_v150_str :
    reaches ((start 0x100 (nzcv 0b0000) [(1, 0x60000102), (0, 0x11223344)] [] ledAndSw).withFetchWord 16 0x6008) (fun t =>
    t.busReadByte 0x60000102 == 0x44 && t.busReadByte 0x60000103 == 0x33 && t.mem.read 0x60000104 == 0x22 && t.mem.read 0x60000105 == 0x11) = true := by decide

/-- V141: `LDRB R0, [R1, #31]` -/
theorem test_v141_ldrb :
    reaches ((start 0x100 (nzcv 0b0000) [(1, 0x20000000), (2, 0x10), (0, 0xA1B2C3D4)] [(0x2000001F, 0x80)] []).withFetchWord 16 0x7FC8) (fun t =>
    t.reg 0 == 0x80 && t.pc == 0x102 && t.flags == (nzcv 0b0000)) = true := by decide

/-- V151: `LDR R0, [R1, #0]` -/
theorem test_v151_ldr :
    reaches ((start 0x100 (nzcv 0b0000) [(1, 0x600001FE)] [] ledAndSw).withFetchWord 16 0x6808) (fun t =>
    t.reg 0 == 0xF0000) = true := by decide

/-- V142: `STRH R0, [R1, #62]` -/
theorem test_v142_strh :
    reaches ((start 0x100 (nzcv 0b0000) [(1, 0x20000000), (2, 0x10), (0, 0xA1B2C3D4)] [] []).withFetchWord 16 0x87C8) (fun t =>
    t.pc == 0x102 && t.flags == (nzcv 0b0000) && t.memRead 0x2000003C .word == .ok 0xC3D40000) = true := by decide

/-- V143: `LDRH R0, [R1, #62]` -/
theorem test_v143_ldrh :
    reaches ((start 0x100 (nzcv 0b0000) [(1, 0x20000000), (2, 0x10), (0, 0xA1B2C3D4)] [(0x2000003E, 0x1), (0x2000003F, 0x80)] []).withFetchWord 16 0x8FC8) (fun t =>
    t.reg 0 == 0x8001 && t.pc == 0x102 && t.flags == (nzcv 0b0000)) = true := by decide

/-- V144: `STR R2, [SP, #12]` -/
theorem test_v144_str :
    reaches ((start 0x100 (nzcv 0b0000) [(13, 0x20001000), (2, 0xDEADBEEF)] [] []).withFetchWord 16 0x9203) (fun t =>
    t.reg 13 == 0x20001000 && t.pc == 0x102 && t.flags == (nzcv 0b0000) && t.memRead 0x2000100C .word == .ok 0xDEADBEEF) = true := by decide

/-- V145: `LDR R2, [SP, #1020]` -/
theorem test_v145_ldr :
    reaches ((start 0x100 (nzcv 0b0000) [(13, 0x20001000)] [(0x200013FC, 0x78), (0x200013FD, 0x56), (0x200013FE, 0x34), (0x200013FF, 0x12)] []).withFetchWord 16 0x9AFF) (fun t =>
    t.reg 2 == 0x12345678 && t.pc == 0x102 && t.flags == (nzcv 0b0000)) = true := by decide

/-- V146: `LDR R2, [SP, #0]` -/
theorem test_v146_ldr :
    reaches ((start 0x100 (nzcv 0b0000) [(13, 0x20001001)] [(0x20001000, 0x11), (0x20001001, 0x22), (0x20001002, 0x33), (0x20001003, 0x44), (0x20001004, 0x55), (0x20001005, 0x66), (0x20001006, 0x77), (0x20001007, 0x88)] []).withFetchWord 16 0x9A00) (fun t =>
    t.reg 2 == 0x55443322 && t.pc == 0x102 && t.flags == (nzcv 0b0000)) = true := by decide

/-- V149: `STRB R0, [R1, #0]` -/
theorem test_v149_strb :
    faultOf ((start 0x100 (nzcv 0b0000) [(1, 0x60000200), (0, 0x1)] [] ledAndSw).withFetchWord 16 0x7008) = some ⟨.readOnlyWrite 0x60000200, 0x100⟩ := by decide

/-- V155: `ADR R0, <0x10C>` -/
theorem test_v155_adr :
    reaches ((start 0x102 (nzcv 0b0000) [] [] []).withFetchWord 16 0xA002) (fun t =>
    t.reg 0 == 0x10C && t.pc == 0x104 && t.flags == (nzcv 0b0000)) = true := by decide

/-- V158: `ADD R1, SP, #1020` -/
theorem test_v158_add :
    reaches ((start 0x100 (nzcv 0b0000) [(13, 0xFFFFFF00)] [] []).withFetchWord 16 0xA9FF) (fun t =>
    t.reg 1 == 0x2FC && t.pc == 0x102 && t.flags == (nzcv 0b0000)) = true := by decide

/-- V160: `ADD SP, #508` -/
theorem test_v160_add :
    reaches ((start 0x100 (nzcv 0b0000) [(13, 0xFFFFFF00)] [] []).withFetchWord 16 0xB07F) (fun t =>
    t.reg 13 == 0xFC && t.pc == 0x102 && t.flags == (nzcv 0b0000)) = true := by decide

/-- V162: `SUB SP, #508` -/
theorem test_v162_sub :
    reaches ((start 0x100 (nzcv 0b0000) [(13, 0x4)] [] []).withFetchWord 16 0xB0FF) (fun t =>
    t.reg 13 == 0xFFFFFE08 && t.pc == 0x102 && t.flags == (nzcv 0b0000)) = true := by decide

/-- V164: `SXTH R0, R1` -/
theorem test_v164_sxth :
    reaches ((start 0x100 (nzcv 0b0101) [(1, 0x12348680)] [] []).withFetchWord 16 0xB208) (fun t =>
    t.reg 0 == 0xFFFF8680 && t.pc == 0x102 && t.flags == (nzcv 0b0101)) = true := by decide

/-- V165: `SXTB R0, R1` -/
theorem test_v165_sxtb :
    reaches ((start 0x100 (nzcv 0b0101) [(1, 0x12348680)] [] []).withFetchWord 16 0xB248) (fun t =>
    t.reg 0 == 0xFFFFFF80 && t.pc == 0x102 && t.flags == (nzcv 0b0101)) = true := by decide

/-- V166: `UXTH R0, R1` -/
theorem test_v166_uxth :
    reaches ((start 0x100 (nzcv 0b0101) [(1, 0x12348680)] [] []).withFetchWord 16 0xB288) (fun t =>
    t.reg 0 == 0x8680 && t.pc == 0x102 && t.flags == (nzcv 0b0101)) = true := by decide

/-- V167: `UXTB R0, R1` -/
theorem test_v167_uxtb :
    reaches ((start 0x100 (nzcv 0b0101) [(1, 0x12348680)] [] []).withFetchWord 16 0xB2C8) (fun t =>
    t.reg 0 == 0x80 && t.pc == 0x102 && t.flags == (nzcv 0b0101)) = true := by decide

/-- V170: `REV R0, R1` -/
theorem test_v170_rev :
    reaches ((start 0x100 (nzcv 0b1010) [(1, 0x11223384)] [] []).withFetchWord 16 0xBA08) (fun t =>
    t.reg 0 == 0x84332211 && t.pc == 0x102 && t.flags == (nzcv 0b1010)) = true := by decide

/-- V171: `REV16 R0, R1` -/
theorem test_v171_rev16 :
    reaches ((start 0x100 (nzcv 0b1010) [(1, 0x11223384)] [] []).withFetchWord 16 0xBA48) (fun t =>
    t.reg 0 == 0x22118433 && t.pc == 0x102 && t.flags == (nzcv 0b1010)) = true := by decide

/-- V172: `REVSH R0, R1` -/
theorem test_v172_revsh :
    reaches ((start 0x100 (nzcv 0b1010) [(1, 0x11223384)] [] []).withFetchWord 16 0xBAC8) (fun t =>
    t.reg 0 == 0xFFFF8433 && t.pc == 0x102 && t.flags == (nzcv 0b1010)) = true := by decide

/-- V174: `NOP` -/
theorem test_v174_nop :
    reaches ((start 0x100 (nzcv 0b1010) [] [] []).withFetchWord 16 0xBF00) (fun t =>
    t.pc == 0x102 && t.flags == (nzcv 0b1010)) = true := by decide

/-- V177: `PUSH {R0, LR}` -/
theorem test_v177_push :
    reaches ((start 0x100 (nzcv 0b0000) [(13, 0x20001000), (0, 0xAA), (14, 0x123)] [] []).withFetchWord 16 0xB501) (fun t =>
    t.reg 13 == 0x20000FF8 && t.pc == 0x102 && t.flags == (nzcv 0b0000) && t.memRead 0x20000FF8 .word == .ok 0xAA && t.memRead 0x20000FFC .word == .ok 0x123) = true := by decide

/-- V187: `PUSH {R0, R1}` -/
theorem test_v187_push :
    reaches ((start 0x100 (nzcv 0b0000) [(13, 0x20001002), (0, 0xAABBCCDD), (1, 0x11223344)] [] []).withFetchWord 16 0xB403) (fun t =>
    t.reg 13 == 0x20000FFA && t.pc == 0x102 && t.flags == (nzcv 0b0000) && t.memRead 0x20000FFA .word == .ok 0xAABBCCDD && t.memRead 0x20000FFE .word == .ok 0x11223344) = true := by decide

/-- V181: `POP {R0, R1, PC}` -/
theorem test_v181_pop :
    reaches ((start 0x100 (nzcv 0b0000) [(13, 0x20000FF4)] [(0x20000FF4, 0xA), (0x20000FF8, 0xB), (0x20000FFC, 0x1), (0x20000FFD, 0x3)] []).withFetchWord 16 0xBD03) (fun t =>
    t.reg 0 == 0xA && t.reg 1 == 0xB && t.reg 13 == 0x20001000 && t.pc == 0x300 && t.flags == (nzcv 0b0000)) = true := by decide

/-- V180: `POP {PC}` -/
theorem test_v180_pop :
    faultOf ((start 0x100 (nzcv 0b0000) [(13, 0x20000FFC)] [(0x20000FFD, 0x2)] []).withFetchWord 16 0xBD00) = some ⟨.interwork 0x200, 0x100⟩ := by decide

/-- V189: `STM R0!, {R0, R1}` -/
theorem test_v189_stm :
    reaches ((start 0x100 (nzcv 0b0000) [(0, 0x20000000), (1, 0x11)] [] []).withFetchWord 16 0xC003) (fun t =>
    t.reg 0 == 0x20000008 && t.pc == 0x102 && t.flags == (nzcv 0b0000) && t.memRead 0x20000000 .word == .ok 0x20000000 && t.memRead 0x20000004 .word == .ok 0x11) = true := by decide

/-- V190: `STM R1!, {R0, R1}` -/
theorem test_v190_stm :
    faultOf ((start 0x100 (nzcv 0b0000) [(1, 0x20000000), (0, 0xAA)] [] []).withFetchWord 16 0xC103) = some ⟨.unpredictable 0xC103, 0x100⟩ := by decide

/-- V192: `LDM R1!, {R2, R3}` -/
theorem test_v192_ldm :
    reaches ((start 0x100 (nzcv 0b0000) [(1, 0x20000000)] [(0x20000000, 0xA), (0x20000004, 0xB)] []).withFetchWord 16 0xC90C) (fun t =>
    t.reg 1 == 0x20000008 && t.reg 2 == 0xA && t.reg 3 == 0xB && t.pc == 0x102 && t.flags == (nzcv 0b0000)) = true := by decide

/-- V193: `LDM R1, {R1, R2}` -/
theorem test_v193_ldm :
    reaches ((start 0x100 (nzcv 0b0000) [(1, 0x20000000)] [(0x20000000, 0xA), (0x20000004, 0xB)] []).withFetchWord 16 0xC906) (fun t =>
    t.reg 1 == 0xA && t.reg 2 == 0xB && t.pc == 0x102 && t.flags == (nzcv 0b0000)) = true := by decide

/-- V194: `LDM R1!, {R0}` -/
theorem test_v194_ldm :
    reaches ((start 0x100 (nzcv 0b0000) [(1, 0xFFFFFFFC)] [(0xFFFFFFFC, 0x5)] []).withFetchWord 16 0xC901) (fun t =>
    t.reg 0 == 0x5 && t.reg 1 == 0x0 && t.pc == 0x102 && t.flags == (nzcv 0b0000)) = true := by decide

/-- V199: `BHI <0x10A>` -/
theorem test_v199_bhi :
    reaches ((start 0x100 (nzcv 0b0010) [] [] []).withFetchWord 16 0xD803) (fun t =>
    t.pc == 0x10A && t.flags == (nzcv 0b0010)) = true := by decide

/-- V205: `BLE <0x10A>` -/
theorem test_v205_ble :
    reaches ((start 0x100 (nzcv 0b1001) [] [] []).withFetchWord 16 0xDD03) (fun t =>
    t.pc == 0x102 && t.flags == (nzcv 0b1001)) = true := by decide

/-- V211: `SVC #1` -/
theorem test_v211_svc :
    faultOf ((start 0x100 (nzcv 0b0000) [] [] []).withFetchWord 16 0xDF01) = some ⟨.undefined 0xDF01 none, 0x100⟩ := by decide

/-- V210: `UDF #0` -/
theorem test_v210_udf :
    faultOf ((start 0x100 (nzcv 0b0000) [] [] []).withFetchWord 16 0xDE00) = some ⟨.undefined 0xDE00 none, 0x100⟩ := by decide

/-- V215: `B <0x804> (imm11=0x400)` -/
theorem test_v215_b :
    reaches ((start 0x1000 (nzcv 0b0000) [] [] []).withFetchWord 16 0xE400) (fun t =>
    t.pc == 0x804 && t.flags == (nzcv 0b0000)) = true := by decide

/-- V222: `BL <0x01000102> (largest)` -/
theorem test_v222_bl :
    reaches ((start 0x100 (nzcv 0b0000) [] [] []).withFetchWord 32 0xD7FFF3FF) (fun t =>
    t.reg 14 == 0x105 && t.pc == 0x1000102 && t.flags == (nzcv 0b0000)) = true := by decide

/-- V225: `BL <0x00000002>` -/
theorem test_v225_bl :
    reaches ((start 0xFFFFFFFE (nzcv 0b0000) [] [] []).withFetchWord 32 0xF800F000) (fun t =>
    t.reg 14 == 0x3 && t.pc == 0x2 && t.flags == (nzcv 0b0000)) = true := by decide

/-- V226: `MRS R0, APSR (refused)` -/
theorem test_v226_mrs :
    faultOf ((start 0x100 (nzcv 0b0000) [] [] []).withFetchWord 32 0x8000F3EF) = some ⟨.undefined 0xF3EF (some 0x8000), 0x100⟩ := by decide

/-- V227: `DSB (refused)` -/
theorem test_v227_dsb :
    faultOf ((start 0x100 (nzcv 0b0000) [] [] []).withFetchWord 32 0x8F4FF3BF) = some ⟨.undefined 0xF3BF (some 0x8F4F), 0x100⟩ := by decide

/-- V231: `CPSID i (refused)` -/
theorem test_v231_cpsid :
    faultOf ((start 0x100 (nzcv 0b0000) [] [] []).withFetchWord 16 0xB672) = some ⟨.undefined 0xB672 none, 0x100⟩ := by decide

/-- V232: `BKPT #0 (refused)` -/
theorem test_v232_bkpt :
    faultOf ((start 0x100 (nzcv 0b0000) [] [] []).withFetchWord 16 0xBE00) = some ⟨.undefined 0xBE00 none, 0x100⟩ := by decide

/-- V233: `WFI (refused)` -/
theorem test_v233_wfi :
    faultOf ((start 0x100 (nzcv 0b0000) [] [] []).withFetchWord 16 0xBF30) = some ⟨.undefined 0xBF30 none, 0x100⟩ := by decide

/-! ## The sequencer and the host's transactions: Q1 to Q10, the overlap of section 2.5 -/

/-- The image of halfwords at address 0. -/
def halfwords : Word → List Halfword → List (Word × Byte)
  | _, [] => []
  | a, h :: hs => (a, h.extractLsb' 0 8) :: (a + 1, h.extractLsb' 8 8) :: halfwords (a + 2) hs

/-- The transactions one after the other, from the reset state. -/
def after (trs : List Transaction) : Option State := trs.foldlM (fun s tr => transact tr s) State.reset

def holds (s : Option State) (P : State → Bool) : Bool :=
  match s with
  | some t => P t
  | none => false

/-- Q2 -/
theorem test_q2_sentinel_again :
    holds (after [.load (halfwords 0 [0xFFFF]) 0, .step, .step]) (fun t =>
      t.completed && t.run == .halted && t.pc == 0 && !stepReply t) = true := by decide

/-- Q3 -/
theorem test_q3_step :
    holds (after [.load (halfwords 0 [0x2105, 0xFFFF]) 0]) stepReply = true ∧
    holds (after [.load (halfwords 0 [0x2105, 0xFFFF]) 0, .step]) (fun t =>
      t.reg 1 == 5 && t.pc == 2 && t.run == .halted && !t.completed) = true := by decide

/-- Q3, Q1: the reply of `step`, and that of the other calls. -/
theorem test_replies :
    (after [.load (halfwords 0 [0x2105, 0xFFFF]) 0]).bind (reply .step) = some (.more true) ∧
    (after [.load (halfwords 0 [0xFFFF]) 0]).bind (reply .step) = some (.more false) ∧
    reply .halt State.reset = some .done ∧ reply .turn State.reset = none := by decide

/-- Q5 -/
theorem test_q5_reset :
    after [.load (halfwords 0 [0x2105, 0xFFFF]) 0, .step, .reset] = after [.load (halfwords 0 [0x2105, 0xFFFF]) 0] := by
  decide

/-- Q6 -/
theorem test_q6_halt :
    holds (after [.load (halfwords 0 [0xE7FE]) 0, .run, .turn, .halt, .turn]) (fun t =>
      t.run == .halted && t.pc == 0 && !t.completed && !t.haltReq) = true := by decide

/-- Q7, Q8 -/
theorem test_q7_fault_in_run :
    holds (after [.load (halfwords 0 [0x4770]) 0, .run, .turn]) (fun t =>
      (status t).fault == some (3, [0], 0) && t.run == .faulted && !stepReply t) = true := by decide

/-- Q9 -/
theorem test_q9_reset_leaves_faulted :
    holds (after [.load (halfwords 0 [0x4770]) 0, .run, .turn, .reset]) (fun t =>
      t.run == .idle && t.fault == none && t.pc == 0) = true := by decide

/-- Q10: empty memory decodes to `MOVS R0, R0`. -/
theorem test_q10_empty_memory :
    reaches State.reset (fun t => t.flags == nzcv 0b0100 && t.pc == 2 && t.run == .halted) = true := by decide

/-- A later pair of the image wins (R85). -/
theorem test_image_order : State.imageMemory [(4, 0x11), (4, 0x22), (2, 0)] = [(4, 0x22)] := by decide

theorem test_write_zero_unlists : Memory.write [(2, 0x11), (4, 0x22), (6, 0x33)] 4 0 = [(2, 0x11), (6, 0x33)] := by decide

/-- The overlapping devices A and B of section 2.5. -/
def aAndB : List Device :=
  [⟨⟨0x1000, 0x10FF, true, false, .byteStore, ⟨[], []⟩⟩, ⟨[], []⟩⟩,
    ⟨⟨0x1080, 0x117F, false, false, .byteStore, ⟨[], []⟩⟩, ⟨[], []⟩⟩]

theorem test_overlap_first_device_wins :
    faultOf ((start 0x100 (nzcv 0) [(0, 0x77), (1, 0x1090)] [] aAndB).withFetchWord 16 0x7008) =
      some ⟨.readOnlyWrite 0x1090, 0x100⟩ ∧
    findDevice (start 0 (nzcv 0) [] [] aAndB) 0x1090 = .ok ⟨0x1000, 0x10FF, true, false, .byteStore, ⟨[], []⟩⟩ := by
  decide

/-! ## Witnesses: states and operands that meet the hypotheses of each obligation -/

/-- `s` with the one halfword instruction at 0x100 under way: PC is 0x102. -/
def running (regs : List (Reg × Word)) (cells : Memory) (devices : List Device) : State :=
  start 0x102 (nzcv 0) regs cells devices

theorem inv_start {ia : Word} (h : ia.getLsbD 0 = false) (f : Flags) : MachineInv (start ia f [] [] []) where
  memory := Memory.wf_nil
  devices := by simp [start, State.reset]
  entryEven := by simp [start, State.reset]
  imageClear := by simp [start, State.reset]
  pcEven _ := by rw [show (start ia f [] [] []).pc = ia from State.reg_setReg_self _ _ _]; exact h
  faultRecord := by simp [start, State.reset]

theorem inv_regs {s : State} (h : MachineInv s) (r : Reg) (v : Word) (hr : r ≠ pcReg) : MachineInv (s.setReg r v) :=
  ⟨h.memory, h.devices, h.entryEven, h.imageClear,
    fun hf => by rw [State.pc, State.reg_setReg_ne _ _ hr.symm]; exact h.pcEven hf, h.faultRecord⟩

theorem storable_without_devices {s : State} (h : s.devices = []) (a : Word) : Storable s a := by
  intro d hd
  simp [State.owner, h] at hd

theorem canStore_without_devices {s : State} (h : s.devices = []) {a : Word} {w : Width}
    (hr : a.toNat + w.bytes - 1 ≤ 0xFFFFFFFF) : CanStore s a w := ⟨hr, fun b _ => storable_without_devices h b⟩

theorem witness_encoding :
    (Instr.lslsImm 7 0 31).wellFormed = true ∧ (Instr.bl 1 0x3FF 1 1 0x7FE).wellFormed = true ∧
    decode 0x07C7 0 = .ok (.lslsImm 7 0 31) ∧ decode 0xF7FF 0xFFFE = .ok (.bl 1 0x3FF 1 1 0x7FE) := by decide

theorem witness_row_selection :
    (selectRow 0x003F 0 = some 1 ∧ decode 0x003F 0 = .ok (.movsReg 7 7)) ∧
    (selectRow 0x4701 0 = none ∧ (start 0x102 (nzcv 0) [] [] []).pc = 0x100 + (if isLong 0x4701 then 4 else 2)) ∧
    (selectRow 0xDF01 0 = some 74 ∧ (opcodeTable[74]?).map OpcodeRow.admitted = some false) ∧
    (selectRow 0xF3BF 0x8F6F = some 81 ∧ (opcodeTable[81]?).map OpcodeRow.admitted = some false ∧
      (start 0x104 (nzcv 0) [] [] []).pc = 0x100 + (if isLong 0xF3BF then 4 else 2)) ∧
    (selectRow 0xD0FE 0 = some 72 ∧ (opcodeTable[72]?).map OpcodeRow.admitted = some true) := by decide

theorem witness_overlap :
    (opcodeTable[0]?).map (·.fits 0x0038 0) = some true ∧ (opcodeTable[1]?).map (·.fits 0x0038 0) = some true ∧
    (opcodeTable[72]?).map (·.fits 0xDEFF 0) = some true ∧ (opcodeTable[73]?).map (·.fits 0xDEFF 0) = some true ∧
    (opcodeTable[72]?).map (·.fits 0xDF00 0) = some true ∧ (opcodeTable[74]?).map (·.fits 0xDF00 0) = some true := by decide

theorem witness_length :
    isLong 0xE7FF = false ∧ isLong 0xE800 = true ∧ decode 0xE7FF 0 = .ok (.b 0x7FF) ∧
    decode 0xF000 0xD000 = .ok (.bl 0 0 0 0 0) := by decide

theorem witness_unallocated :
    (isLong 0x4701 = false ∧ Unallocated 0x4701) ∧ (isLong 0xBFFF = false ∧ Unallocated 0xBFFF) ∧
    (isLong 0xBF40 = false ∧ ¬ Unallocated 0xBF40) ∧ (isLong 0xB662 = false ∧ ¬ Unallocated 0xB662) := by
  refine ⟨⟨by decide, ?_⟩, ⟨by decide, ?_⟩, ⟨by decide, ?_⟩, by decide, ?_⟩ <;> (unfold Unallocated; decide)

theorem witness_two_halfwords :
    let s := start 0x102 (nzcv 0) [] [(0x103, 0xC0)] []
    (0x100 : Word).getLsbD 0 = false ∧ isLong 0xF000 = true ∧
    ¬ ((0xF000 : Halfword).extractLsb' 11 5 = 0b11110 ∧ (0xC000 : Halfword).getLsbD 15 = true ∧
      (0xC000 : Halfword).getLsbD 14 = true ∧ (0xC000 : Halfword).getLsbD 12 = true) ∧
    HalfwordAt s (0x100 + 2) 0xC000 :=
  ⟨by decide, by decide, by decide, ⟨by decide, by decide⟩⟩

theorem witness_refused :
    (start 0x102 (nzcv 0) [] [] []).pc = 0x100 + 2 ∧ (0x01 : BitVec 8) ≠ 0 ∧
    (refusedByName (.svc 0xFF) = true ∧ (start 0x102 (nzcv 0) [] [] []).pc = 0x100 + byteLength (.svc 0xFF)) ∧
    (refusedByName (.isb 15) = true ∧ (start 0x104 (nzcv 0) [] [] []).pc = 0x100 + byteLength (.isb 15)) := by decide

/-- A valid pattern with a split field. -/
theorem witness_pattern :
    parsePattern "00000000X0000XXX".toList = .ok
      [.any, .any, .any, .zero, .zero, .zero, .zero, .any, .zero, .zero, .zero, .zero, .zero, .zero, .zero, .zero] ∧
    Pattern.valid
      [.any, .any, .any, .zero, .zero, .zero, .zero, .any, .zero, .zero, .zero, .zero, .zero, .zero, .zero, .zero] = true ∧
    parsePattern "0000000000000002".toList = .error (.badCharacter '2') ∧
    parsePattern "X".toList = .error (.wrongLength 1) := by decide

theorem witness_step :
    let s := start 0x100 (nzcv 0) [] [(0x100, 0x05), (0x101, 0x21)] []
    let u := start 0xFFFFFFFE (nzcv 0) [] [(1, 0xD0), (0xFFFFFFFF, 0xF0)] []
    (s.run ≠ .faulted ∧ (s.run = .running → s.haltReq = false) ∧ s.pc.getLsbD 0 = false ∧
      (Instr.movsImm 1 5).wellFormed = true ∧ InstructionAt s s.pc (.movsImm 1 5) ∧
      encodeFirst (.movsImm 1 5) ≠ s.endOfCode) ∧
    (u.run ≠ .faulted ∧ (u.run = .running → u.haltReq = false) ∧ u.pc.getLsbD 0 = false ∧
      (Instr.bl 0 0 0 0 0).wellFormed = true ∧ InstructionAt u u.pc (.bl 0 0 0 0 0) ∧
      encodeFirst (.bl 0 0 0 0 0) ≠ u.endOfCode) := by
  refine ⟨⟨by decide, by decide, by decide, by decide, ⟨⟨by decide, by decide⟩, fun h hh => by cases hh⟩, by decide⟩,
    ⟨by decide, by decide, by decide, by decide, ⟨⟨by decide, by decide⟩, fun h hh => ?_⟩, by decide⟩⟩
  cases hh
  exact ⟨by decide, by decide⟩

theorem witness_sentinel :
    let s := start 0x100 (nzcv 0) [] [(0x100, 0xFF), (0x101, 0xFF)] []
    let u := start 0x100 (nzcv 0) [] [(0x101, 0xF0), (0x102, 0xFF), (0x103, 0xFF)] []
    (s.pc.getLsbD 0 = false ∧ HalfwordAt s s.pc s.endOfCode ∧ s.run ≠ .faulted ∧
      (s.run = .running → s.haltReq = false) ∧ s.completed = false ∧ ∃ t, step s = .next t ∧ t.completed = true) ∧
    (u.pc.getLsbD 0 = false ∧ HalfwordAt u u.pc 0xF000 ∧ 0xF000 ≠ u.endOfCode ∧ isLong 0xF000 = true ∧
      HalfwordAt u (u.pc + 2) u.endOfCode) :=
  ⟨⟨by decide, ⟨by decide, by decide⟩, by decide, by decide, by decide, ⟨_, rfl, by decide⟩⟩,
    ⟨by decide, ⟨by decide, by decide⟩, by decide, by decide, ⟨by decide, by decide⟩⟩⟩

theorem witness_run_states :
    (State.reset.run = .idle ∧ atSentinel State.reset = false) ∧
    atSentinel (start 0x100 (nzcv 0) [] [(0x100, 0xFF), (0x101, 0xFF)] []) = true ∧
    ({ State.reset with run := .halted } : State).run = .halted ∧
    ({ State.reset with run := .running, haltReq := true } : State).run = .running ∧
    (State.reset.takeFault (.undefined 0xDE00 none) 0).run = .faulted ∧
    holds (transact .reset (State.reset.takeFault (.undefined 0xDE00 none) 0)) (fun t => t.run == .idle) = true := by
  decide

/-- Both ends of a `step` outside a sentinel: with a fault and without one. -/
theorem witness_step_ends :
    reaches (start 0x100 (nzcv 0) [] [(0x100, 0x05), (0x101, 0x21)] []) (fun _ => true) = true ∧
    faultOf (start 0x100 (nzcv 0) [] [(0x101, 0xDE)] []) = some ⟨.undefined 0xDE00 none, 0x100⟩ := by decide

theorem witness_fetch : (0xFFFFFFFE : Word).getLsbD 0 = false := by decide

theorem witness_load :
    State.reset.run ≠ .running ∧ (0 : Reg) ≠ pcReg ∧ (lrReg : Reg) ≠ pcReg ∧
    Transaction.allowed (.load [(0, 0x05), (1, 0x21)] 0xFFFFFFFE) State.reset :=
  ⟨by decide, by decide, by decide, by decide, by simp [State.reset]⟩

theorem witness_invariant :
    MachineInv (start 0x100 (nzcv 0) [] [] []) ∧
    (∃ t, step (start 0x100 (nzcv 0) [] [] []) = .next t) ∧
    (∃ t, transact (.load [(0, 0x05), (1, 0x21)] 0xFFFFFFFE) (start 0x100 (nzcv 0) [] [] []) = some t) :=
  ⟨inv_start (by decide) _, ⟨_, rfl⟩, ⟨_, rfl⟩⟩

/-- An instruction that completes, one that faults, and a cycle that faults. -/
theorem witness_fault_entry :
    (∃ t, exec (.movsImm 1 5) (start 0x102 (nzcv 0) [] [] []) = .next t ∧ t.run ≠ .faulted) ∧
    (start 0x102 (nzcv 0) [] [] []).pc = 0x100 + byteLength (.movsImm 1 5) ∧
    (∃ t, exec (.udf 0) (start 0x102 (nzcv 0) [] [] []) = .next t ∧ t.run = .faulted) ∧
    (∃ t, instructionCycle (start 0x101 (nzcv 0) [] [(0x101, 0x4F), (0x102, 0x47)] []) = .next t ∧ t.run = .faulted) ∧
    (start 0x101 (nzcv 0) [] [] []).run ≠ .faulted ∧ (start 0x101 (nzcv 0) [] [] []).run ≠ .running ∧
    (∃ t, instructionCycle { start 0x100 (nzcv 0) [] [(0x101, 0xDE)] [] with run := .running } = .next t ∧
      t.run = .faulted) :=
  ⟨⟨_, rfl, by decide⟩, by decide, ⟨_, rfl, rfl⟩, ⟨_, rfl, by decide⟩, by decide, by decide, ⟨_, rfl, by decide⟩⟩

/-- One instruction for each clause of the rules over all instructions. -/
theorem witness_rules_over_instructions :
    (writesPc (.ldm 0 0xFF) = false ∧ writesPc (.movHi 14 15) = false ∧ writesPc (.movHi 15 14) = true) ∧
    ¬ CondHolds .eq (nzcv 0) ∧
    (lrReg : Reg) ≠ pcReg ∧ lrReg ∉ destinations (.pop true 0xFF) ∧
    storesMemory (.pop true 0xFF) = false ∧
    (start 0x102 (nzcv 0) [] [] []).pc.getLsbD 0 = false ∧
    (∃ t, exec (.ldm 0 0xFF) (start 0x102 (nzcv 0) [] [] []) = .next t ∧ t.run ≠ .faulted) ∧
    (∃ t, exec (.bcond .eq 0x7F) (start 0x102 (nzcv 0) [] [] []) = .next t ∧ t.run ≠ .faulted) :=
  ⟨by decide, by simp [CondHolds, nzcv], by decide, by decide, by decide, by decide, ⟨_, rfl, by decide⟩,
    ⟨_, rfl, by decide⟩⟩

/-- The first and the last byte of a device, the byte after it, and the first of two devices that share a byte. -/
theorem witness_owner :
    let s := start 0x100 (nzcv 0) [] [] ledAndSw
    OwnedBy s 0x60000100 [] led [sw] ∧ OwnedBy s 0x60000203 [led] sw [] ∧ Unowned s 0x60000204 ∧ s.mem.wf ∧
    (led.desc.isReadOnly = false ∧ led.desc.behaviour = .byteStore ∧ led.state.bytes.wf) ∧
    sw.desc.isReadOnly = true ∧ led.write 0x60000100 0xAA = some ⟨[(0x60000100, 0xAA)], []⟩ := by
  refine ⟨⟨rfl, by simp, by simp [Responsible, led]⟩, ⟨rfl, ?_, by simp [Responsible, sw]⟩, ?_, Memory.wf_nil,
    ⟨rfl, rfl, Memory.wf_nil⟩, rfl, by decide⟩
  · intro e he
    simp only [List.mem_singleton] at he
    subst he
    simp [Responsible, led]
  · intro d hd
    simp only [start, ledAndSw, State.reset, List.foldl_nil, State.devices_setReg, List.mem_cons, List.not_mem_nil,
      or_false] at hd
    rcases hd with rfl | rfl <;> simp [Responsible, led, sw]

theorem witness_access :
    (0xFFFFFFFF < (0xFFFFFFFD : Word).toNat + Width.word.bytes - 1) ∧
    ((0xFFFFFFFC : Word).toNat + Width.word.bytes - 1 ≤ 0xFFFFFFFF) ∧
    ((0xFFFFFFFF : Word).toNat + Width.byte.bytes - 1 ≤ 0xFFFFFFFF) ∧
    ((0xFFFFFFFE : Word).toNat + 1 ≤ 0xFFFFFFFF) ∧ ((0xFFFFFFFC : Word).toNat + 3 ≤ 0xFFFFFFFF) := by decide

theorem witness_mixed_widths :
    MachineInv (start 0x102 (nzcv 0) [] [] []) ∧ CanStore (start 0x102 (nzcv 0) [] [] []) 0xFFFFFFFC .word :=
  ⟨inv_start (by decide) _, canStore_without_devices rfl (by decide)⟩

theorem witness_high_register :
    (start 0x102 (nzcv 0) [] [] []).pc = 0x100 + 2 ∧ ¬ ((15 : Reg) = 15 ∧ (14 : Reg) = 15) ∧
    ((8 : Reg).val ≥ 8 ∧ (8 : Reg) ≠ 15 ∧ (7 : Reg) ≠ 15) := by decide

theorem witness_branch_exchange :
    let s := running [(14, 0x201), (3, 0x300)] [] []
    s.pc = 0x100 + 2 ∧ (operandAt s 0x100 14).getLsbD 0 = true ∧ (operandAt s 0x100 15).getLsbD 0 = false ∧
    (14 : Reg) ≠ 15 ∧ (s.reg 14).getLsbD 0 = true ∧ (s.reg 3).getLsbD 0 = false := by decide

/-- Both clauses of a load at the edge of the address space. -/
theorem witness_loads :
    (running [] [] []).pc = 0x100 + 2 ∧ CanLoad 0xFFFFFFFC .word ∧ ¬ CanLoad 0xFFFFFFFD .word ∧
    CanLoad 0xFFFFFFFE .half ∧ ¬ CanLoad 0xFFFFFFFF .half ∧ CanLoad 0xFFFFFFFF .byte := by
  unfold CanLoad
  decide

/-- The three clauses of a store: it lands, it is taken, it is refused. -/
theorem witness_stores :
    MachineInv (start 0x102 (nzcv 0) [] [] []) ∧ CanStore (start 0x102 (nzcv 0) [] [] []) 0xFFFFFFFC .word ∧
    (∃ t, (start 0x102 (nzcv 0) [] [] ledAndSw).memWrite 0x60000102 .word 0x11223344 = .ok t) ∧
    (start 0x102 (nzcv 0) [] [] ledAndSw).memWrite 0x600001FE .word 0xAABBCCDD = .error (.readOnlyWrite 0x60000200) ∧
    (start 0x102 (nzcv 0) [] [] []).memWrite 0xFFFFFFFF .half 0 = .error (.addressRange 0xFFFFFFFF) :=
  ⟨inv_start (by decide) _, canStore_without_devices rfl (by decide), ⟨_, rfl⟩, by decide, by decide⟩

/-- A state with SP at 0, so that `PUSH` stores at the top of the address space, and LR odd. -/
def atTop : State := (start 0x102 (nzcv 0) [] [] []).setReg 14 0x201

theorem inv_atTop : MachineInv atTop := inv_regs (inv_start (by decide) _) _ _ (by decide)

theorem witness_push :
    atTop.pc = 0x100 + 2 ∧ (true = true ∨ (0x80 : BitVec 8) ≠ 0) ∧ MachineInv atTop ∧
    CanStoreWords atTop (atTop.reg 13 - BitVec.ofNat 32 (4 * (registersOf (pushSet true 0x80)).length))
      (registersOf (pushSet true 0x80)).length ∧
    (atTop.reg 14).getLsbD 0 = true ∧
    (∃ t, atTop.storeRegs 0xFFFFFFF8 [7, 14] = .ok t) ∧
    atTop.storeRegs 0xFFFFFFFA [7, 14] = .error (.addressRange 0xFFFFFFFE) := by
  refine ⟨by decide, .inl rfl, inv_atTop, fun k hk => ?_, by decide, ⟨_, rfl⟩, by decide⟩
  have hk : k < 2 := hk
  refine canStore_without_devices rfl ?_
  interval_cases k <;> decide

theorem witness_pop :
    let s := running [(13, 0xFFFFFFF4)] [(0xFFFFFFF8, 0x01), (0xFFFFFFF9, 0x03)] []
    s.pc = 0x100 + 2 ∧ CanLoadWords (s.reg 13) (1 + 1) ∧ (wordAt s (s.reg 13 + BitVec.ofNat 32 (4 * 1))).getLsbD 0 = true ∧
    (wordAt s (s.reg 13)).getLsbD 0 = false ∧
    (CanLoadWords 0xFFFFFFF8 2 ∧ ¬ CanLoad (0xFFFFFFF9 + BitVec.ofNat 32 (4 * 1)) .word) := by
  refine ⟨by decide, fun k hk => ?_, by decide, by decide, fun k hk => ?_, by unfold CanLoad; decide⟩ <;>
    (unfold CanLoad; have hk : k < 2 := hk; interval_cases k <;> decide)

theorem witness_stm_ldm :
    let s := running [] [] []
    s.pc = 0x100 + 2 ∧ ¬ Unpredictable (.stm 1 0x06) ∧ (0x80 : BitVec 8) ≠ 0 ∧ MachineInv (start 0x102 (nzcv 0) [] [] []) ∧
    CanStoreWords s 0xFFFFFFF8 2 ∧ CanLoadWords 0xFFFFFFF8 2 ∧ ¬ CanLoad (0xFFFFFFF9 + BitVec.ofNat 32 (4 * 1)) .word ∧
    low 3 ∉ registersOf (lowSet 0x06) := by
  refine ⟨by decide, ?_, by decide, inv_start (by decide) _, fun k hk => ?_, fun k hk => ?_, by unfold CanLoad; decide,
    by decide⟩
  · rintro (h | ⟨-, r, hr, h⟩)
    · exact absurd h (by decide)
    · have hr : r < 1 := hr
      interval_cases r
      exact absurd h (by decide)
  · refine canStore_without_devices rfl ?_
    interval_cases k <;> decide
  · unfold CanLoad
    interval_cases k <;> decide

theorem witness_branches :
    (start 0x102 (nzcv 0) [] [] []).pc = 0x100 + 2 ∧ (start 0x104 (nzcv 0) [] [] []).pc = 0x100 + 4 ∧
    CondHolds .ne (nzcv 0) ∧ ¬ CondHolds .eq (nzcv 0) := by simp [CondHolds, nzcv]; decide

theorem witness_unpredictable :
    (Unpredictable (.blx 15) ∧ (start 0x102 (nzcv 0) [] [] []).pc = 0x100 + byteLength (.blx 15)) ∧
    Unpredictable (.cmpHi 7 7) ∧ Unpredictable (.stm 1 0x03) ∧ ¬ Unpredictable (.cmpHi 7 8) ∧ State.reset.run ≠ .faulted ∧
    (∃ t, exec (.bx 15) (start 0x102 (nzcv 0) [] [] []) = .next t ∧ t.run = .faulted) :=
  ⟨⟨rfl, by decide⟩, .inl (by decide), .inr ⟨by decide, 0, by decide, by decide⟩, by unfold Unpredictable; decide,
    by decide, ⟨_, rfl, rfl⟩⟩

/-- A fault record of each code. -/
theorem witness_observation :
    (State.reset.takeFault (.undefined 0xF3EF (some 0x8000)) 0x100).fault =
      some ⟨.undefined 0xF3EF (some 0x8000), 0x100⟩ ∧
    (State.reset.takeFault (.deviceError 0xFFFFFFFF) 0x100).fault = some ⟨.deviceError 0xFFFFFFFF, 0x100⟩ ∧
    State.reset.fault = none := ⟨rfl, rfl, rfl⟩

/-- A volatile device. -/
def knob : Device := ⟨⟨0x60000300, 0x60000300, true, true, .byteStore, ⟨[], []⟩⟩, ⟨[], []⟩⟩

theorem witness_device_input :
    (start 0x100 (nzcv 0) [] [] [sw, knob]).devices[0]? = some sw ∧ sw.desc.isVolatile = false ∧ (0 : Nat) ≠ 1 ∧
    (start 0x100 (nzcv 0) [] [] [sw, knob]).devices[1]? = some knob ∧ knob.desc.isVolatile = true ∧
    (start 0x100 (nzcv 0) [] [] [sw, knob]).devices[2]? = none ∧
    Unowned (start 0x100 (nzcv 0) [] [] []) 0x6000ABCD :=
  ⟨rfl, rfl, by decide, rfl, rfl, rfl, fun d hd => by simp [start, State.reset] at hd⟩

end Sys2Proof.Tests
end

section
/-! PROOFS. How every instruction ends (R11, R305), and what every step and every transaction of the host keep. -/

namespace Sys2Proof.Machine

open Safety

/-! ## What an instruction that completes does -/

/-- What holds of every instruction that completes without a fault: the sequencer, the image, the parameters and the
devices' descriptors are as before, the byte stores stay in canonical form, and PC stays even (R26). -/
structure Completed (s t : State) : Prop where
  control     : ControlKept s t
  descriptors : descriptors t = descriptors s
  stores      : StoresWf s → StoresWf t
  pcEven      : s.pc.getLsbD 0 = false → t.pc.getLsbD 0 = false

namespace Completed

theorem refl (s : State) : Completed s s := ⟨controlKept_refl s, rfl, id, id⟩

theorem trans {s t u : State} (h : Completed s t) (k : Completed t u) : Completed s u where
  control :=
    ⟨k.control.run.trans h.control.run, k.control.haltReq.trans h.control.haltReq,
      k.control.completed.trans h.control.completed, k.control.fault.trans h.control.fault,
      k.control.image.trans h.control.image, k.control.entry.trans h.control.entry,
      k.control.endOfCode.trans h.control.endOfCode, k.control.freeCount.trans h.control.freeCount⟩
  descriptors := k.descriptors.trans h.descriptors
  stores := k.stores ∘ h.stores
  pcEven := k.pcEven ∘ h.pcEven

/-- Writing registers completes where PC stays even. -/
theorem of_onlyRegs {s t : State} (h : OnlyRegs s t) (hpc : s.pc.getLsbD 0 = false → t.pc.getLsbD 0 = false) :
    Completed s t where
  control := h.control
  descriptors := congrArg (List.map Device.desc) h.memory.devices
  stores hs := ⟨h.memory.mem ▸ hs.mem, h.memory.devices ▸ hs.devices⟩
  pcEven := hpc

theorem of_onlyStores {s t : State} (h : OnlyStores s t) (hwf : StoresWf s → StoresWf t) : Completed s t where
  control := h.control
  descriptors := h.descriptors
  stores := hwf
  pcEven := (congrArg (·.getLsbD 0) (h.reg pcReg)).trans

theorem setReg (s : State) {r : Reg} (hr : r ≠ pcReg) (v : Word) : Completed s (s.setReg r v) :=
  of_onlyRegs (.setReg s r v) (congrArg (·.getLsbD 0) (State.reg_setReg_ne s v hr.symm)).trans

theorem branchTo (s : State) (v : Word) : Completed s (s.branchTo v) :=
  of_onlyRegs (.branchTo s v) fun _ => by simp [State.pc, State.reg_branchTo]

theorem setFlags (s : State) (f : Flags) : Completed s (s.setFlags f) :=
  ⟨controlKept_of_eq rfl, rfl, fun hs => ⟨hs.mem, hs.devices⟩, id⟩

theorem writeAlu (s : State) {r : Reg} (hr : r ≠ pcReg) (o : AluOut) : Completed s (s.writeAlu r o) :=
  (setReg s hr _).trans (setFlags _ _)

theorem writeResult (s : State) (r : Reg) (v : Word) : Completed s (s.writeResult r v) := by
  unfold State.writeResult
  split
  · exact branchTo s v
  · exact setReg s ‹_› v

theorem branchExchange {s t : State} {v : Word} (h : s.branchExchange v = .ok t) : Completed s t := by
  obtain ⟨-, rfl⟩ := State.branchExchange_ok h
  exact branchTo s v

theorem memWrite {s t : State} {a v : Word} {w : Width} (h : s.memWrite a w v = .ok t) : Completed s t :=
  of_onlyStores (State.memWrite_ok h) (State.memWrite_wf h)

theorem storeRegs {s t : State} {a : Word} {rs : List Reg} (h : s.storeRegs a rs = .ok t) : Completed s t :=
  of_onlyStores (State.storeRegs_ok h) (State.storeRegs_wf h)

/-- The register transfers of `POP` and `LDM` load low registers only, so PC is not among them. -/
theorem loadLowRegs {s t : State} {a : Word} {rs : List LowReg} (h : s.loadRegs a (rs.map low) = .ok t) :
    Completed s t := by
  obtain ⟨honly, hkept⟩ := State.loadRegs_ok h
  have hpc : t.reg pcReg = s.reg pcReg := hkept pcReg (by simp)
  exact of_onlyRegs honly (congrArg (·.getLsbD 0) hpc).trans

theorem popPc {s t : State} {a : Word} (h : popPc s a = .ok t) : Completed s t := by
  unfold Machine.popPc at h
  split at h
  · exact branchExchange h
  · cases h

theorem pushBody {s t : State} {m : Bool} {list : BitVec 8} (h : pushBody s m list = .ok t) : Completed s t := by
  simp only [Machine.pushBody] at h
  split at h
  · next hu => cases h; exact (storeRegs hu).trans (setReg _ (by decide) _)
  · cases h

theorem popBody {s t : State} {p : Bool} {list : BitVec 8} (h : popBody s p list = .ok t) : Completed s t := by
  simp only [Machine.popBody] at h
  split at h
  · cases h
  · next hloaded =>
    split at h
    · split at h
      · next hpopped =>
        cases h
        exact ((loadLowRegs hloaded).trans (popPc hpopped)).trans (setReg _ (by decide) _)
      · cases h
    · cases h
      exact (loadLowRegs hloaded).trans (setReg _ (by decide) _)

theorem stmBody {s t : State} {rn : LowReg} {list : BitVec 8} (h : stmBody s rn list = .ok t) : Completed s t := by
  simp only [Machine.stmBody] at h
  split at h
  · next hu => cases h; exact (storeRegs hu).trans (setReg _ (low_ne_pc rn) _)
  · cases h

theorem ldmBody {s t : State} {rn : LowReg} {list : BitVec 8} (h : ldmBody s rn list = .ok t) : Completed s t := by
  simp only [Machine.ldmBody] at h
  split at h
  · next hloaded =>
    cases h
    split
    · exact loadLowRegs hloaded
    · exact (loadLowRegs hloaded).trans (setReg _ (low_ne_pc rn) _)
  · cases h

end Completed

/-! ## How every instruction ends -/

/-- The two ways an instruction at `ia` ends: it completes, or it enters a fault (R11, R305). -/
def CompletesOrFaults (s : State) (ia : Word) (r : Result) : Prop :=
  Ends r fun t => Completed s t ∨ ∃ f, t = s.takeFault f ia

namespace CompletesOrFaults

theorem next {s t : State} {ia : Word} (h : Completed s t) : CompletesOrFaults s ia (.next t) := ⟨t, rfl, .inl h⟩

theorem takeFault (s : State) (f : Fault) (ia : Word) : CompletesOrFaults s ia (.next (s.takeFault f ia)) :=
  ⟨_, rfl, .inr ⟨f, rfl⟩⟩

theorem completeShort {s : State} {r : Except Fault State} (h : ∀ t, r = .ok t → Completed s t) :
    CompletesOrFaults s s.iaShort (completeShort s r) := by
  cases r with
  | ok t => exact next (h t rfl)
  | error f => exact takeFault s f s.iaShort

/-- An instruction that first refuses some operand values (R115). -/
theorem guarded {s : State} {refused : Bool} {f : Fault} {r : Result} (h : CompletesOrFaults s s.iaShort r) :
    CompletesOrFaults s s.iaShort (if refused then raiseShort s f else r) := by
  cases refused with
  | true => exact takeFault s f s.iaShort
  | false => exact h

theorem writeLow (s : State) (ia : Word) (r : LowReg) (v : Word) :
    CompletesOrFaults s ia (.next (s.setReg (low r) v)) :=
  next (.setReg s (low_ne_pc r) v)

theorem writeSp (s : State) (ia : Word) (v : Word) : CompletesOrFaults s ia (.next (s.setReg spReg v)) :=
  next (.setReg s (by decide) v)

theorem writeAlu (s : State) (ia : Word) (r : LowReg) (o : AluOut) :
    CompletesOrFaults s ia (.next (s.writeAlu (low r) o)) := next (.writeAlu s (low_ne_pc r) o)

theorem writeFlags (s : State) (ia : Word) (o : AluOut) : CompletesOrFaults s ia (.next (s.writeFlags o)) :=
  next (.setFlags s o.flags)

theorem loadInto (s : State) (rt : LowReg) (a : Word) (w : Width) (extend : Word → Word) :
    CompletesOrFaults s s.iaShort (loadInto s rt a w extend) := by
  refine completeShort fun t h => ?_
  split at h
  · cases h; exact .setReg s (low_ne_pc rt) _
  · cases h

theorem storeFrom (s : State) (rt : LowReg) (a : Word) (w : Width) :
    CompletesOrFaults s s.iaShort (storeFrom s rt a w) := completeShort fun _ => .memWrite

theorem execBcond (s : State) (ia : Word) (cond : Cond) (imm8 : BitVec 8) :
    CompletesOrFaults s ia (execBcond cond imm8 s) := by
  unfold Machine.execBcond
  split
  · exact next (.branchTo s _)
  · exact next (.refl s)

theorem execBl (s : State) (ia : Word) (s1 : BitVec 1) (imm10 : BitVec 10) (j1 j2 : BitVec 1) (imm11 : BitVec 11) :
    CompletesOrFaults s ia (execBl s1 imm10 j1 j2 imm11 s) :=
  next ((Completed.setReg s (by decide) _).trans (.branchTo _ _))

theorem execBlx (s : State) (rm : Reg) : CompletesOrFaults s s.iaShort (execBlx rm s) :=
  guarded <| completeShort fun _ h => (Completed.setReg s (by decide) _).trans (.branchExchange h)

end CompletesOrFaults

/-- Every instruction completes, or enters a fault with its own address in the record (R11, R305). -/
theorem exec_completesOrFaults (i : Instr) (s : State) : CompletesOrFaults s (s.pc - byteLength i) (exec i s) := by
  cases i with
  | lslsImm | movsReg | lsrsImm | asrsImm | addsReg | subsReg | addsImm3 | subsImm3 | movsImm | addsImm8 | subsImm8
  | ands | eors | lslsReg | lsrsReg | asrsReg | adcs | sbcs | rors | rsbs | orrs | muls | bics | mvns =>
    exact .writeAlu s _ _ _
  | cmpImm | tst | cmpReg | cmn => exact .writeFlags s _ _
  | adr | addRdSp | sxth | sxtb | uxth | uxtb | rev | rev16 | revsh => exact .writeLow s _ _ _
  | addSp | subSp => exact .writeSp s _ _
  | ldrLit | ldrsbReg | ldrReg | ldrhReg | ldrbReg | ldrshReg | ldrImm | ldrbImm | ldrhImm | ldrSp =>
    exact .loadInto s _ _ _ _
  | strReg | strhReg | strbReg | strImm | strbImm | strhImm | strSp => exact .storeFrom s _ _ _
  | addHi => exact .guarded (.next (.writeResult s _ _))
  | cmpHi => exact .guarded (.writeFlags s _ _)
  | movHi => exact .next (.writeResult s _ _)
  | bx => exact .completeShort fun _ => .branchExchange
  | blx => exact .execBlx s _
  | push => exact .guarded (.completeShort fun _ => .pushBody)
  | pop => exact .guarded (.completeShort fun _ => .popBody)
  | stm => exact .guarded (.completeShort fun _ => .stmBody)
  | ldm => exact .guarded (.completeShort fun _ => .ldmBody)
  | nop => exact .next (.refl s)
  | bcond => exact .execBcond s _ _ _
  | b => exact .next (.branchTo s _)
  | bl => exact .execBl s _ _ _ _ _ _
  | cps | bkpt | yield | wfe | wfi | sev | udf | svc | msr | mrs | dsb | dmb | isb => exact .takeFault s _ _

/-! ## What keeps the invariant -/

theorem exists_device_of_descriptors_eq {s t : State} (h : descriptors t = descriptors s) {d : Device}
    (hd : d ∈ t.devices) : ∃ e ∈ s.devices, e.desc = d.desc :=
  List.mem_map.mp (h ▸ List.mem_map_of_mem hd : d.desc ∈ descriptors s)

/-- The invariant is carried over to a state with the same descriptors, image and entry: what is left to show concerns
the byte stores, PC and the fault record. -/
theorem inv_carry {s t : State} (hs : MachineInv s) (hdesc : descriptors t = descriptors s)
    (himage : t.image = s.image) (hentry : t.entry = s.entry) (hstores : StoresWf t)
    (hpc : t.run ≠ .faulted → t.pc.getLsbD 0 = false) (hfault : t.run = .faulted ↔ t.fault.isSome) :
    MachineInv t where
  memory := hstores.mem
  devices d hd := by
    obtain ⟨e, he, hde⟩ := exists_device_of_descriptors_eq hdesc hd
    obtain ⟨hrange, -, hreset⟩ := hs.devices e he
    exact ⟨hde ▸ hrange, hstores.devices d hd, hde ▸ hreset⟩
  entryEven := hentry ▸ hs.entryEven
  imageClear c hc d hd := by
    obtain ⟨e, he, hde⟩ := exists_device_of_descriptors_eq hdesc hd
    exact hde ▸ hs.imageClear c (himage ▸ hc) e he
  pcEven := hpc
  faultRecord := hfault

theorem storesWf_takeFault (s : State) (f : Fault) (ia : Word) : StoresWf (s.takeFault f ia) where
  mem := State.wf_takeFault s f ia
  devices d hd := by
    obtain ⟨i, hi, rfl⟩ := List.mem_mapIdx.mp hd
    exact DevState.wf_canonical _

theorem inv_takeFault {s : State} (hs : MachineInv s) (f : Fault) (ia : Word) : MachineInv (s.takeFault f ia) :=
  inv_carry hs (State.descriptors_takeFault s f ia) (State.image_takeFault s f ia) (State.entry_takeFault s f ia)
    (storesWf_takeFault s f ia) (fun h => absurd (State.run_takeFault s f ia) h) (by simp)

theorem Completed.inv {s t : State} (h : Completed s t) (hs : MachineInv s) : MachineInv t :=
  inv_carry hs h.descriptors h.control.image h.control.entry (h.stores (storesWf_of_inv hs))
    (fun hrun => h.pcEven (hs.pcEven (h.control.run ▸ hrun)))
    (by rw [h.control.run, h.control.fault]; exact hs.faultRecord)

theorem inv_setPc {s : State} (hs : MachineInv s) {v : Word} (hv : v.getLsbD 0 = false) :
    MachineInv (s.setReg pcReg v) :=
  (Completed.of_onlyRegs (.setReg s pcReg v) fun _ => by simpa [State.pc] using hv).inv hs

/-- Between run states other than Faulted the sequencer moves freely: the requests are no part of the invariant. -/
theorem inv_setRun {s : State} (hs : MachineInv s) (hrun : s.run ≠ .faulted) {r : RunState} (hr : r ≠ .faulted)
    (haltReq completed : Bool) :
    MachineInv { s with run := r, haltReq := haltReq, completed := completed } :=
  have hstores := storesWf_of_inv hs
  inv_carry hs rfl rfl rfl ⟨hstores.mem, hstores.devices⟩ (fun _ => hs.pcEven hrun)
    ⟨fun h => absurd h hr, fun h => absurd (hs.faultRecord.mpr h) hrun⟩

/-! ## Every step reaches a next state and keeps the invariant -/

/-- A next state that meets the invariant where `s` does. -/
def EndsKeepingInv (s : State) (r : Result) : Prop := Ends r fun t => MachineInv s → MachineInv t

theorem endsKeepingInv_takeFault (s : State) (f : Fault) (ia : Word) :
    EndsKeepingInv s (.next (s.takeFault f ia)) := ⟨_, rfl, fun hs => inv_takeFault hs f ia⟩

theorem exec_endsKeepingInv (i : Instr) (s : State) : EndsKeepingInv s (exec i s) := by
  obtain ⟨t, ht, hcompleted | ⟨f, rfl⟩⟩ := exec_completesOrFaults i s
  · exact ⟨t, ht, hcompleted.inv⟩
  · exact ⟨_, ht, fun hs => inv_takeFault hs f _⟩

theorem dispatch_endsKeepingInv (s : State) (ia : Word) (hw1 hw2 : Halfword) :
    EndsKeepingInv s (dispatch s ia hw1 hw2) := by
  unfold dispatch
  split
  · exact exec_endsKeepingInv _ s
  · exact endsKeepingInv_takeFault s _ ia

/-- The sequencer advances PC before it executes (R100); where that keeps PC even, the result is the same for `s`. -/
theorem EndsKeepingInv.of_setPc {s : State} {v : Word} {r : Result} (h : EndsKeepingInv (s.setReg pcReg v) r)
    (hrun : s.run ≠ .faulted) (hv : s.pc.getLsbD 0 = false → v.getLsbD 0 = false) : EndsKeepingInv s r := by
  obtain ⟨t, ht, hinv⟩ := h
  exact ⟨t, ht, fun hs => hinv (inv_setPc hs (hv (hs.pcEven hrun)))⟩

theorem getLsbD_zero_add_even {a b : Word} (hb : b.getLsbD 0 = false) : (a + b).getLsbD 0 = a.getLsbD 0 := by
  rw [BitVec.getLsbD_add (by decide), hb]
  simp

theorem longCycle_endsKeepingInv {s : State} (hrun : s.run ≠ .faulted) {ia : Word}
    (hia : s.pc.getLsbD 0 = false → ia.getLsbD 0 = false) (hw1 : Halfword) :
    EndsKeepingInv s (longCycle s ia hw1) := by
  unfold longCycle
  split
  · next hw2 _ =>
    exact (dispatch_endsKeepingInv _ ia hw1 hw2).of_setPc hrun fun h => (getLsbD_zero_add_even rfl).trans (hia h)
  · exact endsKeepingInv_takeFault s _ ia

theorem instructionCycle_endsKeepingInv {s : State} (hrun : s.run ≠ .faulted) :
    EndsKeepingInv s (instructionCycle s) := by
  have hpc : s.pc.getLsbD 0 = false → (s.pc + 2).getLsbD 0 = false := (getLsbD_zero_add_even rfl).trans
  simp only [instructionCycle]
  split
  · exact endsKeepingInv_takeFault s _ _
  · next hw1 _ =>
    split
    · exact ⟨_, rfl, fun hs => inv_setRun hs hrun (by decide) _ _⟩
    · split
      · refine (longCycle_endsKeepingInv (s := s.setReg pcReg (s.pc + 2)) hrun (fun h => ?_) hw1).of_setPc hrun hpc
        rwa [State.pc, State.reg_setReg_self, getLsbD_zero_add_even rfl] at h
      · exact (dispatch_endsKeepingInv _ _ _ _).of_setPc hrun hpc

theorem inv_settle {t : State} (ht : MachineInv t) : MachineInv (settle t) := by
  unfold settle
  split
  · exact ht
  · exact inv_setRun ht ‹_› (by decide) _ _

theorem stepOnce_endsKeepingInv {s : State} (hrun : s.run ≠ .faulted) : EndsKeepingInv s (stepOnce s) := by
  obtain ⟨t, ht, hinv⟩ := instructionCycle_endsKeepingInv hrun
  exact ⟨settle t, by simp only [stepOnce, ht], inv_settle ∘ hinv⟩

theorem runTurn_endsKeepingInv {s : State} (hrun : s.run ≠ .faulted) : EndsKeepingInv s (runTurn s) := by
  unfold runTurn
  split
  · exact ⟨_, rfl, fun hs => inv_setRun hs hrun (by decide) _ _⟩
  · exact instructionCycle_endsKeepingInv hrun

/-- The four run states apart (R330): in `Faulted` the state stays as it is (R306). -/
theorem step_endsKeepingInv (s : State) : EndsKeepingInv s (step s) := by
  unfold step advance
  cases hrun : s.run with
  | idle => exact stepOnce_endsKeepingInv (by simp [hrun])
  | halted => exact stepOnce_endsKeepingInv (by simp [hrun])
  | running => exact runTurn_endsKeepingInv (by simp [hrun])
  | faulted => exact ⟨s, rfl, id⟩

/-! ## Every transaction keeps the invariant -/

theorem inv_resetTransaction {s : State} (hs : MachineInv s) : MachineInv s.resetTransaction := by
  have hdesc : descriptors s.resetTransaction = descriptors s := by simp [descriptors]
  have hstores : StoresWf s.resetTransaction := by
    refine ⟨State.wf_imageMemory s.image, fun d hd => ?_⟩
    obtain ⟨e, he, rfl⟩ := List.mem_map.mp hd
    obtain ⟨-, -, hreset⟩ := hs.devices e he
    exact hreset
  exact inv_carry hs hdesc (State.image_resetTransaction s) (State.entry_resetTransaction s) hstores
    (fun _ => hs.entryEven) (by simp)

/-- Storing a program under the preconditions of `load` (R332). -/
theorem inv_setProgram {s : State} (hs : MachineInv s) {image : List (Word × Byte)} {entry : Word}
    (h : (Transaction.load image entry).allowed s) : MachineInv { s with image := image, entry := entry } where
  memory := hs.memory
  devices := hs.devices
  entryEven := h.1
  imageClear := h.2
  pcEven := hs.pcEven
  faultRecord := hs.faultRecord

theorem inv_startRun {s : State} (hs : MachineInv s) (hrun : s.run ≠ .faulted) : MachineInv s.startRun :=
  inv_setRun hs hrun (by decide) _ _

theorem inv_haltTransaction {s : State} (hs : MachineInv s) : MachineInv s.haltTransaction := by
  unfold State.haltTransaction
  split
  · next hrun => exact inv_setRun hs (by simp [hrun]) (by simp [hrun]) true _
  · exact hs

/-- A device's state replaced by one whose byte store is in canonical form. -/
theorem inv_setDeviceState {s : State} (hs : MachineInv s) {i : Nat} {d : Device} (hd : s.devices[i]? = some d)
    {st : DevState} (hst : st.bytes.wf) :
    MachineInv { s with devices := s.devices.set i { d with state := st } } := by
  have hdesc : (s.devices.set i { d with state := st }).map Device.desc = s.devices.map Device.desc := by
    apply List.ext_getElem?
    intro j
    by_cases hij : i = j
    · subst hij; simp [List.getElem?_set_self', hd]
    · simp [List.getElem?_set_ne hij]
  have hstores : StoresWf { s with devices := s.devices.set i { d with state := st } } := by
    refine ⟨hs.memory, fun e he => ?_⟩
    rcases List.mem_or_eq_of_mem_set he with he | rfl
    · exact (storesWf_of_inv hs).devices e he
    · exact hst
  exact inv_carry hs hdesc rfl rfl hstores hs.pcEven hs.faultRecord

theorem inv_devInput {s : State} (hs : MachineInv s) (i event : Nat) : MachineInv (s.devInput i event) := by
  obtain ⟨t, hok, ht, -⟩ | ⟨_, -, ht, -⟩ := State.devInput_cases s i event
  · obtain ⟨d, st, hd, -, -, rfl⟩ := State.tryDevInput_ok hok
    rw [ht]
    exact inv_setDeviceState hs hd (DevState.wf_canonical st)
  · rwa [ht]

theorem inv_stepState {s t : State} (hs : MachineInv s) (h : stepState s = some t) : MachineInv t := by
  obtain ⟨u, hu, hinv⟩ := step_endsKeepingInv s
  simp only [stepState, hu, Option.some.injEq] at h
  exact h ▸ hinv hs

theorem inv_transact {tr : Transaction} {s t : State} (hs : MachineInv s) (hallowed : tr.allowed s)
    (h : transact tr s = some t) : MachineInv t := by
  cases tr with
  | reset => cases h; exact inv_resetTransaction hs
  | load image entry =>
    simp only [transact] at h
    split at h
    · cases h
    · cases h; exact inv_resetTransaction (inv_setProgram hs hallowed)
  | step =>
    simp only [transact] at h
    split at h
    · cases h
    · exact inv_stepState hs h
  | run =>
    simp only [transact] at h
    split at h <;> cases h
    · next hrun => exact inv_startRun hs (by simp [hrun])
    · next hrun => exact inv_startRun hs (by simp [hrun])
    · exact hs
  | turn =>
    simp only [transact] at h
    split at h
    · exact inv_stepState hs h
    · cases h
  | halt => cases h; exact inv_haltTransaction hs
  | devInput i event => cases h; exact inv_devInput hs i event

/-! ## The obligations -/

/-- Settles O21: an instruction completes or enters a fault, and both are next states; a step is an instruction
cycle, an accepted halt request, or nothing. -/
theorem everyInstructionAndStepHasANextState : Obligations.EveryInstructionAndStepHasANextState := by
  constructor
  · intro i s
    obtain ⟨t, ht, -⟩ := exec_completesOrFaults i s
    exact ⟨t, ht⟩
  · intro s
    obtain ⟨t, ht, -⟩ := step_endsKeepingInv s
    exact ⟨t, ht⟩

/-- Settles O26, transaction by transaction; `step` and `turn` by how every instruction ends. -/
theorem everyTransactionKeepsTheInvariant : Obligations.EveryTransactionKeepsTheInvariant :=
  fun _ _ _ hs hallowed h => inv_transact hs hallowed h

end Sys2Proof.Machine
end

section
/-! PROOFS. What an instruction that completes leaves unchanged: the registers it has no business with, PC (R28), the
flags outside its row of R31; and the invariant at reset and over a step. -/

namespace Sys2Proof.Machine

open Safety

/-! ## The registers and flags an instruction may change -/

theorem flagsOutsideKept_refl (c : FlagClass) (f : Flags) : FlagsOutsideKept c f f := by
  cases c with
  | nzcv => trivial
  | nz => exact ⟨rfl, rfl⟩
  | nzc | none => rfl

theorem flagsOutsideKept_trans {c : FlagClass} {f g k : Flags} (h : FlagsOutsideKept c f g)
    (h' : FlagsOutsideKept c g k) : FlagsOutsideKept c f k := by
  cases c with
  | nzcv => trivial
  | nz => exact ⟨h'.1.trans h.1, h'.2.trans h.2⟩
  | nzc | none => exact Eq.trans h' h

/-- Logic, moves and the product keep C and V (R136, R143). -/
theorem flagsOutsideKept_aluOut (r : Word) (old : Flags) : FlagsOutsideKept .nz old (aluOut r old.c old.v).flags :=
  ⟨rfl, rfl⟩

/-- Every shift keeps V, by amount 0 or not (R141, R142). -/
theorem flagsOutsideKept_aluShift (f : Word → Nat → ShiftOut) (x : Word) (n : Nat) (old : Flags) :
    FlagsOutsideKept .nzc old (aluShift f x n old).flags := by
  unfold aluShift
  split <;> rfl

/-- From `s` to `t` no register outside the list and no flag outside the class changes. -/
structure Confined (written : List Reg) (c : FlagClass) (s t : State) : Prop where
  regs  : RegsKept s t written
  flags : FlagsOutsideKept c s.flags t.flags

namespace Confined

variable {written : List Reg} {c : FlagClass} {s t u : State}

theorem refl (s : State) : Confined written c s s := ⟨fun _ _ => rfl, flagsOutsideKept_refl c _⟩

theorem trans (h : Confined written c s t) (k : Confined written c t u) : Confined written c s u :=
  ⟨fun r hr => (k.regs r hr).trans (h.regs r hr), flagsOutsideKept_trans h.flags k.flags⟩

theorem setReg (s : State) {r : Reg} (hr : r ∈ written) (v : Word) : Confined written c s (s.setReg r v) where
  regs _ hq := State.reg_setReg_ne s v (ne_of_mem_of_not_mem hr hq).symm
  flags := flagsOutsideKept_refl c _

theorem branchTo (s : State) (hpc : pcReg ∈ written) (v : Word) : Confined written c s (s.branchTo v) :=
  setReg s hpc _

theorem writeFlags (s : State) {o : AluOut} (ho : FlagsOutsideKept c s.flags o.flags) :
    Confined written c s (s.writeFlags o) := ⟨fun _ _ => rfl, ho⟩

theorem writeAlu (s : State) {r : Reg} (hr : r ∈ written) {o : AluOut} (ho : FlagsOutsideKept c s.flags o.flags) :
    Confined written c s (s.writeAlu r o) := (setReg s hr o.result).trans (writeFlags _ ho)

theorem writeResult (s : State) {r : Reg} (hr : r ∈ written) (v : Word) :
    Confined written c s (s.writeResult r v) := by
  unfold State.writeResult
  split
  · next hpc => exact branchTo s (hpc ▸ hr) v
  · exact setReg s hr v

theorem branchExchange {v : Word} (hpc : pcReg ∈ written) (h : s.branchExchange v = .ok t) :
    Confined written c s t := by
  obtain ⟨-, rfl⟩ := State.branchExchange_ok h
  exact branchTo s hpc v

theorem of_onlyStores (h : OnlyStores s t) : Confined written c s t :=
  ⟨fun r _ => h.reg r, h.flags ▸ flagsOutsideKept_refl c _⟩

theorem loadRegs {a : Word} {rs : List Reg} (hrs : ∀ r ∈ rs, r ∈ written) (h : s.loadRegs a rs = .ok t) :
    Confined written c s t := by
  obtain ⟨honly, hkept⟩ := State.loadRegs_ok h
  exact ⟨fun r hr => hkept r (mt (hrs r) hr), honly.flags ▸ flagsOutsideKept_refl c _⟩

theorem popPc {a : Word} (hpc : pcReg ∈ written) (h : popPc s a = .ok t) : Confined written c s t := by
  unfold Machine.popPc at h
  split at h
  · exact branchExchange hpc h
  · cases h

theorem pushBody {m : Bool} {list : BitVec 8} (hsp : spReg ∈ written) (h : pushBody s m list = .ok t) :
    Confined written c s t := by
  simp only [Machine.pushBody] at h
  split at h
  · next hu => cases h; exact (of_onlyStores (State.storeRegs_ok hu)).trans (setReg _ hsp _)
  · cases h

theorem popBody {p : Bool} {list : BitVec 8} (hlow : ∀ r ∈ (lowList list).map low, r ∈ written)
    (hsp : spReg ∈ written) (hpc : p = true → pcReg ∈ written) (h : popBody s p list = .ok t) :
    Confined written c s t := by
  simp only [Machine.popBody] at h
  split at h
  · cases h
  · next hloaded =>
    split at h
    · next hp =>
      split at h
      · next hpopped =>
        cases h
        exact ((loadRegs hlow hloaded).trans (popPc (hpc hp) hpopped)).trans (setReg _ hsp _)
      · cases h
    · cases h
      exact (loadRegs hlow hloaded).trans (setReg _ hsp _)

theorem stmBody {rn : LowReg} {list : BitVec 8} (hrn : low rn ∈ written) (h : stmBody s rn list = .ok t) :
    Confined written c s t := by
  simp only [Machine.stmBody] at h
  split at h
  · next hu => cases h; exact (of_onlyStores (State.storeRegs_ok hu)).trans (setReg _ hrn _)
  · cases h

theorem ldmBody {rn : LowReg} {list : BitVec 8} (hlow : ∀ r ∈ (lowList list).map low, r ∈ written)
    (hrn : low rn ∈ written) (h : ldmBody s rn list = .ok t) : Confined written c s t := by
  simp only [Machine.ldmBody] at h
  split at h
  · next hloaded =>
    cases h
    split
    · exact loadRegs hlow hloaded
    · exact (loadRegs hlow hloaded).trans (setReg _ hrn _)
  · cases h

end Confined

/-- Where the result is a state outside Faulted, nothing outside the list and the class has changed; of fault entry
nothing is claimed (R305). -/
def EndsConfined (written : List Reg) (c : FlagClass) (s : State) (r : Result) : Prop :=
  ∀ t, r = .next t → t.run ≠ .faulted → Confined written c s t

namespace EndsConfined

variable {written : List Reg} {c : FlagClass} {s t : State}

theorem next (h : Confined written c s t) : EndsConfined written c s (.next t) := by
  rintro _ ⟨⟩ -
  exact h

theorem takeFault (s : State) (f : Fault) (ia : Word) : EndsConfined written c s (.next (s.takeFault f ia)) := by
  rintro _ ⟨⟩ hrun
  exact absurd (State.run_takeFault s f ia) hrun

theorem completeShort {r : Except Fault State} (h : ∀ t, r = .ok t → Confined written c s t) :
    EndsConfined written c s (completeShort s r) := by
  cases r with
  | ok t => exact next (h t rfl)
  | error f => exact takeFault s f s.iaShort

/-- An instruction that first refuses some operand values (R115). -/
theorem guarded {refused : Bool} {f : Fault} {r : Result} (h : EndsConfined written c s r) :
    EndsConfined written c s (if refused then raiseShort s f else r) := by
  cases refused with
  | true => exact takeFault s f s.iaShort
  | false => exact h

theorem loadInto (s : State) {rt : LowReg} (hrt : low rt ∈ written) (a : Word) (w : Width) (extend : Word → Word) :
    EndsConfined written c s (loadInto s rt a w extend) := by
  refine completeShort fun t h => ?_
  split at h
  · cases h; exact .setReg s hrt _
  · cases h

theorem storeFrom (s : State) (rt : LowReg) (a : Word) (w : Width) :
    EndsConfined written c s (storeFrom s rt a w) :=
  completeShort fun _ h => .of_onlyStores (State.memWrite_ok h)

theorem execBcond (s : State) (hpc : pcReg ∈ written) (cond : Cond) (imm8 : BitVec 8) :
    EndsConfined written c s (execBcond cond imm8 s) := by
  unfold Machine.execBcond
  split
  · exact next (.branchTo s hpc _)
  · exact next (.refl s)

theorem execBl (s : State) (hlr : lrReg ∈ written) (hpc : pcReg ∈ written) (s1 : BitVec 1) (imm10 : BitVec 10)
    (j1 j2 : BitVec 1) (imm11 : BitVec 11) : EndsConfined written c s (execBl s1 imm10 j1 j2 imm11 s) :=
  next ((Confined.setReg s hlr _).trans (.branchTo _ hpc _))

theorem execBlx (s : State) (hlr : lrReg ∈ written) (hpc : pcReg ∈ written) (rm : Reg) :
    EndsConfined written c s (execBlx rm s) :=
  guarded <| completeShort fun _ h => (Confined.setReg s hlr _).trans (.branchExchange hpc h)

end EndsConfined

/-- The registers an instruction may change: its destinations, and PC where R28 lists it. -/
def writableRegs (i : Instr) : List Reg := destinations i ++ if writesPc i then [pcReg] else []

theorem mem_writableRegs_of_mem {i : Instr} {r : Reg} (h : r ∈ destinations i) : r ∈ writableRegs i :=
  List.mem_append_left _ h

theorem pc_mem_writableRegs {i : Instr} (h : writesPc i = true) : pcReg ∈ writableRegs i := by
  simp [writableRegs, h]

/-- No instruction changes a register or a flag beyond those its rule writes, unless it enters a fault. -/
theorem exec_confined (i : Instr) (s : State) : EndsConfined (writableRegs i) (flagClass i) s (exec i s) := by
  cases i with
  | addsReg | subsReg | addsImm3 | subsImm3 | addsImm8 | subsImm8 | adcs | sbcs | rsbs =>
    exact .next (.writeAlu s (.head _) trivial)
  | movsReg | movsImm | ands | eors | orrs | muls | bics | mvns =>
    exact .next (.writeAlu s (.head _) (flagsOutsideKept_aluOut _ _))
  | lslsImm | lsrsImm | asrsImm | lslsReg | lsrsReg | asrsReg | rors =>
    exact .next (.writeAlu s (.head _) (flagsOutsideKept_aluShift _ _ _ _))
  | cmpImm | cmpReg | cmn => exact .next (.writeFlags s trivial)
  | tst => exact .next (.writeFlags s (flagsOutsideKept_aluOut _ _))
  | adr | addRdSp | addSp | subSp | sxth | sxtb | uxth | uxtb | rev | rev16 | revsh =>
    exact .next (.setReg s (.head _) _)
  | ldrLit | ldrsbReg | ldrReg | ldrhReg | ldrbReg | ldrshReg | ldrImm | ldrbImm | ldrhImm | ldrSp =>
    exact .loadInto s (.head _) _ _ _
  | strReg | strhReg | strbReg | strImm | strbImm | strhImm | strSp => exact .storeFrom s _ _ _
  | addHi => exact .guarded (.next (.writeResult s (.head _) _))
  | cmpHi => exact .guarded (.next (.writeFlags s trivial))
  | movHi => exact .next (.writeResult s (.head _) _)
  | bx => exact .completeShort fun _ => .branchExchange (pc_mem_writableRegs rfl)
  | blx => exact .execBlx s (mem_writableRegs_of_mem (.head _)) (pc_mem_writableRegs rfl) _
  | push => exact .guarded (.completeShort fun _ => .pushBody (.head _))
  | pop p list =>
    exact .guarded <| .completeShort fun _ =>
      .popBody (fun _ hr => mem_writableRegs_of_mem (.tail _ hr)) (.head _) (pc_mem_writableRegs (i := .pop p list))
  | stm => exact .guarded (.completeShort fun _ => .stmBody (.head _))
  | ldm =>
    exact .guarded <| .completeShort fun _ =>
      .ldmBody (fun _ hr => mem_writableRegs_of_mem (.tail _ hr)) (.head _)
  | nop => exact .next (.refl s)
  | bcond => exact .execBcond s (pc_mem_writableRegs rfl) _ _
  | b => exact .next (.branchTo s (pc_mem_writableRegs rfl) _)
  | bl => exact .execBl s (mem_writableRegs_of_mem (.head _)) (pc_mem_writableRegs rfl) _ _ _ _ _
  | cps | bkpt | yield | wfe | wfi | sev | udf | svc | msr | mrs | dsb | dmb | isb => exact .takeFault s _ _

/-! ## PC -/

theorem sp_ne_pc : spReg ≠ pcReg := by decide

theorem lr_ne_pc : lrReg ≠ pcReg := by decide

/-- Only the two high-register forms name PC as a destination field, and then R28 lists them. -/
theorem destination_ne_pc {i : Instr} (h : writesPc i = false) : ∀ r ∈ destinations i, r ≠ pcReg := by
  cases i with
  | addHi | movHi => simpa [destinations, writesPc] using h
  | _ => simp [destinations, sp_ne_pc, lr_ne_pc]

theorem pc_notMem_writableRegs {i : Instr} (h : writesPc i = false) : pcReg ∉ writableRegs i := by
  simpa [writableRegs, h] using fun hmem => destination_ne_pc h _ hmem rfl

/-- The model's reading of the condition table is the spec's (R145). -/
theorem conditionPassed_iff (cond : Cond) (f : Flags) : conditionPassed cond f = true ↔ CondHolds cond f := by
  cases cond <;> simp [conditionPassed, CondHolds]

theorem exec_bcond_of_not_condHolds {cond : Cond} {s : State} (h : ¬ CondHolds cond s.flags) (imm8 : BitVec 8) :
    exec (.bcond cond imm8) s = .next s := by
  rw [← conditionPassed_iff] at h
  exact congrArg Host.Outcome.next (if_neg h)

theorem exec_completed {i : Instr} {s t : State} (h : exec i s = .next t) (hrun : t.run ≠ .faulted) :
    Completed s t := by
  obtain ⟨u, hu, hcompleted | ⟨f, rfl⟩⟩ := exec_completesOrFaults i s
  · cases h.symm.trans hu
    exact hcompleted
  · cases h.symm.trans hu
    exact absurd (State.run_takeFault s f _) hrun

/-! ## The obligations -/

/-- Settles O25: a step ends in one next state, and that state meets the invariant where the state before does. -/
theorem everyStepKeepsTheInvariant : Obligations.EveryStepKeepsTheInvariant := by
  intro s t hs h
  obtain ⟨u, hu, hinv⟩ := step_endsKeepingInv s
  cases h.symm.trans hu
  exact hinv hs

/-- Settles O28: PC is outside what such an instruction may change; a branch whose condition fails changes nothing; and
an instruction that completes keeps PC even. -/
theorem onlyTheListedInstructionsWritePc : Obligations.OnlyTheListedInstructionsWritePc := by
  intro i s t _ h hrun
  refine ⟨fun hi => (exec_confined i s t h hrun).regs pcReg (pc_notMem_writableRegs hi), ?_,
    (exec_completed h hrun).pcEven⟩
  rintro cond imm8 rfl hcond
  cases h.symm.trans (exec_bcond_of_not_condHolds hcond imm8)
  rfl

/-- Settles O29, by what each instruction may change. -/
theorem registersOutsideTheDestinationsAreKept : Obligations.RegistersOutsideTheDestinationsAreKept := by
  intro i s t r _ h hrun hpc hr
  refine (exec_confined i s t h hrun).regs r fun hmem => ?_
  rcases List.mem_append.mp hmem with hdest | hmem
  · exact hr hdest
  · exact hpc (by simpa using (List.mem_ite_nil_right.mp hmem).2)

/-- Settles O30, by what each instruction may change. -/
theorem flagsOutsideTheClassAreKept : Obligations.FlagsOutsideTheClassAreKept :=
  fun i s t _ h hrun => (exec_confined i s t h hrun).flags

/-- Settles O24: at reset there is no device, no image and no fault, memory is empty, and entry and PC are 0. -/
theorem resetMeetsTheInvariant : Obligations.ResetMeetsTheInvariant where
  memory := State.wf_reset
  devices := by simp [State.reset]
  entryEven := rfl
  imageClear := by simp [State.reset]
  pcEven _ := rfl
  faultRecord := by simp [State.reset]

end Sys2Proof.Machine
end

section
/-! PROOFS. The bus (R62 to R73): where one byte goes, what accesses of several bytes give, which instructions leave all
of it alone, and the host's ports on the devices. -/

namespace Sys2Proof.Machine

open Safety

variable {s t : State} {a v : Word} {w : Width} {before after : List Device} {d : Device}

/-! ## One byte at its owner (R63, R65, R67) -/

theorem busReadByte_unowned (h : Unowned s a) : s.busReadByte a = s.mem.read a.toNat := by
  simp [State.busReadByte, owner_unowned h]

theorem busReadByte_ownedBy (h : OwnedBy s a before d after) : s.busReadByte a = d.read a := by
  simp [State.busReadByte, owner_ownedBy h]

theorem busWriteByte_unowned (h : Unowned s a) (b : Byte) :
    s.busWriteByte a b = .ok { s with mem := s.mem.write a.toNat b } := by
  simp [State.busWriteByte, owner_unowned h]

/-- The devices before the first responsible one take no part in a byte write. -/
theorem writeDevices_append (h : ∀ e ∈ before, ¬ Responsible e a) (b : Byte) (ds : List Device) :
    writeDevices a b (before ++ ds) = (writeDevices a b ds).map (before ++ ·) := by
  induction before with
  | nil => cases hw : writeDevices a b ds <;> simp [hw, Except.map]
  | cons e before ih =>
    obtain ⟨he, hbefore⟩ := List.forall_mem_cons.mp h
    rw [← isResponsibleFor_iff] at he
    simp only [List.cons_append, writeDevices, if_neg he, ih hbefore]
    cases writeDevices a b ds <;> rfl

theorem busWriteByte_ownedBy (h : OwnedBy s a before d after) (b : Byte) :
    s.busWriteByte a b = (writeDevices a b (d :: after)).map fun ds => { s with devices := before ++ ds } := by
  simp only [State.busWriteByte, owner_ownedBy h, h.list, writeDevices_append h.first]
  cases writeDevices a b (d :: after) <;> rfl

theorem busWriteByte_readOnly {b : Byte} (h : OwnedBy s a before d after) (hro : d.desc.isReadOnly = true) :
    s.busWriteByte a b = .error (.readOnlyWrite a) := by
  have hr := (isResponsibleFor_iff d a).mpr h.owns
  simp [busWriteByte_ownedBy h, writeDevices, hr, hro, Except.map]

theorem busWriteByte_deviceError {b : Byte} (h : OwnedBy s a before d after) (hro : d.desc.isReadOnly = false)
    (hw : d.write a b = none) : s.busWriteByte a b = .error (.deviceError a) := by
  have hr := (isResponsibleFor_iff d a).mpr h.owns
  simp [busWriteByte_ownedBy h, writeDevices, hr, hro, hw, Except.map]

theorem busWriteByte_deviceWrite {b : Byte} {st : DevState} (h : OwnedBy s a before d after)
    (hro : d.desc.isReadOnly = false) (hw : d.write a b = some st) :
    s.busWriteByte a b = .ok { s with devices := before ++ { d with state := st } :: after } := by
  have hr := (isResponsibleFor_iff d a).mpr h.owns
  simp [busWriteByte_ownedBy h, writeDevices, hr, hro, hw, Except.map]

/-- The default device reads its byte store (R66). -/
theorem Device.read_byteStore (hb : d.desc.behaviour = .byteStore) (a : Word) :
    d.read a = d.state.bytes.read a.toNat := by
  simp [Device.read, hb]

/-- The default device stores the byte and reports no error (R66). -/
theorem Device.write_byteStore (hb : d.desc.behaviour = .byteStore) (a : Word) (b : Byte) :
    d.write a b = some { d.state with bytes := d.state.bytes.write a.toNat b } := by
  simp [Device.write, hb]

/-! ## Accesses of several bytes (R71 to R73) -/

/-- A byte access never passes the top of the address space. -/
theorem canLoad_byte (a : Word) : CanLoad a .byte := by
  have := a.isLt
  simp only [CanLoad, Width.bytes]
  omega

/-- The halfword at byte `i` of an access lies within the address space where the access does. -/
theorem canLoad_half_of_lt {i : Nat} (h : CanLoad a w) (hi : i + 1 < w.bytes) :
    CanLoad (a + BitVec.ofNat 32 i) .half := by
  simp only [CanLoad, Width.bytes, BitVec.toNat_add, BitVec.toNat_ofNat] at *
  omega

/-- R72: a read within the address space gives the little-endian number of its bytes. -/
theorem toNat_busReadBytes_width (s : State) (a : Word) (w : Width) :
    (s.busReadBytes a w.bytes).toNat = bytesAt s a w.bytes :=
  toNat_busReadBytes s a w.bytes (by cases w <;> decide)

theorem memRead_eq_of_bytesAt {r : Word} (h : CanLoad a w) (hr : bytesAt s a w.bytes = r.toNat) :
    s.memRead a w = .ok r := by
  rw [memRead_of_canLoad s h, ← BitVec.toNat_inj.mp ((toNat_busReadBytes_width s a w).trans hr)]

theorem memWrite_of_canLoad (s : State) (v : Word) (h : CanLoad a w) :
    s.memWrite a w v = s.busWriteBytes a v w.bytes := by
  simp [State.memWrite, (outOfRange_eq_false a w).mpr h]

theorem memWrite_of_not_canLoad (s : State) (v : Word) (h : ¬ CanLoad a w) :
    s.memWrite a w v = .error (.addressRange a) := by
  rw [← outOfRange_eq_false, Bool.not_eq_false] at h
  simp [State.memWrite, h]

/-- The two faults of a byte write at the devices (R67). -/
theorem writeDevices_error {b : Byte} {ds : List Device} {f : Fault} (h : writeDevices a b ds = .error f) :
    f = .readOnlyWrite a ∨ f = .deviceError a := by
  induction ds with
  | nil => cases h
  | cons d ds ih =>
    simp only [writeDevices] at h
    split at h
    · split at h
      · cases h; exact .inl rfl
      · split at h <;> cases h
        exact .inr rfl
    · split at h <;> cases h
      exact ih ‹_›

theorem busWriteByte_error {b : Byte} {f : Fault} (h : s.busWriteByte a b = .error f) :
    f = .readOnlyWrite a ∨ f = .deviceError a := by
  unfold State.busWriteByte at h
  split at h
  · split at h <;> cases h
    exact writeDevices_error ‹_›
  · cases h

theorem busWriteBytes_ne_addressRange (s : State) (a v x : Word) (n : Nat) :
    s.busWriteBytes a v n ≠ .error (.addressRange x) := by
  induction n generalizing s a v with
  | zero => nofun
  | succ n ih =>
    intro h
    simp only [State.busWriteBytes] at h
    split at h
    · next t _ => exact ih t _ _ h
    · next hw =>
      cases h
      rcases busWriteByte_error hw with hf | hf <;> cases hf

/-- R73: the lowest byte first, then the others from the next address, unless the first is refused. -/
theorem busWriteBytes_succ (s : State) (a v : Word) (n : Nat) :
    s.busWriteBytes a v (n + 1) =
      (s.busWriteByte a (wordByte v 0)).bind fun t => t.busWriteBytes (a + 1) (v >>> 8) n := by
  rw [wordByte_eq, State.busWriteBytes, Nat.mul_zero, BitVec.ushiftRight_zero]
  cases s.busWriteByte a (v.setWidth 8) <;> rfl

theorem busWriteBytes_one (s : State) (a v : Word) : s.busWriteBytes a v 1 = s.busWriteByte a (wordByte v 0) := by
  rw [busWriteBytes_succ]
  cases s.busWriteByte a (wordByte v 0) <;> rfl

/-- The bytes of `v` at `a` upward are the low bytes of `v` as a number. -/
theorem bytesAt_of_landed {n : Nat}
    (h : ∀ i, i < n → t.busReadByte (a + BitVec.ofNat 32 i) = wordByte v i) :
    bytesAt t a n = v.toNat % 2 ^ (8 * n) := by
  induction n with
  | zero => simp [bytesAt, Nat.mod_one]
  | succ n ih =>
    rw [bytesAt, ih fun i hi => h i (by omega), h n (by omega), wordByte, BitVec.toNat_ofNat, Nat.mul_add, pow_add,
      Nat.mod_mul, Nat.mul_comm (2 ^ (8 * n))]

/-- The one byte of a byte read, zero-extended. -/
theorem bytesAt_byte (s : State) (a : Word) : bytesAt s a 1 = ((s.busReadByte a).setWidth 32).toNat := by
  rw [BitVec.toNat_setWidth_of_le (by decide)]
  simp [bytesAt]

/-- The two bytes of a halfword read, the second the more significant (R52), zero-extended. -/
theorem bytesAt_half (s : State) (a : Word) :
    bytesAt s a 2 = ((s.busReadByte (a + 1) ++ s.busReadByte a).setWidth 32).toNat := by
  rw [BitVec.toNat_setWidth_of_le (by decide), BitVec.toNat_append,
    ← Nat.shiftLeft_add_eq_or_of_lt (s.busReadByte a).isLt, Nat.shiftLeft_eq, bytesAt_succ]
  simp only [bytesAt, BitVec.add_zero]
  omega

/-! ## Instructions that make no data store (R75, R69) -/

theorem branchExchange_onlyRegs (h : s.branchExchange v = .ok t) : OnlyRegs s t := by
  obtain ⟨-, rfl⟩ := State.branchExchange_ok h
  exact .branchTo s v

theorem popPc_onlyRegs (h : popPc s a = .ok t) : OnlyRegs s t := by
  unfold popPc at h
  split at h
  · exact branchExchange_onlyRegs h
  · cases h

theorem popBody_onlyRegs {p : Bool} {list : BitVec 8} (h : popBody s p list = .ok t) : OnlyRegs s t := by
  simp only [popBody] at h
  split at h
  · cases h
  · next hloaded =>
    have hregs := (State.loadRegs_ok hloaded).1
    split at h
    · split at h
      · next hpopped => cases h; exact (hregs.trans (popPc_onlyRegs hpopped)).trans (.setReg _ _ _)
      · cases h
    · cases h; exact hregs.trans (.setReg _ _ _)

theorem ldmBody_onlyRegs {rn : LowReg} {list : BitVec 8} (h : ldmBody s rn list = .ok t) : OnlyRegs s t := by
  simp only [ldmBody] at h
  split at h
  · next hloaded =>
    have hregs := (State.loadRegs_ok hloaded).1
    cases h
    split
    · exact hregs
    · exact hregs.trans (.setReg _ _ _)
  · cases h

/-- Where the result is a state outside Faulted, every byte is as before; of fault entry nothing is claimed (R305). -/
def EndsKeepingMemory (s : State) (r : Result) : Prop :=
  ∀ t, r = .next t → t.run ≠ .faulted → MemoryKept s t

namespace EndsKeepingMemory

theorem next (hmem : t.mem = s.mem) (hdevices : t.devices = s.devices) : EndsKeepingMemory s (.next t) := by
  rintro _ ⟨⟩ -
  exact memoryKept_of_eq hmem hdevices

theorem takeFault (s : State) (f : Fault) (ia : Word) : EndsKeepingMemory s (.next (s.takeFault f ia)) := by
  rintro _ ⟨⟩ hrun
  exact absurd (State.run_takeFault s f ia) hrun

theorem completeShort {r : Except Fault State} (h : ∀ t, r = .ok t → OnlyRegs s t) :
    EndsKeepingMemory s (completeShort s r) := by
  cases r with
  | ok t => exact next (h t rfl).memory.mem (h t rfl).memory.devices
  | error f => exact takeFault s f s.iaShort

/-- An instruction that first refuses some operand values (R115). -/
theorem guarded {refused : Bool} {f : Fault} {r : Result} (h : EndsKeepingMemory s r) :
    EndsKeepingMemory s (if refused then raiseShort s f else r) := by
  cases refused with
  | true => exact takeFault s f s.iaShort
  | false => exact h

theorem loadInto (s : State) (rt : LowReg) (a : Word) (w : Width) (extend : Word → Word) :
    EndsKeepingMemory s (loadInto s rt a w extend) := by
  refine completeShort fun t h => ?_
  split at h
  · cases h; exact .setReg s _ _
  · cases h

theorem writeResult (s : State) (r : Reg) (v : Word) : EndsKeepingMemory s (.next (s.writeResult r v)) :=
  next (by rw [State.writeResult_eq]) (by rw [State.writeResult_eq])

theorem execBcond (s : State) (cond : Cond) (imm8 : BitVec 8) : EndsKeepingMemory s (execBcond cond imm8 s) := by
  unfold Machine.execBcond
  split <;> exact next rfl rfl

end EndsKeepingMemory

/-- An instruction outside the stores of R75 changes registers and flags only, or enters a fault. -/
theorem exec_endsKeepingMemory {i : Instr} (hi : storesMemory i = false) (s : State) :
    EndsKeepingMemory s (exec i s) := by
  cases i with
  | strReg | strhReg | strbReg | strImm | strbImm | strhImm | strSp | push | stm => cases hi
  | lslsImm | movsReg | lsrsImm | asrsImm | addsReg | subsReg | addsImm3 | subsImm3 | movsImm | cmpImm | addsImm8
  | subsImm8 | ands | eors | lslsReg | lsrsReg | asrsReg | adcs | sbcs | rors | tst | rsbs | cmpReg | cmn | orrs | muls
  | bics | mvns | adr | addRdSp | addSp | subSp | sxth | sxtb | uxth | uxtb | rev | rev16 | revsh | nop | b | bl =>
    exact .next rfl rfl
  | ldrLit | ldrsbReg | ldrReg | ldrhReg | ldrbReg | ldrshReg | ldrImm | ldrbImm | ldrhImm | ldrSp =>
    exact .loadInto s _ _ _ _
  | addHi => exact .guarded (.writeResult s _ _)
  | cmpHi => exact .guarded (.next rfl rfl)
  | movHi => exact .writeResult s _ _
  | bx => exact .completeShort fun _ => branchExchange_onlyRegs
  | blx => exact .guarded (.completeShort fun _ h => (OnlyRegs.setReg s _ _).trans (branchExchange_onlyRegs h))
  | pop => exact .guarded (.completeShort fun _ => popBody_onlyRegs)
  | ldm => exact .guarded (.completeShort fun _ => ldmBody_onlyRegs)
  | bcond => exact .execBcond s _ _
  | cps | bkpt | yield | wfe | wfi | sev | udf | svc | msr | mrs | dsb | dmb | isb => exact .takeFault s _ _

/-! ## The host's ports on the devices (R68, R70, R309) -/

theorem descriptors_setDeviceState {i : Nat} (hd : s.devices[i]? = some d) (st : DevState) :
    descriptors { s with devices := s.devices.set i { d with state := st } } = descriptors s := by
  obtain ⟨hi, rfl⟩ := List.getElem?_eq_some_iff.mp hd
  simp only [descriptors, List.map_set]
  rw [← List.getElem_map Device.desc (h := by simpa using hi), List.set_getElem_self]

/-- At a volatile device a `dev_input` fails only with the device's own message (R309 (b)). -/
theorem tryDevInput_error_of_volatile {i event : Nat} {message : String}
    (h : s.tryDevInput i event = .error message) (hd : s.devices[i]? = some d) (hv : d.desc.isVolatile = true) :
    Config.deviceInput d.desc d.state event = .error message := by
  cases hin : Config.deviceInput d.desc d.state event with
  | ok st => simp [State.tryDevInput, deviceAfterInput, hd, hv, hin] at h
  | error m => simpa [State.tryDevInput, deviceAfterInput, hd, hv, hin] using h

theorem findDevice_ownedBy (h : OwnedBy s a before d after) : findDevice s a = .ok d.desc := by
  simp [findDevice, owner_ownedBy h]

theorem findDevice_unowned (h : Unowned s a) : findDevice s a = .error (routingError a) := by
  simp [findDevice, owner_unowned h]

/-! ## The obligations -/

/-- Settles O31: such an instruction changes registers and flags only, or enters a fault. -/
theorem onlyStoresChangeMemory : Obligations.OnlyStoresChangeMemory :=
  fun _ s t _ hi h hrun => exec_endsKeepingMemory hi s t h hrun

/-- Settles O32, by the owner of the address. -/
theorem aByteReadGoesToTheFirstDevice : Obligations.AByteReadGoesToTheFirstDevice :=
  fun _ _ => ⟨busReadByte_unowned, fun _ _ _ => busReadByte_ownedBy⟩

/-- Settles O33: memory where no device owns the address; else the owner's protection, then its own write. -/
theorem aByteWriteGoesToTheFirstDevice : Obligations.AByteWriteGoesToTheFirstDevice := by
  refine fun s a b => ⟨fun hunowned hwf => ?_, fun before d after howned => ⟨busWriteByte_readOnly howned,
    busWriteByte_deviceError howned, fun _ hwritable => busWriteByte_deviceWrite howned hwritable,
    fun hbehaviour hwf => ?_⟩⟩
  · exact ⟨_, busWriteByte_unowned hunowned b, rfl, Memory.read_write hwf.1 a.toNat b⟩
  · exact ⟨Device.read_byteStore hbehaviour a, _, Device.write_byteStore hbehaviour a b, rfl,
      Memory.read_write hwf.1 a.toNat b⟩

/-- Settles O34: the check of R71 comes first, and no byte of an access raises `AddressRange` after it. -/
theorem readsAreLittleEndianWithinTheAddressSpace : Obligations.ReadsAreLittleEndianWithinTheAddressSpace := by
  refine fun s a w v => ⟨fun hpast => ?_, fun hin => ⟨?_, fun x => ?_⟩⟩
  · have hout : ¬ CanLoad a w := Nat.not_le.mpr hpast
    exact ⟨memRead_of_not_canLoad s hout, memWrite_of_not_canLoad s v hout⟩
  · exact ⟨_, memRead_of_canLoad s hin, toNat_busReadBytes_width s a w⟩
  · rw [memWrite_of_canLoad s v hin]
    exact busWriteBytes_ne_addressRange s a v x w.bytes

/-- Settles O35, byte by byte from the lowest address. -/
theorem writesAreByteWritesInAscendingOrder : Obligations.WritesAreByteWritesInAscendingOrder := by
  refine fun s a v => ⟨?_, fun hhalf => ?_, fun hword => ?_⟩
  · rw [memWrite_of_canLoad s v (canLoad_byte a)]
    exact busWriteBytes_one s a v
  · rw [memWrite_of_canLoad s v (w := .half) hhalf]
    simp only [Width.bytes, busWriteBytes_succ _ _ _ (_ + 1), busWriteBytes_one, wordByte_shift, Nat.reduceAdd]
  · have htwo : a + 1 + 1 = a + 2 := add_one_add a 1
    have hthree : a + 2 + 1 = a + 3 := BitVec.add_assoc a 2 1
    rw [memWrite_of_canLoad s v (w := .word) hword]
    simp only [Width.bytes, busWriteBytes_succ _ _ _ (_ + 1), busWriteBytes_one, wordByte_shift, htwo, hthree,
      Nat.reduceAdd]

/-- Settles O36: every byte lands, and a read of any width is the number of the bytes it finds. -/
theorem mixedWidthsSeeTheSameBytes : Obligations.MixedWidthsSeeTheSameBytes := by
  intro s a w v hs hstore
  obtain ⟨t, ht, hstored⟩ := memWrite_storable (storesWf_of_inv hs) v hstore
  refine ⟨t, ht, hstored, fun i hi => ?_, fun i hi => ?_, ?_⟩
  · refine memRead_eq_of_bytesAt (canLoad_byte _) ?_
    rw [Width.bytes, bytesAt_byte, hstored.landed i hi]
  · have hnext : a + BitVec.ofNat 32 i + 1 = a + BitVec.ofNat 32 (i + 1) :=
      (add_right_comm a _ 1).trans (add_one_add a i)
    refine memRead_eq_of_bytesAt (canLoad_half_of_lt hstore.inRange hi) ?_
    rw [Width.bytes, bytesAt_half, hnext, hstored.landed i (by omega), hstored.landed (i + 1) hi]
  · refine memRead_eq_of_bytesAt hstore.inRange ?_
    have hlt : v.toNat % 2 ^ (8 * w.bytes) < 2 ^ 32 := (Nat.mod_le _ _).trans_lt v.isLt
    rw [bytesAt_of_landed hstored.landed, BitVec.toNat_ofNat, Nat.mod_eq_of_lt hlt]

/-- Settles O60: a `dev_input` that succeeds sets the state of one volatile device, one that fails sets nothing; the
owner of the address decides `find_device`. -/
theorem deviceInputAndRouting : Obligations.DeviceInputAndRouting := by
  refine fun s i event => ⟨⟨_, transact_devInput s i event, ?_⟩,
    fun a => ⟨fun _ _ _ => findDevice_ownedBy, fun h => ⟨_, findDevice_unowned h⟩⟩⟩
  simp only [reply_devInput]
  obtain ⟨t, hok, ht, hreply⟩ | ⟨message, herror, ht, hreply⟩ := State.devInput_cases s i event
  · obtain ⟨d, st, hd, hvolatile, hinput, rfl⟩ := State.tryDevInput_ok hok
    rw [ht, hreply]
    refine ⟨rfl, descriptors_setDeviceState hd _, fun j hj => List.getElem?_set_ne hj.symm, ?_, ?_, ?_⟩
    · intro hnone
      cases hd.symm.trans hnone
    · intro e he hfixed
      cases hd.symm.trans he
      simp [hvolatile] at hfixed
    · intro e he _
      cases hd.symm.trans he
      simp [hinput, List.getElem?_set_self', hd]
  · rw [ht, hreply]
    refine ⟨rfl, rfl, fun _ _ => rfl, fun _ => ⟨rfl, message, rfl⟩, fun _ _ _ => ⟨rfl, message, rfl⟩, ?_⟩
    intro d hd hvolatile
    rw [tryDevInput_error_of_volatile herror hd hvolatile]
    exact ⟨rfl, rfl⟩

end Sys2Proof.Machine
end

section
/-! PROOFS. The two round trips of the encoding (R104, R125): which bits each field of an encoded halfword holds, and
which halfword each answer of the decoder was read from. -/

namespace Sys2Proof

/-! ## Placed bits and the fields that read them -/

@[simp] theorem placeLow_eq (r : LowReg) (lo : Nat) : placeLow r lo = place (BitVec.ofFin (w := 3) r) lo := rfl

@[simp] theorem placeRm_eq (r : Reg) : placeRm r = place (BitVec.ofFin (w := 4) r) 3 := rfl

@[simp] theorem or_placeSplit (x : Halfword) (r : Reg) :
    x ||| placeSplit r = x ||| place ((BitVec.ofFin (w := 4) r).extractLsb' 3 1) 7 |||
      place ((BitVec.ofFin (w := 4) r).extractLsb' 0 3) 0 := (BitVec.or_assoc _ _ _).symm

@[simp] theorem place_ofNat (n k p : Nat) : place (BitVec.ofNat n k) p = (BitVec.ofNat n k).setWidth 16 <<< p := rfl

theorem getLsbD_place {n : Nat} (v : BitVec n) (p i : Nat) :
    (place v p).getLsbD i = (decide (i < 16) && decide (p ≤ i) && v.getLsbD (i - p)) := by
  simp only [place, BitVec.getLsbD_shiftLeft, BitVec.getLsbD_setWidth]
  by_cases hi : i < 16
  · by_cases hp : p ≤ i
    · simp [hi, hp, show i - p < 16 by omega]
    · simp [hi, hp]
  · simp [hi]

@[simp] theorem field_place_self {n : Nat} (v : BitVec n) (lo : Nat) (h : lo + n ≤ 16) :
    field (place v lo) lo n = v := by
  ext i hi
  rw [BitVec.getElem_extractLsb', getLsbD_place, BitVec.getLsbD_eq_getElem (by omega)]
  simp [show lo + i < 16 by omega]

@[simp] theorem field_place_below {n : Nat} (v : BitVec n) (p lo m : Nat) (h : lo + m ≤ p) :
    field (place v p) lo m = 0#m := by
  ext i hi
  rw [BitVec.getElem_extractLsb', getLsbD_place]
  simp [show ¬ p ≤ lo + i by omega]

@[simp] theorem field_place_above {n : Nat} (v : BitVec n) (p lo m : Nat) (h : p + n ≤ lo) :
    field (place v p) lo m = 0#m := by
  ext i hi
  rw [BitVec.getElem_extractLsb', getLsbD_place, BitVec.getLsbD_of_ge v _ (by omega)]
  simp

/-- The split register number is put together again (R106). -/
@[simp] theorem toFin_append_split (r : Reg) :
    (BitVec.extractLsb' 3 1 (BitVec.ofFin (w := 4) r) ++ BitVec.extractLsb' 0 3 (BitVec.ofFin (w := 4) r)).toFin = r := by
  rw [BitVec.extractLsb'_append_extractLsb'_eq_extractLsb' (start₁ := 0) (len₁ := 3) rfl]
  exact congrArg BitVec.toFin BitVec.extractLsb'_eq_self

/-! ## The same as numbers -/

@[simp] theorem toNat_field (h : Halfword) (lo n : Nat) : (field h lo n).toNat = h.toNat / 2 ^ lo % 2 ^ n := by
  rw [BitVec.extractLsb'_toNat, Nat.shiftRight_eq_div_pow]

@[simp] theorem val_lowField (h : Halfword) (lo : Nat) : (lowField h lo).val = h.toNat / 2 ^ lo % 8 := toNat_field h lo 3

@[simp] theorem val_hiRm (h : Halfword) : (hiRm h).val = h.toNat / 2 ^ 3 % 16 := toNat_field h 3 4

@[simp] theorem val_hiRd (h : Halfword) : (hiRd h).val = h.toNat / 2 ^ 7 % 2 * 8 + h.toNat % 8 := by
  simp only [hiRd, BitVec.val_toFin, BitVec.toNat_append, toNat_field]
  rw [← Nat.shiftLeft_add_eq_or_of_lt (Nat.mod_lt _ (by decide)), Nat.shiftLeft_eq]
  simp

@[simp] theorem toNat_place {n : Nat} (v : BitVec n) (p : Nat) (h : p + n ≤ 16) :
    (place v p).toNat = v.toNat * 2 ^ p := by
  have hv : v.toNat < 2 ^ 16 := v.isLt.trans_le (Nat.pow_le_pow_right (by decide) (by omega))
  have hlt : v.toNat * 2 ^ p < 2 ^ 16 :=
    calc v.toNat * 2 ^ p < 2 ^ n * 2 ^ p := Nat.mul_lt_mul_of_pos_right v.isLt (Nat.two_pow_pos p)
      _ = 2 ^ (p + n) := by rw [Nat.add_comm, pow_add]
      _ ≤ 2 ^ 16 := Nat.pow_le_pow_right (by decide) h
  rw [place, BitVec.toNat_shiftLeft, BitVec.toNat_setWidth, Nat.mod_eq_of_lt hv, Nat.shiftLeft_eq, Nat.mod_eq_of_lt hlt]

theorem and_place_eq_zero {n : Nat} {x : Halfword} {p : Nat} (hx : field x p n = 0#n) (v : BitVec n) :
    x &&& place v p = 0#16 := by
  refine BitVec.eq_of_getLsbD_eq fun i hi => ?_
  rw [BitVec.getLsbD_and, getLsbD_place]
  by_cases hp : p ≤ i
  · have hbit := congrArg (·.getLsbD (i - p)) hx
    simp only [BitVec.getLsbD_extractLsb', Nat.add_sub_cancel' hp] at hbit
    by_cases hn : i - p < n
    · simp_all
    · simp [BitVec.getLsbD_of_ge v (i - p) (by omega)]
  · simp [hp]

/-- Bits placed where a halfword has zeros add to its number. -/
theorem toNat_or_place {n : Nat} (x : Halfword) (v : BitVec n) (p : Nat) (h : p + n ≤ 16) (hx : field x p n = 0#n) :
    (x ||| place v p).toNat = x.toNat + v.toNat * 2 ^ p := by
  rw [← toNat_place v p h, ← BitVec.toNat_add_of_and_eq_zero (and_place_eq_zero hx v),
    BitVec.add_eq_or_of_and_eq_zero _ _ (and_place_eq_zero hx v)]

/-! ## Decoding what was encoded -/

/-- The encoder writes the length prefix of R102. -/
theorem isLong_encodeFirst (i : Instr) : isLong (encodeFirst i) = (encodeSecond i).isSome := by
  cases i with
  | bcond cond imm8 => cases cond <;> simp [encodeFirst, encodeSecond, isLong, Cond.code, BitVec.extractLsb'_or]
  | _ => simp [encodeFirst, encodeSecond, isLong, BitVec.extractLsb'_or]

/-- Each field the decoder looks at holds the row's literal or the operand. -/
theorem decodeShort_encodeFirst {i : Instr} (hwf : i.wellFormed = true) (hi : encodeSecond i = none) :
    decodeShort (encodeFirst i) = some i := by
  cases i with
  | lslsImm rd rm imm5 =>
    have himm5 : imm5 ≠ 0#5 := by simpa [Instr.wellFormed] using hwf
    simp [encodeFirst, decodeShort, field, lowField, BitVec.extractLsb'_or, himm5]
  | ands | eors | lslsReg | lsrsReg | asrsReg | adcs | sbcs | rors | tst | rsbs | cmpReg | cmn | orrs | muls | bics | mvns =>
    simp [encodeFirst, decodeShort, decodeDataProcessing, field, lowField, BitVec.extractLsb'_or]
  | addHi | cmpHi | movHi | bx | blx =>
    simp [encodeFirst, decodeShort, decodeHighRegister, field, hiRd, hiRm, BitVec.extractLsb'_or]
  | strReg | strhReg | strbReg | ldrsbReg | ldrReg | ldrhReg | ldrbReg | ldrshReg =>
    simp [encodeFirst, decodeShort, decodeRegisterOffset, field, lowField, BitVec.extractLsb'_or]
  | addSp | subSp | sxth | sxtb | uxth | uxtb =>
    simp [encodeFirst, decodeShort, decodeMisc10110, field, lowField, BitVec.extractLsb'_or]
  | push b | cps b =>
    cases b <;> simp [encodeFirst, decodeShort, decodeMisc10110, field, BitVec.extractLsb'_or]
  | rev | rev16 | revsh | bkpt | nop | yield | wfe | wfi | sev =>
    simp [encodeFirst, decodeShort, decodeMisc10111, field, lowField, BitVec.extractLsb'_or]
  | pop p => cases p <;> simp [encodeFirst, decodeShort, decodeMisc10111, field, BitVec.extractLsb'_or]
  | bcond cond =>
    cases cond <;> simp [encodeFirst, decodeShort, decodeConditional, Cond.code, field, BitVec.extractLsb'_or]
  | udf | svc => simp [encodeFirst, decodeShort, decodeConditional, field, BitVec.extractLsb'_or]
  | bl | msr | mrs | dsb | dmb | isb => cases hi
  | _ => simp [encodeFirst, decodeShort, field, lowField, BitVec.extractLsb'_or]

theorem decodeLong_encode {i : Instr} {hw2 : Halfword} (hi : encodeSecond i = some hw2) :
    decodeLong (encodeFirst i) hw2 = some i := by
  cases i with
  | bl | msr | mrs | dsb | dmb | isb =>
    cases hi
    simp [encodeFirst, decodeLong, field, BitVec.extractLsb'_or]
  | _ => cases hi

theorem decode_of_isLong {hw1 hw2 : Halfword} {i : Instr} (hlong : isLong hw1 = true) (h : decodeLong hw1 hw2 = some i) :
    decode hw1 hw2 = .ok i := by
  simp [decode, hlong, h]

theorem decode_of_not_isLong {hw1 : Halfword} {i : Instr} (hshort : isLong hw1 = false) (h : decodeShort hw1 = some i)
    (hw2 : Halfword) : decode hw1 hw2 = .ok i := by
  simp [decode, hshort, h]

theorem decode_encode {i : Instr} (hwf : i.wellFormed = true) (other : Halfword) :
    decode (encodeFirst i) ((encodeSecond i).getD other) = .ok i := by
  have hlen := isLong_encodeFirst i
  cases hi : encodeSecond i with
  | none => exact decode_of_not_isLong (by rw [hlen, hi]; rfl) (decodeShort_encodeFirst hwf hi) _
  | some hw2 => exact decode_of_isLong (by rw [hlen, hi]; rfl) (decodeLong_encode hi)

/-- The two bytes of a halfword, put together again (R52). -/
theorem halfwordLE_bytes (h : Halfword) : halfwordLE (h.extractLsb' 0 8) (h.extractLsb' 8 8) = h := by
  rw [halfwordLE, BitVec.extractLsb'_append_extractLsb'_eq_extractLsb' (start₁ := 0) (len₁ := 8) rfl]
  exact BitVec.extractLsb'_eq_self

theorem decodeBytes_instructionBytes {i : Instr} (hwf : i.wellFormed = true) (rest : List Byte) :
    decodeBytes (Safety.instructionBytes i ++ rest) = .ok (i, rest) := by
  have hlen := isLong_encodeFirst i
  have hdecode := decode_encode hwf 0
  cases hi : encodeSecond i
  all_goals
    rw [hi] at hlen hdecode
    simp_all [Safety.instructionBytes, encode, decodeBytes, halfwordLE_bytes, Except.map]

/-! ## Encoding what was decoded

A branch of the decoder gives the literals of its halfword as numbers, and so does the encoder's line: the literals and the
fields between them add up to the halfword. -/

/-- The instruction is well formed and its encoding is the one halfword `h`. -/
structure ReadFrom (h : Halfword) (i : Instr) : Prop where
  wellFormed : i.wellFormed = true
  first      : encodeFirst i = h
  second     : encodeSecond i = none

variable {h : Halfword} {i : Instr}

theorem ReadFrom.of_toNat (hwf : i.wellFormed = true) (hsecond : encodeSecond i = none)
    (hfirst : (encodeFirst i).toNat = h.toNat) : ReadFrom h i := ⟨hwf, BitVec.eq_of_toNat_eq hfirst, hsecond⟩

theorem readFrom_decodeDataProcessing (hop : h.toNat / 2 ^ 10 = 0b010000) : ReadFrom h (decodeDataProcessing h) := by
  simp only [decodeDataProcessing, toNat_field]
  split
  all_goals
    refine .of_toNat rfl rfl ?_
    simp [encodeFirst, toNat_or_place, field, BitVec.extractLsb'_or, -BitVec.toNat_or] at *
    omega

theorem readFrom_of_decodeHighRegister (hop : h.toNat / 2 ^ 10 = 0b010001) (hi : decodeHighRegister h = some i) :
    ReadFrom h i := by
  simp only [decodeHighRegister, BitVec.toNat_eq, toNat_field] at hi
  repeat' split at hi
  all_goals cases hi
  all_goals
    refine .of_toNat rfl rfl ?_
    simp [encodeFirst, toNat_or_place, field, BitVec.extractLsb'_or, -BitVec.toNat_or] at *
    omega

theorem readFrom_decodeRegisterOffset (hop : h.toNat / 2 ^ 12 = 0b0101) : ReadFrom h (decodeRegisterOffset h) := by
  simp only [decodeRegisterOffset, toNat_field]
  split
  all_goals
    refine .of_toNat rfl rfl ?_
    simp [encodeFirst, toNat_or_place, field, BitVec.extractLsb'_or, -BitVec.toNat_or] at *
    omega

theorem readFrom_cps (hfixed : h.toNat / 2 ^ 5 = 0b10110110011) (hlow : h.toNat % 2 ^ 4 = 0b0010) :
    ReadFrom h (.cps (h.getLsbD 4)) := by
  have hbit : (h.getLsbD 4).toNat = h.toNat / 2 ^ 4 % 2 := by
    rw [BitVec.getLsbD, Nat.toNat_testBit]
  refine .of_toNat rfl rfl ?_
  rw [encodeFirst, toNat_or_place _ _ _ (by decide) (by decide), BitVec.toNat_ofBool, hbit]
  simp
  omega

theorem readFrom_of_decodeMisc10110 (hop : h.toNat / 2 ^ 11 = 0b10110) (hi : decodeMisc10110 h = some i) :
    ReadFrom h i := by
  simp only [decodeMisc10110, BitVec.toNat_eq, toNat_field] at hi
  split at hi
  case h_5 => -- `CPS`
    split_ifs at hi with hcps
    cases hi
    simp at hcps
    exact readFrom_cps (by omega) (by omega)
  all_goals repeat' split at hi
  all_goals cases hi
  all_goals
    refine .of_toNat rfl rfl ?_
    simp [encodeFirst, toNat_or_place, field, BitVec.extractLsb'_or, -BitVec.toNat_or] at *
    omega

theorem readFrom_of_decodeMisc10111 (hop : h.toNat / 2 ^ 11 = 0b10111) (hi : decodeMisc10111 h = some i) :
    ReadFrom h i := by
  simp only [decodeMisc10111, toNat_field] at hi
  repeat' split at hi
  all_goals cases hi
  all_goals
    refine .of_toNat rfl rfl ?_
    simp [encodeFirst, toNat_or_place, field, BitVec.extractLsb'_or, -BitVec.toNat_or] at *
    omega

theorem readFrom_decodeConditional (hop : h.toNat / 2 ^ 12 = 0b1101) : ReadFrom h (decodeConditional h) := by
  simp only [decodeConditional, toNat_field]
  split
  all_goals
    refine .of_toNat rfl rfl ?_
    simp [encodeFirst, Cond.code, toNat_or_place, field, -BitVec.toNat_or] at *
    omega

theorem readFrom_of_decodeShort (hi : decodeShort h = some i) : ReadFrom h i := by
  simp only [decodeShort, BitVec.toNat_eq, toNat_field] at hi
  split at hi
  case h_1 => -- `LSLS`, with `MOVS` inside it
    split_ifs at hi with himm5
    · cases hi
      refine .of_toNat rfl rfl ?_
      simp [encodeFirst, toNat_or_place, field, -BitVec.toNat_or] at *
      omega
    · cases hi
      refine .of_toNat ?_ rfl ?_
      · simpa [Instr.wellFormed, BitVec.toNat_eq, -BitVec.extractLsb'_toNat] using himm5
      · simp [encodeFirst, toNat_or_place, field, BitVec.extractLsb'_or, -BitVec.toNat_or] at *
        omega
  case h_9 => -- `0b01000`
    split_ifs at hi with hbit
    · cases hi
      exact readFrom_decodeDataProcessing (by simp at hbit; omega)
    · exact readFrom_of_decodeHighRegister (by simp at hbit; omega) hi
  case h_11 | h_12 => -- `0b0101`
    cases hi
    exact readFrom_decodeRegisterOffset (by omega)
  case h_23 => -- `0b10110`
    exact readFrom_of_decodeMisc10110 (by omega) hi
  case h_24 => -- `0b10111`
    exact readFrom_of_decodeMisc10111 (by omega) hi
  case h_27 | h_28 => -- `0b1101`
    cases hi
    exact readFrom_decodeConditional (by omega)
  all_goals repeat' split at hi
  all_goals cases hi
  all_goals
    refine .of_toNat rfl rfl ?_
    simp [encodeFirst, toNat_or_place, field, BitVec.extractLsb'_or, -BitVec.toNat_or] at *
    omega

theorem encode_of_decodeLong {hw1 hw2 : Halfword} (hi : decodeLong hw1 hw2 = some i) :
    i.wellFormed = true ∧ encodeFirst i = hw1 ∧ encodeSecond i = some hw2 := by
  simp only [decodeLong, BitVec.toNat_eq, toNat_field] at hi
  split_ifs at hi
  all_goals
    cases hi
    refine ⟨rfl, BitVec.eq_of_toNat_eq ?_, congrArg some (BitVec.eq_of_toNat_eq ?_)⟩
    all_goals
      simp [encodeFirst, toNat_or_place, field, BitVec.extractLsb'_or, -BitVec.toNat_or] at *
      omega

/-- Which of the two decoders answered. -/
theorem decode_ok {hw1 hw2 : Halfword} (hi : decode hw1 hw2 = .ok i) :
    (isLong hw1 = true ∧ decodeLong hw1 hw2 = some i) ∨ (isLong hw1 = false ∧ decodeShort hw1 = some i) := by
  unfold decode at hi
  split at hi
  · split at hi
    · cases hi; exact .inl ⟨‹_›, ‹_›⟩
    · cases hi
  · split at hi
    · cases hi; exact .inr ⟨(Bool.not_eq_true _).mp ‹_›, ‹_›⟩
    · cases hi

/-- A decoded instruction is well formed, its halfwords are the ones it was read from, and it has a second one exactly
where the first says so (R102). -/
theorem encode_of_decode {hw1 hw2 : Halfword} (hi : decode hw1 hw2 = .ok i) :
    i.wellFormed = true ∧ encodeFirst i = hw1 ∧ encodeSecond i = if isLong hw1 then some hw2 else none := by
  obtain ⟨hlong, hi⟩ | ⟨hshort, hi⟩ := decode_ok hi
  · rw [if_pos hlong]
    exact encode_of_decodeLong hi
  · obtain ⟨hwf, hfirst, hsecond⟩ := readFrom_of_decodeShort hi
    exact ⟨hwf, hfirst, by simp [hshort, hsecond]⟩

theorem isLong_eq_decide (hw1 : Halfword) : isLong hw1 = decide (0b11101 ≤ hw1.toNat / 2 ^ 11) := by
  have := hw1.isLt
  rw [isLong, toNat_field, Nat.mod_eq_of_lt (by omega)]

/-! ## The obligations -/

/-- Settles O1, constructor by constructor: every field the decoder reads holds what the encoder placed there. -/
theorem decodingAnEncodedInstructionGivesItBack : Obligations.DecodingAnEncodedInstructionGivesItBack :=
  fun _ hwf => ⟨decode_encode hwf, decodeBytes_instructionBytes hwf⟩

/-- Settles O2, leaf by leaf of the decoder: the literals of the branch and the fields of the instruction make up the
halfword. -/
theorem encodingADecodedInstructionGivesTheWordsBack : Obligations.EncodingADecodedInstructionGivesTheWordsBack := by
  intro hw1 hw2 i hi
  obtain ⟨hwf, hfirst, hsecond⟩ := encode_of_decode hi
  refine ⟨hwf, ?_⟩
  rw [encode, hfirst, hsecond]
  split <;> rfl

/-- Settles O5: the prefixes are the numbers from 29 to 31, and a decoded instruction has the halfwords it was read
from. -/
theorem theFirstHalfwordTellsTheLength : Obligations.TheFirstHalfwordTellsTheLength := by
  refine fun hw1 => ⟨?_, fun hw2 i hi => ?_, fun hshort a b => ?_⟩
  · have := hw1.isLt
    rw [isLong_eq_decide, decide_eq_true_iff]
    omega
  · obtain ⟨-, -, hsecond⟩ := encode_of_decode hi
    rw [hsecond]
    cases isLong hw1 <;> rfl
  · simp [decode, hshort]

end Sys2Proof
end

section
/-! PROOFS. The opcode table against the opcode map: where rows overlap (R104), which row the selection takes (R103), which
halfwords no row covers (R113), and the entry of `Undefined` that dispatch makes where no admitted row is selected. -/

namespace Sys2Proof

/-! ## Literal bits of a halfword -/

/-- Where a mask is all ones a halfword has the field of the value. -/
theorem field_eq_of_and_eq {x m v : Halfword} (h : x &&& m = v) {lo n : Nat} (hm : field m lo n = BitVec.allOnes n) :
    field x lo n = field v lo n := by
  unfold field at hm ⊢
  rw [← h, BitVec.extractLsb'_and, hm, BitVec.and_allOnes]

/-- Two values a halfword has under two masks agree where both masks are set. -/
theorem and_eq_and_of_and_eq {x m v m' v' : Halfword} (h : x &&& m = v) (h' : x &&& m' = v') : v &&& m' = v' &&& m := by
  rw [← h, ← h', BitVec.and_assoc, BitVec.and_assoc, BitVec.and_comm m m']

/-- A halfword with the value `v` under a mask lies between `v` and `v` with every free bit set. -/
theorem toNat_range_of_and_eq {x m v : Halfword} (h : x &&& m = v) :
    v.toNat ≤ x.toNat ∧ x.toNat ≤ v.toNat + (~~~m).toNat := by
  have hdisjoint : v &&& (x &&& ~~~m) = 0#16 := by
    rw [← h, BitVec.and_assoc, ← BitVec.and_assoc m, BitVec.and_comm m x, BitVec.and_assoc x m]
    simp
  have hjoin : v ||| (x &&& ~~~m) = x := by
    rw [← h, ← BitVec.and_or_distrib_left, BitVec.or_not_self, BitVec.and_allOnes]
  have hsum : x.toNat = v.toNat + (x &&& ~~~m).toNat := by
    rw [← BitVec.toNat_add_of_and_eq_zero hdisjoint, BitVec.add_eq_or_of_and_eq_zero _ _ hdisjoint, hjoin]
  have hfree : (x &&& ~~~m).toNat ≤ (~~~m).toNat := by
    rw [BitVec.toNat_and]
    exact Nat.and_le_right
  omega

/-! ## Overlapping rows (R104) -/

/-- No halfword, or pair of halfwords, fits both rows: they differ in length or in a bit that is literal in both. -/
def OpcodeRow.clashes (r q : OpcodeRow) : Bool :=
  r.value &&& q.mask != q.value &&& r.mask ||
    match r.second, q.second with
    | none, none => false
    | some (mask, value), some (mask', value') => value &&& mask' != value' &&& mask
    | _, _ => true

/-- A numbered row inside another: one of the three pairs of R104, the second fixing every bit the first fixes, and more. -/
def Specializes (r q : OpcodeRow × Nat) : Prop :=
  ((r.2 = 0 ∧ q.2 = 1) ∨ (r.2 = 72 ∧ q.2 = 73) ∨ (r.2 = 72 ∧ q.2 = 74)) ∧
    r.1.mask &&& q.1.mask = r.1.mask ∧ r.1.mask ≠ q.1.mask ∧ r.1.literals < q.1.literals

theorem OpcodeRow.fits_iff (r : OpcodeRow) (hw1 hw2 : Halfword) :
    r.fits hw1 hw2 = true ↔ hw1 &&& r.mask = r.value ∧ isLong hw1 = r.second.isSome ∧
      ∀ q, r.second = some q → hw2 &&& q.1 = q.2 := by
  obtain ⟨_, _, _, _, second⟩ := r
  cases second with
  | none => simp [OpcodeRow.fits]
  | some q => simp [OpcodeRow.fits]

theorem OpcodeRow.clashes_of_fits {r q : OpcodeRow} {hw1 hw2 : Halfword} (hr : r.fits hw1 hw2 = true)
    (hq : q.fits hw1 hw2 = true) : r.clashes q = false := by
  obtain ⟨hr1, hrlong, hr2⟩ := (r.fits_iff hw1 hw2).mp hr
  obtain ⟨hq1, hqlong, hq2⟩ := (q.fits_iff hw1 hw2).mp hq
  have hfirst := and_eq_and_of_and_eq hr1 hq1
  have hlen : r.second.isSome = q.second.isSome := hrlong.symm.trans hqlong
  cases hrs : r.second with
  | none =>
    cases hqs : q.second with
    | none => simp [clashes, hrs, hqs, hfirst]
    | some y => simp [hrs, hqs] at hlen
  | some x =>
    cases hqs : q.second with
    | none => simp [hrs, hqs] at hlen
    | some y => simp [clashes, hrs, hqs, hfirst, and_eq_and_of_and_eq (hr2 x hrs) (hq2 y hqs)]

/-- The table, pair by pair. -/
theorem opcodeTable_pairwise :
    opcodeTable.zipIdx.Pairwise fun r q => r.1.clashes q.1 = false → Specializes r q := by
  unfold Specializes
  decide

theorem specializes_of_fits {hw1 hw2 : Halfword} {a b : Nat} {rowA rowB : OpcodeRow} (ha : opcodeTable[a]? = some rowA)
    (hb : opcodeTable[b]? = some rowB) (hab : a < b) (hfitA : rowA.fits hw1 hw2 = true)
    (hfitB : rowB.fits hw1 hw2 = true) : Specializes (rowA, a) (rowB, b) := by
  obtain ⟨halt, rfl⟩ := List.getElem?_eq_some_iff.mp ha
  obtain ⟨hblt, rfl⟩ := List.getElem?_eq_some_iff.mp hb
  have h := List.pairwise_iff_getElem.mp opcodeTable_pairwise a b (by simpa using halt) (by simpa using hblt) hab
  simp only [List.getElem_zipIdx, Nat.zero_add] at h
  exact h (OpcodeRow.clashes_of_fits hfitA hfitB)

/-- Two rows that fit differ in their number of literal bits. -/
theorem literals_ne_of_fits {hw1 hw2 : Halfword} {a b : Nat} {rowA rowB : OpcodeRow} (ha : opcodeTable[a]? = some rowA)
    (hb : opcodeTable[b]? = some rowB) (hab : a ≠ b) (hfitA : rowA.fits hw1 hw2 = true)
    (hfitB : rowB.fits hw1 hw2 = true) : rowA.literals ≠ rowB.literals := by
  rcases Nat.lt_or_gt_of_ne hab with hlt | hgt
  · obtain ⟨-, -, -, hlit⟩ := specializes_of_fits ha hb hlt hfitA hfitB
    exact Nat.ne_of_lt hlit
  · obtain ⟨-, -, -, hlit⟩ := specializes_of_fits hb ha hgt hfitB hfitA
    exact Nat.ne_of_gt hlit

/-! ## The selected row (R103) -/

theorem mem_fittingRows {rows : List OpcodeRow} {k : Nat} {hw1 hw2 : Halfword} {p : Nat × OpcodeRow} :
    p ∈ fittingRows rows k hw1 hw2 ↔ ∃ j, p.1 = k + j ∧ rows[j]? = some p.2 ∧ p.2.fits hw1 hw2 = true := by
  induction rows generalizing k with
  | nil => simp [fittingRows]
  | cons r rows ih =>
    have hlater : (∃ j, p.1 = k + 1 + j ∧ rows[j]? = some p.2 ∧ p.2.fits hw1 hw2 = true) ↔
        ∃ j, p.1 = k + (j + 1) ∧ (r :: rows)[j + 1]? = some p.2 ∧ p.2.fits hw1 hw2 = true := by
      simp only [List.getElem?_cons_succ, Nat.add_assoc, Nat.add_comm 1]
    rw [fittingRows, Nat.or_exists_add_one.symm, ← hlater, ← ih]
    obtain ⟨n, q⟩ := p
    split
    · next hfit =>
      simp only [List.mem_cons, Prod.mk.injEq, Nat.add_zero, List.getElem?_cons_zero, Option.some.injEq]
      refine or_congr_left ⟨?_, ?_⟩
      · rintro ⟨rfl, rfl⟩
        exact ⟨rfl, rfl, hfit⟩
      · rintro ⟨rfl, rfl, -⟩
        exact ⟨rfl, rfl⟩
    · next hfit =>
      refine (or_iff_right ?_).symm
      rintro ⟨-, hrow, hq⟩
      cases Option.some.inj hrow
      exact hfit hq

theorem foldl_moreSpecific (rows : List (Nat × OpcodeRow)) (best : Nat × OpcodeRow) :
    ∃ c ∈ best :: rows, rows.foldl moreSpecific (some best) = some c ∧
      ∀ d ∈ best :: rows, d.2.literals ≤ c.2.literals := by
  induction rows generalizing best with
  | nil => exact ⟨best, by simp, rfl, by simp⟩
  | cons r rows ih =>
    simp only [List.foldl_cons, moreSpecific]
    split
    · next hmore =>
      obtain ⟨c, hc, hfold, hmax⟩ := ih r
      exact ⟨c, .tail _ hc, hfold, List.forall_mem_cons.mpr ⟨hmore.le.trans (hmax r (.head _)), hmax⟩⟩
    · next hless =>
      obtain ⟨c, hc, hfold, hmax⟩ := ih best
      obtain ⟨hbest, hrest⟩ := List.forall_mem_cons.mp hmax
      refine ⟨c, ?_, hfold, List.forall_mem_cons.mpr ⟨hbest, List.forall_mem_cons.mpr ⟨?_, hrest⟩⟩⟩
      · exact (List.mem_cons.mp hc).elim (fun h => h ▸ .head _) fun h => .tail _ (.tail _ h)
      · exact (Nat.not_lt.mp hless).trans hbest

theorem selectRow_eq_none_iff (hw1 hw2 : Halfword) :
    selectRow hw1 hw2 = none ↔
      ∀ (n : Nat) (row : OpcodeRow), opcodeTable[n]? = some row → row.fits hw1 hw2 = false := by
  have hnil : selectRow hw1 hw2 = none ↔ fittingRows opcodeTable 0 hw1 hw2 = [] := by
    unfold selectRow
    cases fittingRows opcodeTable 0 hw1 hw2 with
    | nil => simp
    | cons b rows =>
      obtain ⟨c, -, hfold, -⟩ := foldl_moreSpecific rows b
      simp [moreSpecific, hfold]
  rw [hnil, List.eq_nil_iff_forall_not_mem]
  simp [mem_fittingRows]

/-- The fold keeps a row that no other exceeds, and fitting rows differ in their number of literal bits. -/
theorem selectRow_eq_some_iff (hw1 hw2 : Halfword) (n : Nat) :
    selectRow hw1 hw2 = some n ↔ ∃ row, opcodeTable[n]? = some row ∧ row.fits hw1 hw2 = true ∧
      ∀ (m : Nat) (other : OpcodeRow), opcodeTable[m]? = some other → other.fits hw1 hw2 = true → m ≠ n →
        other.literals < row.literals := by
  cases hsel : selectRow hw1 hw2 with
  | none =>
    rw [selectRow_eq_none_iff] at hsel
    refine ⟨nofun, ?_⟩
    rintro ⟨row, hrow, hfit, -⟩
    rw [hsel n row hrow] at hfit
    cases hfit
  | some k =>
    have hbest : ∃ row, opcodeTable[k]? = some row ∧ row.fits hw1 hw2 = true ∧
        ∀ (m : Nat) (other : OpcodeRow), opcodeTable[m]? = some other → other.fits hw1 hw2 = true →
          other.literals ≤ row.literals := by
      have hmem := @mem_fittingRows opcodeTable 0 hw1 hw2
      unfold selectRow at hsel
      revert hsel hmem
      cases fittingRows opcodeTable 0 hw1 hw2 with
      | nil => intro hsel; cases hsel
      | cons b rows =>
        intro hsel hmem
        obtain ⟨c, hc, hfold, hmax⟩ := foldl_moreSpecific rows b
        simp only [List.foldl_cons, moreSpecific, hfold, Option.map_some, Option.some.injEq] at hsel
        obtain ⟨j, hj, hrow, hfit⟩ := hmem.mp hc
        rw [Nat.zero_add] at hj
        refine ⟨c.2, hsel ▸ hj ▸ hrow, hfit, fun m other hm hfit' => hmax (m, other) ?_⟩
        exact hmem.mpr ⟨m, (Nat.zero_add m).symm, hm, hfit'⟩
    obtain ⟨row, hrow, hfit, hmax⟩ := hbest
    constructor
    · rintro ⟨⟩
      exact ⟨row, hrow, hfit, fun m other hm hfit' hne =>
        Nat.lt_of_le_of_ne (hmax m other hm hfit') (literals_ne_of_fits hm hrow hne hfit' hfit)⟩
    · rintro ⟨row', hrow', hfit', hstrict⟩
      by_contra hne
      have hlt := hstrict k row hrow hfit fun h => hne (h ▸ rfl)
      exact absurd (hmax n row' hrow' hfit') (Nat.not_le.mpr hlt)

/-! ## The row of a decoded instruction -/

theorem place_and_eq_zero {n : Nat} {x : Halfword} {p : Nat} (hx : field x p n = 0#n) (v : BitVec n) :
    place v p &&& x = 0#16 := (BitVec.and_comm _ _).trans (and_place_eq_zero hx v)

theorem and_fullMask (x : Halfword) : x &&& 0xFFFF = x := BitVec.and_allOnes

/-- The encoder writes the literals of the instruction's row, and operands only where the row is free. -/
theorem rowIndex_fits (i : Instr) (other : Halfword) {row : OpcodeRow} (hrow : opcodeTable[i.rowIndex]? = some row) :
    row.fits (encodeFirst i) ((encodeSecond i).getD other) = true := by
  rw [OpcodeRow.fits_iff, isLong_encodeFirst]
  cases i with
  | mrs | dsb | dmb | isb =>
    cases hrow
    refine ⟨and_fullMask _, rfl, ?_⟩
    simp [encodeSecond, BitVec.and_or_distrib_right, place_and_eq_zero, field]
  | bl | msr =>
    cases hrow
    refine ⟨?_, rfl, ?_⟩
    · simp [encodeFirst, BitVec.and_or_distrib_right, place_and_eq_zero, field]
    · simp [encodeSecond, BitVec.and_or_distrib_right, place_and_eq_zero, field]
  | _ =>
    cases hrow
    refine ⟨?_, rfl, nofun⟩
    simp [encodeFirst, BitVec.and_or_distrib_right, place_and_eq_zero, field]

theorem exists_row (i : Instr) : ∃ row, opcodeTable[i.rowIndex]? = some row := by
  cases i with
  | _ => exact ⟨_, rfl⟩

/-- An instruction of a general row is not one of its specific rows: `LSLS` has an amount, `B<cond>` one of fourteen
conditions. -/
theorem not_fits_specialized {i : Instr} (hwf : i.wellFormed = true) {n : Nat} {row : OpcodeRow}
    (hrow : opcodeTable[n]? = some row)
    (hpair : (i.rowIndex = 0 ∧ n = 1) ∨ (i.rowIndex = 72 ∧ n = 73) ∨ (i.rowIndex = 72 ∧ n = 74)) (hw2 : Halfword) :
    row.fits (encodeFirst i) hw2 = false := by
  rw [Bool.eq_false_iff, Ne, OpcodeRow.fits_iff]
  rintro ⟨hfirst, -⟩
  cases i with
  | lslsImm rd rm imm5 =>
    obtain ⟨-, rfl⟩ | ⟨h, -⟩ | ⟨h, -⟩ := hpair
    · cases hrow
      have himm5 : imm5 ≠ 0#5 := by simpa [Instr.wellFormed] using hwf
      have hfield := field_eq_of_and_eq (lo := 6) (n := 5) hfirst rfl
      exact himm5 (by simpa [encodeFirst, field, BitVec.extractLsb'_or] using hfield)
    · cases h
    · cases h
  | bcond cond imm8 =>
    have hcode : field (encodeFirst (.bcond cond imm8)) 8 4 = cond.code := by
      simp [encodeFirst, field, BitVec.extractLsb'_or]
    obtain ⟨h, -⟩ | ⟨-, rfl⟩ | ⟨-, rfl⟩ := hpair
    · cases h
    all_goals
      cases hrow
      have hfield := field_eq_of_and_eq (lo := 8) (n := 4) hfirst rfl
      rw [hcode] at hfield
      cases cond <;> cases hfield
  | _ => simp [Instr.rowIndex] at hpair

/-- The row of a decoded instruction is the one the selection takes. -/
theorem selectRow_of_decode {hw1 hw2 : Halfword} {i : Instr} (hi : decode hw1 hw2 = .ok i) :
    selectRow hw1 hw2 = some i.rowIndex := by
  obtain ⟨hwf, hfirst, hsecond⟩ := encode_of_decode hi
  obtain ⟨row, hrow⟩ := exists_row i
  have hfit : row.fits hw1 hw2 = true := by
    have h := rowIndex_fits i hw2 hrow
    rw [hfirst, hsecond] at h
    cases hlong : isLong hw1 <;> simpa [hlong] using h
  refine (selectRow_eq_some_iff hw1 hw2 _).mpr ⟨row, hrow, hfit, fun m other hm hother hne => ?_⟩
  rcases Nat.lt_or_gt_of_ne hne with hlt | hgt
  · obtain ⟨-, -, -, hlit⟩ := specializes_of_fits hm hrow hlt hother hfit
    exact hlit
  · obtain ⟨hpair, -⟩ := specializes_of_fits hrow hm hgt hfit hother
    rw [← hfirst, not_fits_specialized hwf hm hpair] at hother
    cases hother

/-! ## Halfwords of no row (R113) -/

section

variable {h : Halfword}

theorem decodeHighRegister_eq_none_iff (hop : h.toNat / 2 ^ 10 = 0b010001) :
    decodeHighRegister h = none ↔ Safety.Unallocated h := by
  simp only [decodeHighRegister, BitVec.toNat_eq, toNat_field]
  repeat' split
  all_goals
    simp [Safety.Unallocated] at *
    omega

theorem decodeMisc10110_eq_none_iff (hop : h.toNat / 2 ^ 11 = 0b10110) :
    decodeMisc10110 h = none ↔ Safety.Unallocated h := by
  simp only [decodeMisc10110, BitVec.toNat_eq, toNat_field]
  repeat' split
  all_goals
    simp [Safety.Unallocated] at *
    omega

theorem decodeMisc10111_eq_none_iff (hop : h.toNat / 2 ^ 11 = 0b10111) :
    decodeMisc10111 h = none ↔ Safety.Unallocated h := by
  simp only [decodeMisc10111, toNat_field]
  repeat' split
  all_goals
    simp [Safety.Unallocated] at *
    omega

/-- The opcode map leaves out exactly the halfwords of R113: each branch fixes the leading bits, and the listed ranges
are the branches that answer nothing. -/
theorem decodeShort_eq_none_iff (hshort : isLong h = false) : decodeShort h = none ↔ Safety.Unallocated h := by
  rw [isLong_eq_decide, decide_eq_false_iff_not] at hshort
  simp only [decodeShort, BitVec.toNat_eq, toNat_field]
  split
  case h_9 => -- `0b01000`
    split_ifs with hbit
    · simp [Safety.Unallocated] at *
      omega
    · exact decodeHighRegister_eq_none_iff (by simp at hbit; omega)
  case h_23 => -- `0b10110`
    exact decodeMisc10110_eq_none_iff (by omega)
  case h_24 => -- `0b10111`
    exact decodeMisc10111_eq_none_iff (by omega)
  all_goals repeat' split
  all_goals
    simp [Safety.Unallocated] at *
    omega

end

/-- Ranges that cover the unallocated halfwords. -/
def unallocatedRanges : List (Nat × Nat) :=
  [(0x4700, 0x47FF), (0xB100, 0xB1FF), (0xB300, 0xB3FF), (0xB600, 0xB7FF), (0xB800, 0xB9FF), (0xBA80, 0xBABF),
    (0xBB00, 0xBBFF), (0xBF01, 0xBF0F), (0xBF11, 0xBF1F), (0xBF21, 0xBF2F), (0xBF31, 0xBF3F), (0xBF41, 0xBFFF)]

theorem mem_range_of_unallocated {h : Halfword} (hu : Safety.Unallocated h) :
    ∃ g ∈ unallocatedRanges, g.1 ≤ h.toNat ∧ h.toNat ≤ g.2 := by
  simp only [unallocatedRanges, List.exists_mem_cons_iff, List.not_mem_nil, false_and, exists_false, or_false]
  unfold Safety.Unallocated at hu
  omega

/-- Every one-halfword row ends before an unallocated range begins, or begins after it ends; but for `BX`, `BLX` and
`CPS`, which have literal bits below free ones. -/
theorem shortRows_outside_unallocatedRanges : ∀ row ∈ opcodeTable, row.second = none →
    (row.mask = 0xFF87 ∧ (row.value = 0x4700 ∨ row.value = 0x4780)) ∨ (row.mask = 0xFFEF ∧ row.value = 0xB662) ∨
      ∀ g ∈ unallocatedRanges, row.value.toNat + (~~~row.mask).toNat < g.1 ∨ g.2 < row.value.toNat := by
  decide

theorem not_fits_of_unallocated {h hw2 : Halfword} (hu : Safety.Unallocated h) {row : OpcodeRow}
    (hrow : row ∈ opcodeTable) (hsecond : row.second = none) : row.fits h hw2 = false := by
  rw [Bool.eq_false_iff, Ne, OpcodeRow.fits_iff]
  rintro ⟨hfirst, -⟩
  obtain ⟨hlow, hhigh⟩ := toNat_range_of_and_eq hfirst
  obtain ⟨hmask, hvalue⟩ | ⟨hmask, hvalue⟩ | houtside := shortRows_outside_unallocatedRanges row hrow hsecond
  · rw [hmask] at hfirst hhigh
    have hbits := congrArg BitVec.toNat (field_eq_of_and_eq (lo := 0) (n := 3) hfirst rfl)
    unfold Safety.Unallocated at hu
    rcases hvalue with hvalue | hvalue
    all_goals
      simp [hvalue] at hbits hlow hhigh
      omega
  · rw [hmask, hvalue] at hfirst
    have hbits := congrArg BitVec.toNat (field_eq_of_and_eq (lo := 0) (n := 4) hfirst rfl)
    have htop := congrArg BitVec.toNat (field_eq_of_and_eq (lo := 5) (n := 11) hfirst rfl)
    unfold Safety.Unallocated at hu
    simp at hbits htop
    omega
  · obtain ⟨g, hg, hle⟩ := mem_range_of_unallocated hu
    have := houtside g hg
    omega

theorem longRow_mem_drop : ∀ row ∈ opcodeTable, row.second ≠ none → row ∈ opcodeTable.drop 76 := by decide

theorem decodeLong_ne_none_of_fits {hw1 hw2 : Halfword} {row : OpcodeRow} (hrow : row ∈ opcodeTable)
    (hsecond : row.second ≠ none) (hfit : row.fits hw1 hw2 = true) : decodeLong hw1 hw2 ≠ none := by
  obtain ⟨h1, -, h2⟩ := (row.fits_iff hw1 hw2).mp hfit
  intro hnone
  simp only [decodeLong] at hnone
  split_ifs at hnone with hbl hmsr hmrs hdsb hdmb hisb
  have hlong := longRow_mem_drop row hrow hsecond
  simp only [opcodeTable, opcodeRows0, opcodeRows1, opcodeRows2, opcodeRows3, opcodeRows4, opcodeRows5, List.cons_append,
    List.nil_append, List.drop_succ_cons, List.drop_zero, List.mem_cons, List.not_mem_nil, or_false] at hlong
  obtain rfl | rfl | rfl | rfl | rfl | rfl := hlong
  · exact hbl ⟨field_eq_of_and_eq h1 rfl, field_eq_of_and_eq (h2 _ rfl) rfl, field_eq_of_and_eq (h2 _ rfl) rfl⟩
  · exact hmsr ⟨field_eq_of_and_eq h1 rfl, field_eq_of_and_eq (h2 _ rfl) rfl⟩
  · exact hmrs ⟨(and_fullMask hw1).symm.trans h1, field_eq_of_and_eq (h2 _ rfl) rfl⟩
  · exact hdsb ⟨(and_fullMask hw1).symm.trans h1, field_eq_of_and_eq (h2 _ rfl) rfl⟩
  · exact hdmb ⟨(and_fullMask hw1).symm.trans h1, field_eq_of_and_eq (h2 _ rfl) rfl⟩
  · exact hisb ⟨(and_fullMask hw1).symm.trans h1, field_eq_of_and_eq (h2 _ rfl) rfl⟩

/-- Why the decoder answered nothing (R112, R113). -/
theorem decode_error {hw1 hw2 : Halfword} {r : Reject} (hr : decode hw1 hw2 = .error r) :
    (isLong hw1 = true ∧ decodeLong hw1 hw2 = none ∧ r = .unallocatedPair hw1 hw2) ∨
      (isLong hw1 = false ∧ decodeShort hw1 = none ∧ r = .unallocated hw1) := by
  unfold decode at hr
  split at hr
  · split at hr
    · cases hr
    · cases hr; exact .inl ⟨‹_›, ‹_›, rfl⟩
  · split at hr
    · cases hr
    · cases hr; exact .inr ⟨(Bool.not_eq_true _).mp ‹_›, ‹_›, rfl⟩

/-- The opcode map covers the opcode table. -/
theorem exists_decode_of_fits {hw1 hw2 : Halfword} {row : OpcodeRow} (hrow : row ∈ opcodeTable)
    (hfit : row.fits hw1 hw2 = true) : ∃ i, decode hw1 hw2 = .ok i := by
  obtain ⟨-, hlen, -⟩ := (row.fits_iff hw1 hw2).mp hfit
  cases hdecode : decode hw1 hw2 with
  | ok i => exact ⟨i, rfl⟩
  | error r =>
    exfalso
    obtain ⟨hlong, hnone, -⟩ | ⟨hshort, hnone, -⟩ := decode_error hdecode
    · refine decodeLong_ne_none_of_fits hrow ?_ hfit hnone
      exact Option.isSome_iff_ne_none.mp (hlen.symm.trans hlong)
    · have hsecond : row.second = none := by simpa using hlen.symm.trans hshort
      rw [not_fits_of_unallocated ((decodeShort_eq_none_iff hshort).mp hnone) hrow hsecond] at hfit
      cases hfit

theorem refusedByName_eq_not_admitted (i : Instr) {row : OpcodeRow} (hrow : opcodeTable[i.rowIndex]? = some row) :
    Safety.refusedByName i = !row.admitted := by
  cases i with
  | _ => cases hrow; rfl

end Sys2Proof

namespace Sys2Proof.Machine

open Safety

/-! ## Raising `Undefined` -/

theorem raises_takeFault (s : State) (f : Fault) (ia : Word) : Raises s (.next (s.takeFault f ia)) f ia :=
  ⟨_, rfl, faultedWith_takeFault s f ia⟩

theorem raises_raiseShort {s : State} {ia : Word} (hpc : s.pc = ia + 2) (f : Fault) : Raises s (raiseShort s f) f ia := by
  rw [raiseShort, iaShort_of_pc hpc]
  exact raises_takeFault s f ia

theorem raises_raiseLong {s : State} {ia : Word} (hpc : s.pc = ia + 4) (f : Fault) : Raises s (raiseLong s f) f ia := by
  rw [raiseLong, iaLong_of_pc hpc]
  exact raises_takeFault s f ia

/-- Executing a row refused by name is raising `Undefined` with its halfwords (R313). -/
theorem exec_refusedByName {i : Instr} (hi : refusedByName i = true) {s : State} {ia : Word}
    (hpc : s.pc = ia + byteLength i) : Raises s (exec i s) (.undefined (encodeFirst i) (encodeSecond i)) ia := by
  cases i with
  | cps | bkpt | yield | wfe | wfi | sev | udf | svc => exact raises_raiseShort hpc _
  | msr | mrs | dsb | dmb | isb => exact raises_raiseLong hpc _
  | _ => cases hi

theorem dispatch_of_decode {hw1 hw2 : Halfword} {i : Instr} (hi : decode hw1 hw2 = .ok i) (s : State) (ia : Word) :
    dispatch s ia hw1 hw2 = exec i s := by
  simp only [dispatch, hi]

theorem dispatch_encode {i : Instr} (hwf : i.wellFormed = true) (s : State) (ia : Word) (other : Halfword) :
    dispatch s ia (encodeFirst i) ((encodeSecond i).getD other) = exec i s :=
  dispatch_of_decode (decode_encode hwf other) s ia

theorem dispatch_of_decode_error {hw1 hw2 : Halfword} {r : Reject} (hr : decode hw1 hw2 = .error r) (s : State)
    (ia : Word) : Raises s (dispatch s ia hw1 hw2) (.undefined hw1 (if isLong hw1 then some hw2 else none)) ia := by
  simp only [dispatch, hr]
  obtain ⟨hlen, -, rfl⟩ | ⟨hlen, -, rfl⟩ := decode_error hr
  · rw [hlen]
    exact raises_takeFault s _ ia
  · rw [hlen]
    exact raises_takeFault s _ ia

/-- Where the halfwords decode to nothing, or to a row refused by name, they raise `Undefined`. -/
theorem dispatch_of_refused {hw1 hw2 : Halfword} (hrefused : ∀ i, decode hw1 hw2 = .ok i → refusedByName i = true)
    {s : State} {ia : Word} (hpc : s.pc = ia + if isLong hw1 then 4 else 2) :
    Raises s (dispatch s ia hw1 hw2) (.undefined hw1 (if isLong hw1 then some hw2 else none)) ia := by
  cases hdecode : decode hw1 hw2 with
  | error r => exact dispatch_of_decode_error hdecode s ia
  | ok i =>
    obtain ⟨-, hfirst, hsecond⟩ := encode_of_decode hdecode
    rw [dispatch_of_decode hdecode, ← hsecond, ← hfirst]
    refine exec_refusedByName (hrefused i hdecode) (hpc.trans ?_)
    rw [byteLength, ← hfirst, isLong_encodeFirst]

theorem dispatch_encodeFirst_refused {i : Instr} (hwf : i.wellFormed = true) (hi : refusedByName i = true)
    (hshort : encodeSecond i = none) {s : State} {ia : Word} (hpc : s.pc = ia + 2) (hw2 : Halfword) :
    Raises s (dispatch s ia (encodeFirst i) hw2) (.undefined (encodeFirst i) none) ia := by
  have hlen : byteLength i = 2 := by simp [byteLength, hshort]
  have hdispatch := dispatch_encode hwf s ia hw2
  have hraises := exec_refusedByName (s := s) (ia := ia) hi (hlen ▸ hpc)
  rw [hshort] at hdispatch hraises
  rw [show dispatch s ia (encodeFirst i) hw2 = exec i s from hdispatch]
  exact hraises

/-- Two bytes as a halfword, placed. -/
theorem append_eq_place (a b : BitVec 8) : (a ++ b : Halfword) = place a 8 ||| place b 0 := by
  refine BitVec.eq_of_toNat_eq ?_
  rw [toNat_or_place _ _ _ (by decide) (by simp [field]), toNat_place _ _ (by decide), BitVec.toNat_append,
    ← Nat.shiftLeft_add_eq_or_of_lt b.isLt, Nat.shiftLeft_eq, Nat.pow_zero, Nat.mul_one]

/-- Among the hints only `NOP` is not refused (R116). -/
theorem refusedByName_of_decode_hint {imm8 : BitVec 8} (hne : imm8 ≠ 0) {hw2 : Halfword} {i : Instr}
    (hi : decode (0xBF#8 ++ imm8) hw2 = .ok i) : refusedByName i = true := by
  obtain ⟨hlong, -⟩ | ⟨-, hi⟩ := decode_ok hi
  · simp [append_eq_place, isLong, BitVec.extractLsb'_or] at hlong
  · simp [append_eq_place, decodeShort, decodeMisc10111, BitVec.extractLsb'_or] at hi
    split at hi
    case h_1 hnop => exact absurd (BitVec.eq_of_toNat_eq hnop) hne
    case h_6 => cases hi
    all_goals
      cases hi
      rfl

/-- A two-halfword instruction other than `BL` is refused by name (R112). -/
theorem refusedByName_of_decodeLong {hw1 hw2 : Halfword} {i : Instr} (hi : decodeLong hw1 hw2 = some i)
    (hbl : ¬ (hw1.extractLsb' 11 5 = 0b11110 ∧ hw2.getLsbD 15 = true ∧ hw2.getLsbD 14 = true ∧
      hw2.getLsbD 12 = true)) :
    refusedByName i = true := by
  simp only [decodeLong] at hi
  split_ifs at hi with h
  · obtain ⟨hprefix, htop, hbit⟩ := h
    refine absurd ⟨hprefix, ?_, ?_, ?_⟩ hbl
    · simpa using congrArg (·.getLsbD 1) htop
    · simpa using congrArg (·.getLsbD 0) htop
    · simpa using congrArg (·.getLsbD 0) hbit
  all_goals
    cases hi
    rfl

/-! ## Fetching a halfword (R84) -/

theorem canLoad_half_of_even {a : Word} (ha : a.getLsbD 0 = false) : CanLoad a .half := by
  have hlt := a.isLt
  have heven : a.toNat % 2 = 0 := by
    rw [BitVec.getLsbD, Nat.testBit_zero] at ha
    simpa using ha
  simp only [CanLoad, Width.bytes]
  omega

theorem halfAt_of_halfwordAt {s : State} {a : Word} {h : Halfword} (hh : HalfwordAt s a h) : halfAt s a = h := by
  have hbytes : h.extractLsb' 8 8 ++ h.extractLsb' 0 8 = h := halfwordLE_bytes h
  rw [halfAt, bytesAt_half, hh.low, hh.high, hbytes, BitVec.toNat_setWidth_of_le (by decide), BitVec.ofNat_toNat,
    BitVec.setWidth_eq]

theorem fetch16_of_even (s : State) {a : Word} (ha : a.getLsbD 0 = false) : s.fetch16 a = .ok (halfAt s a) := by
  rw [State.fetch16, memRead_of_canLoad s (canLoad_half_of_even ha), ← busReadBytes_half]
  rfl

theorem fetch16_of_halfwordAt {s : State} {a : Word} (ha : a.getLsbD 0 = false) {h : Halfword} (hh : HalfwordAt s a h) :
    s.fetch16 a = .ok h := by
  rw [fetch16_of_even s ha, halfAt_of_halfwordAt hh]

theorem longCycle_of_halfwordAt {s : State} {ia : Word} (hia : ia.getLsbD 0 = false) {hw2 : Halfword}
    (hh : HalfwordAt s (ia + 2) hw2) (hw1 : Halfword) :
    longCycle s ia hw1 = dispatch (s.setReg pcReg (ia + 4)) ia hw1 hw2 := by
  rw [longCycle, fetch16_of_halfwordAt ((getLsbD_zero_add_even rfl).trans hia) hh]

/-! ## The obligations -/

/-- Settles O3: the selection takes the row that no other fitting row matches in literal bits; that row is the decoded
instruction's; and dispatch executes it, or raises `Undefined` where it is refused. -/
theorem theMostSpecificFittingRowIsExecuted : Obligations.TheMostSpecificFittingRowIsExecuted := by
  intro hw1 hw2
  refine ⟨selectRow_eq_some_iff hw1 hw2, fun i => selectRow_of_decode, fun s ia hpc hsel => ?_, ?_⟩
  · refine dispatch_of_refused (fun i hi => ?_) hpc
    have hrow := selectRow_of_decode hi
    obtain hnone | ⟨n, row, hn, htable, hrefused⟩ := hsel
    · cases hrow.symm.trans hnone
    · cases hrow.symm.trans hn
      rw [refusedByName_eq_not_admitted i htable, hrefused]
      rfl
  · intro s ia n row hn htable _
    obtain ⟨row', htable', hfit, -⟩ := (selectRow_eq_some_iff hw1 hw2 n).mp hn
    obtain ⟨i, hi⟩ := exists_decode_of_fits (List.mem_of_getElem? htable') hfit
    exact ⟨i, Option.some.inj ((selectRow_of_decode hi).symm.trans hn), hi, dispatch_of_decode hi s ia⟩

/-- Settles O4, pair by pair of the table: rows that fit the same halfwords clash in no literal. -/
theorem overlappingRowsFormAChain : Obligations.OverlappingRowsFormAChain := by
  intro hw1 hw2 a b rowA rowB ha hb hab hfitA hfitB
  obtain ⟨hpair, hmask, hne, -⟩ := specializes_of_fits ha hb hab hfitA hfitB
  exact ⟨hpair, hmask, hne⟩

/-- Settles O6: the opcode map answers nothing exactly on the listed ranges. -/
theorem exactlyTheListedHalfwordsAreUnallocated : Obligations.ExactlyTheListedHalfwordsAreUnallocated := by
  intro hw1 hshort
  have hnone := decodeShort_eq_none_iff hshort
  refine ⟨⟨?_, fun hu => ?_⟩, fun hu s ia hw2 => ?_⟩
  · rintro ⟨i, hi⟩ hu
    obtain ⟨hlong, -⟩ | ⟨-, hi⟩ := decode_ok hi
    · simp [hshort] at hlong
    · simp [hnone.mpr hu] at hi
  · obtain ⟨i, hi⟩ := Option.ne_none_iff_exists'.mp (mt hnone.mp hu)
    exact ⟨i, decode_of_not_isLong hshort hi 0⟩
  · have hr : decode hw1 hw2 = .error (.unallocated hw1) := by simp [decode, hshort, hnone.mpr hu]
    simpa [hshort] using dispatch_of_decode_error hr s ia

/-- Settles O7: the second halfword is fetched, and what the pair decodes to, if anything, is refused by name. -/
theorem twoHalfwordEncodingsOtherThanBlAreRefused : Obligations.TwoHalfwordEncodingsOtherThanBlAreRefused := by
  intro s ia hw1 hw2 hia hlong hbl hh
  rw [longCycle_of_halfwordAt hia hh]
  have hraises : Raises (s.setReg pcReg (ia + 4)) (dispatch (s.setReg pcReg (ia + 4)) ia hw1 hw2)
      (.undefined hw1 (if isLong hw1 then some hw2 else none)) ia := by
    refine dispatch_of_refused (fun i hi => ?_) (by simp [State.pc, hlong])
    obtain ⟨-, hi⟩ | ⟨hshort, -⟩ := decode_ok hi
    · exact refusedByName_of_decodeLong hi hbl
    · simp [hlong] at hshort
  obtain ⟨t, ht, hfaulted⟩ := hraises
  rw [if_pos hlong] at hfaulted
  exact ⟨t, ht, faultedWith_congr hfaulted rfl rfl rfl rfl rfl rfl⟩

/-- Settles O8: each listed halfword is the encoding of a row refused by name, or a hint without a row. -/
theorem refusedHalfwordsAndHints : Obligations.RefusedHalfwordsAndHints := by
  intro s ia hw2 hpc
  refine ⟨?_, ?_, fun imm8 => ⟨?_, ?_, ?_⟩, ?_, fun imm8 hne => ?_⟩
  · exact dispatch_encodeFirst_refused (i := .cps false) rfl rfl rfl hpc hw2
  · exact dispatch_encodeFirst_refused (i := .cps true) rfl rfl rfl hpc hw2
  · rw [append_eq_place]
    exact dispatch_encodeFirst_refused (i := .bkpt imm8) rfl rfl rfl hpc hw2
  · rw [append_eq_place]
    exact dispatch_encodeFirst_refused (i := .udf imm8) rfl rfl rfl hpc hw2
  · rw [append_eq_place]
    exact dispatch_encodeFirst_refused (i := .svc imm8) rfl rfl rfl hpc hw2
  · exact dispatch_encode (i := .nop) rfl s ia hw2
  · have hshort : isLong (0xBF#8 ++ imm8) = false := by simp [append_eq_place, isLong, BitVec.extractLsb'_or]
    have hraises := dispatch_of_refused (hw1 := 0xBF#8 ++ imm8) (hw2 := hw2) (s := s) (ia := ia)
      (fun i => refusedByName_of_decode_hint hne) (by rw [hshort]; exact hpc)
    rwa [hshort] at hraises

end Sys2Proof.Machine
end

section
/-! PROOFS. The opcode pattern engine (R92 to R97): each function on patterns, bit by bit. -/

namespace Sys2Proof

open Safety

/-! ## Parsing (R92) -/

theorem exists_tritOfChar_iff (c : Char) : (∃ t, tritOfChar c = some t) ↔ c = '0' ∨ c = '1' ∨ c = 'X' := by
  unfold tritOfChar
  split_ifs with hzero hone hany
  · simp [hzero]
  · simp [hone]
  · simp [hany]
  · simp [hzero, hone, hany]

/-- Parsing reads each character's digit, and turns the text round. -/
theorem parseDigits_eq_ok_iff {cs : List Char} {acc p : Pattern} :
    parseDigits cs acc = .ok p ↔ ∃ ts : Pattern, cs.map tritOfChar = ts.map some ∧ p = ts.reverse ++ acc := by
  induction cs generalizing acc with
  | nil =>
    simp only [parseDigits, List.map_nil, Except.ok.injEq]
    constructor
    · rintro rfl
      exact ⟨[], rfl, rfl⟩
    · rintro ⟨ts, hts, rfl⟩
      rw [List.map_eq_nil_iff.mp hts.symm]
      rfl
  | cons c cs ih =>
    rw [parseDigits]
    split
    · next t ht =>
      rw [ih]
      constructor
      · rintro ⟨ts, hts, rfl⟩
        exact ⟨t :: ts, by simp [ht, hts], by simp⟩
      · rintro ⟨ts, hts, rfl⟩
        cases ts with
        | nil => cases hts
        | cons u us =>
          obtain ⟨hu, hus⟩ := List.cons_eq_cons.mp hts
          cases ht.symm.trans hu
          exact ⟨us, hus, by simp⟩
    · next hc =>
      refine ⟨nofun, ?_⟩
      rintro ⟨ts, hts, -⟩
      cases ts with
      | nil => cases hts
      | cons u us =>
        obtain ⟨hu, -⟩ := List.cons_eq_cons.mp hts
        cases hc.symm.trans hu

theorem exists_trits {cs : List Char} (h : ∀ c ∈ cs, ∃ t, tritOfChar c = some t) :
    ∃ ts : Pattern, cs.map tritOfChar = ts.map some := by
  induction cs with
  | nil => exact ⟨[], rfl⟩
  | cons c cs ih =>
    obtain ⟨⟨t, ht⟩, hcs⟩ := List.forall_mem_cons.mp h
    obtain ⟨ts, hts⟩ := ih hcs
    exact ⟨t :: ts, by simp [ht, hts]⟩

theorem parsePattern_eq_ok_iff {cs : List Char} {p : Pattern} :
    parsePattern cs = .ok p ↔ cs.length = 16 ∧ cs.map tritOfChar = p.reverse.map some := by
  unfold parsePattern
  split
  · next hlen =>
    rw [parseDigits_eq_ok_iff]
    constructor
    · rintro ⟨ts, hts, rfl⟩
      exact ⟨hlen, by simpa using hts⟩
    · rintro ⟨-, hts⟩
      exact ⟨p.reverse, hts, by simp⟩
  · next hlen => simp [hlen]

/-! ## Bits of a pattern's numbers -/

theorem testBit_two_mul_add_mod_zero (x v : Nat) : (2 * x + v % 2).testBit 0 = v.testBit 0 := by
  rw [Nat.testBit_zero, Nat.testBit_zero]
  congr 1
  apply propext
  omega

theorem testBit_two_mul_add_mod_succ (x v i : Nat) : (2 * x + v % 2).testBit (i + 1) = x.testBit i := by
  rw [Nat.testBit_succ, show (2 * x + v % 2) / 2 = x by omega]

theorem fitsDigits_iff {p : Pattern} {w : Nat} :
    fitsDigits p w = true ↔
      ∀ j, (p[j]? = some .one → w.testBit j = true) ∧ (p[j]? = some .zero → w.testBit j = false) := by
  induction p generalizing w with
  | nil => simp [fitsDigits]
  | cons t ts ih =>
    rw [fitsDigits, Bool.and_eq_true, ih]
    refine Iff.trans (and_congr ?_ (forall_congr' fun j => ?_)) Nat.and_forall_add_one
    rotate_left
    · rw [List.getElem?_cons_succ, Nat.testBit_succ]
    cases t <;> simp [Trit.agrees, Nat.testBit_zero]

theorem testBit_valueDigits (p : Pattern) (j : Nat) : (valueDigits p).testBit j = true ↔ p[j]? = some .one := by
  induction p generalizing j with
  | nil => simp [valueDigits]
  | cons t ts ih =>
    cases j with
    | zero => cases t <;> simp [valueDigits, Nat.testBit_zero]
    | succ j =>
      rw [List.getElem?_cons_succ, ← ih, Nat.testBit_succ]
      cases t <;> simp [valueDigits, show ∀ x, (2 * x + 1) / 2 = x by omega]

theorem testBit_maskDigits (p : Pattern) (j : Nat) :
    (maskDigits p).testBit j = true ↔ p[j]? = some .one ∨ p[j]? = some .zero := by
  induction p generalizing j with
  | nil => simp [maskDigits]
  | cons t ts ih =>
    cases j with
    | zero => cases t <;> simp [maskDigits, Nat.testBit_zero]
    | succ j =>
      rw [List.getElem?_cons_succ, ← ih, Nat.testBit_succ]
      cases t <;> simp [maskDigits, show ∀ x, (2 * x + 1) / 2 = x by omega]

/-! ## The free positions (R95, R96) -/

theorem xPositions_cons (t : Trit) (ts : Pattern) :
    xPositions (t :: ts) = (if t = .any then [0] else []) ++ (xPositions ts).map (· + 1) := by
  simp only [xPositions, List.length_cons, List.range_succ_eq_map, List.filter_cons, List.filter_map]
  cases t <;> simp [Function.comp_def]

theorem mem_xPositions {p : Pattern} {b : Nat} : b ∈ xPositions p ↔ p[b]? = some .any := by
  simp only [xPositions, List.mem_filter, List.mem_range, beq_iff_eq, and_iff_right_iff_imp]
  exact fun h => (List.getElem?_eq_some_iff.mp h).1

theorem length_xPositions (p : Pattern) : (xPositions p).length = p.freeDigits := by
  induction p with
  | nil => rfl
  | cons t ts ih => cases t <;> simp [xPositions_cons, Pattern.freeDigits, ih]

/-- A free position is the first, or the next of the digits above: by what it takes from the value. -/
theorem testBit_setDigits_free {p : Pattern} {j b : Nat} (h : (xPositions p)[j]? = some b) (w v : Nat) :
    (setDigits p w v).testBit b = v.testBit j := by
  induction p generalizing j b w v with
  | nil => simp [xPositions] at h
  | cons t ts ih =>
    rw [xPositions_cons] at h
    cases t with
    | any =>
      cases j with
      | zero =>
        cases h
        exact testBit_two_mul_add_mod_zero _ v
      | succ j =>
        obtain ⟨c, hc, rfl⟩ : ∃ c, (xPositions ts)[j]? = some c ∧ c + 1 = b := by simpa using h
        rw [setDigits, testBit_two_mul_add_mod_succ, ih hc, Nat.testBit_succ]
    | zero | one =>
      obtain ⟨c, hc, rfl⟩ : ∃ c, (xPositions ts)[j]? = some c ∧ c + 1 = b := by simpa using h
      simp only [setDigits]
      rw [testBit_two_mul_add_mod_succ, ih hc]

theorem testBit_setDigits_literal {p : Pattern} {b : Nat} (h : p[b]? ≠ some .any) (w v : Nat) :
    (setDigits p w v).testBit b = w.testBit b := by
  induction p generalizing b w v with
  | nil => rfl
  | cons t ts ih =>
    cases b with
    | zero => cases t <;> simp_all [setDigits, Nat.testBit_zero]
    | succ b =>
      rw [List.getElem?_cons_succ] at h
      cases t <;> rw [setDigits, testBit_two_mul_add_mod_succ, ih h, Nat.testBit_succ] <;> nofun

theorem testBit_getDigits {p : Pattern} {j b : Nat} (h : (xPositions p)[j]? = some b) (w : Nat) :
    (getDigits p w).testBit j = w.testBit b := by
  induction p generalizing j b w with
  | nil => simp [xPositions] at h
  | cons t ts ih =>
    rw [xPositions_cons] at h
    cases t with
    | any =>
      cases j with
      | zero =>
        cases h
        exact testBit_two_mul_add_mod_zero _ w
      | succ j =>
        obtain ⟨c, hc, rfl⟩ : ∃ c, (xPositions ts)[j]? = some c ∧ c + 1 = b := by simpa using h
        rw [getDigits, testBit_two_mul_add_mod_succ, ih hc, Nat.testBit_succ]
    | zero | one =>
      obtain ⟨c, hc, rfl⟩ : ∃ c, (xPositions ts)[j]? = some c ∧ c + 1 = b := by simpa using h
      simp only [getDigits]
      rw [ih hc, Nat.testBit_succ]

theorem getDigits_lt (p : Pattern) (w : Nat) : getDigits p w < 2 ^ p.freeDigits := by
  induction p generalizing w with
  | nil => simp [getDigits, Pattern.freeDigits]
  | cons t ts ih =>
    have h := ih (w / 2)
    cases t with
    | any => rw [getDigits, Pattern.freeDigits, Nat.pow_succ]; omega
    | zero | one => exact h

/-! ## The same on halfwords -/

section

variable {p : Pattern}

theorem lt_of_getElem?_eq_some (hp : p.valid = true) {j : Nat} {t : Trit} (h : p[j]? = some t) : j < 16 := by
  have hlen : p.length = 16 := by simpa [Pattern.valid] using hp
  exact hlen ▸ (List.getElem?_eq_some_iff.mp h).1

theorem getLsbD_create {j : Nat} (hj : j < 16) : (create p).getLsbD j = true ↔ p[j]? = some .one := by
  rw [create, BitVec.getLsbD_ofNat, ← testBit_valueDigits]
  simp [hj]

theorem getLsbD_literalMask {j : Nat} (hj : j < 16) :
    (literalMask p).getLsbD j = true ↔ p[j]? = some .one ∨ p[j]? = some .zero := by
  rw [literalMask, BitVec.getLsbD_ofNat, ← testBit_maskDigits]
  simp [hj]

theorem fits_iff (hp : p.valid = true) (w : Halfword) :
    fits w p = true ↔
      ∀ j, j < 16 → (p[j]? = some .one → w.getLsbD j = true) ∧ (p[j]? = some .zero → w.getLsbD j = false) := by
  rw [fits, fitsDigits_iff]
  exact ⟨fun h j _ => h j, fun h j => ⟨fun hone => (h j (lt_of_getElem?_eq_some hp hone)).1 hone,
    fun hzero => (h j (lt_of_getElem?_eq_some hp hzero)).2 hzero⟩⟩

theorem and_literalMask_eq_create_iff (w : Halfword) :
    w &&& literalMask p = create p ↔
      ∀ j, j < 16 → (p[j]? = some .one → w.getLsbD j = true) ∧ (p[j]? = some .zero → w.getLsbD j = false) := by
  have hbit : ∀ j, j < 16 → ((w &&& literalMask p).getLsbD j = (create p).getLsbD j ↔
      (p[j]? = some .one → w.getLsbD j = true) ∧ (p[j]? = some .zero → w.getLsbD j = false)) := by
    intro j hj
    rw [BitVec.getLsbD_and, Bool.eq_iff_iff, Bool.and_eq_true, getLsbD_literalMask hj, getLsbD_create hj]
    cases hdigit : p[j]? with
    | none => simp
    | some t => cases t <;> simp
  exact ⟨fun h j hj => (hbit j hj).mp (congrArg (·.getLsbD j) h),
    fun h => BitVec.eq_of_getLsbD_eq fun j hj => (hbit j hj).mpr (h j hj)⟩

theorem getLsbD_setBits_free (hp : p.valid = true) {j b : Nat} (h : (xPositions p)[j]? = some b) (w : Halfword) (v : Nat) :
    (setBits w p v).getLsbD b = v.testBit j := by
  have hb : b < 16 := lt_of_getElem?_eq_some hp (mem_xPositions.mp (List.mem_of_getElem? h))
  rw [setBits, BitVec.getLsbD_ofNat, testBit_setDigits_free h]
  simp [hb]

theorem getLsbD_setBits_literal {b : Nat} (hb : b < 16) (h : p[b]? ≠ some .any) (w : Halfword) (v : Nat) :
    (setBits w p v).getLsbD b = w.getLsbD b := by
  rw [setBits, BitVec.getLsbD_ofNat, testBit_setDigits_literal h, decide_eq_true hb, Bool.true_and]
  rfl

theorem testBit_getBits {j b : Nat} (h : (xPositions p)[j]? = some b) (w : Halfword) :
    (getBits w p).testBit j = w.getLsbD b := testBit_getDigits h w.toNat

theorem getBits_lt (p : Pattern) (w : Halfword) : getBits w p < 2 ^ p.freeDigits := getDigits_lt p w.toNat

theorem fits_create (hp : p.valid = true) : fits (create p) p = true := by
  rw [fits_iff hp]
  refine fun j hj => ⟨(getLsbD_create hj).mpr, fun hzero => ?_⟩
  rw [Bool.eq_false_iff, Ne, getLsbD_create hj, hzero]
  simp

/-- `setBits` leaves the literal positions, so what fitted fits. -/
theorem fits_setBits (hp : p.valid = true) {w : Halfword} (hw : fits w p = true) (v : Nat) :
    fits (setBits w p v) p = true := by
  rw [fits_iff hp] at hw ⊢
  refine fun j hj => ⟨fun hone => ?_, fun hzero => ?_⟩
  · rw [getLsbD_setBits_literal hj (by simp [hone])]
    exact (hw j hj).1 hone
  · rw [getLsbD_setBits_literal hj (by simp [hzero])]
    exact (hw j hj).2 hzero

theorem getBits_setBits (hp : p.valid = true) (w : Halfword) (v : Nat) :
    getBits (setBits w p v) p = v % 2 ^ p.freeDigits := by
  refine Nat.eq_of_testBit_eq fun j => ?_
  rw [Nat.testBit_mod_two_pow]
  by_cases hj : j < p.freeDigits
  · have hx : (xPositions p)[j]? = some ((xPositions p)[j]'(length_xPositions p ▸ hj)) :=
      List.getElem?_eq_getElem _
    rw [testBit_getBits hx, getLsbD_setBits_free hp hx]
    simp [hj]
  · have hlt := (getBits_lt p (setBits w p v)).trans_le (Nat.pow_le_pow_right (by decide) (Nat.not_lt.mp hj))
    simp [hj, Nat.testBit_lt_two_pow hlt]

end

/-! ## The obligations -/

/-- Settles O11: a text parses exactly where every character is a digit, and its digits stand in the pattern the other
way round. -/
theorem patternsAreSixteenTernaryDigits : Obligations.PatternsAreSixteenTernaryDigits := by
  refine ⟨fun cs => ?_, fun cs p hp => ?_, fun cs e he w v => ?_⟩
  · simp only [← exists_tritOfChar_iff, parsePattern_eq_ok_iff]
    constructor
    · rintro ⟨p, hlen, hdigits⟩
      refine ⟨hlen, fun c hc => ?_⟩
      obtain ⟨t, -, ht⟩ := List.mem_map.mp (hdigits ▸ List.mem_map_of_mem hc : tritOfChar c ∈ p.reverse.map some)
      exact ⟨t, ht.symm⟩
    · rintro ⟨hlen, hcs⟩
      obtain ⟨ts, hts⟩ := exists_trits hcs
      exact ⟨ts.reverse, hlen, by rw [List.reverse_reverse, hts]⟩
  · obtain ⟨hlen, hdigits⟩ := parsePattern_eq_ok_iff.mp hp
    have hplen : p.length = 16 := by simpa [hlen] using (congrArg List.length hdigits).symm
    refine ⟨by simp [Pattern.valid, hplen], fun j hj => ?_⟩
    have hreverse : p.reverse[j]? = some p[15 - j] := by
      rw [List.getElem?_reverse (by omega), show p.length - 1 - j = 15 - j by omega]
      exact List.getElem?_eq_getElem _
    have hdigit := congrArg (·[j]?) hdigits
    simp only [List.getElem?_map, hreverse, Option.map_some] at hdigit
    refine ⟨cs[j], p[15 - j], List.getElem?_eq_getElem _, List.getElem?_eq_getElem _, ?_⟩
    simpa [List.getElem?_eq_getElem (show j < cs.length by omega)] using hdigit
  · simp only [matchText, createText, setBitsText, he]
    exact ⟨rfl, rfl, rfl⟩

/-- Settles O12: the mask selects the literal positions, where the value holds the literals. -/
theorem matchingComparesTheLiteralBits : Obligations.MatchingComparesTheLiteralBits := by
  refine fun p hp => ⟨fits_iff hp, fun w => ?_, fun j => getLsbD_create⟩
  rw [Bool.eq_iff_iff, fits_iff hp, beq_iff_eq, and_literalMask_eq_create_iff]

/-- Settles O13, position by position. -/
theorem fieldsFillTheFreePositions : Obligations.FieldsFillTheFreePositions := by
  refine fun p hp w v => ⟨fun j b h => getLsbD_setBits_free hp h w v, fun b hb h => ?_,
    fun j b h => testBit_getBits h w, ?_⟩
  · exact getLsbD_setBits_literal hb (mt mem_xPositions.mpr h) w v
  · rw [length_xPositions]
    exact getBits_lt p w

/-- Settles O14: `create` has the literals, `setBits` leaves them, and `getBits` reads the positions `setBits` fills. -/
theorem patternEngineInvariants : Obligations.PatternEngineInvariants :=
  fun _ hp => ⟨fits_create hp,
    fun w v => ⟨fun _ hb h => getLsbD_setBits_literal hb h w v, getBits_setBits hp w v⟩,
    fits_setBits hp (fits_create hp)⟩

end Sys2Proof
end

section
/-! PROOFS. The operands (R107, R108): the number each immediate stands for, and the registers of a list. -/

namespace Sys2Proof.Machine

open Safety

/-! ## Immediates (R107) -/

theorem toNat_immPlain {n : Nat} (hn : n ≤ 32) (v : BitVec n) : (immPlain v).toNat = v.toNat :=
  BitVec.toNat_setWidth_of_le hn

theorem toNat_immTimes2 {n : Nat} (hn : n ≤ 31) (v : BitVec n) : (immTimes2 v).toNat = 2 * v.toNat := by
  have := v.isLt
  have := Nat.pow_le_pow_right (show 0 < 2 by decide) hn
  rw [immTimes2_eq, BitVec.toNat_ofNat, Nat.mod_eq_of_lt (by omega)]

theorem toNat_immTimes4 {n : Nat} (hn : n ≤ 30) (v : BitVec n) : (immTimes4 v).toNat = 4 * v.toNat := by
  have := v.isLt
  have := Nat.pow_le_pow_right (show 0 < 2 by decide) hn
  rw [immTimes4_eq, BitVec.toNat_ofNat, Nat.mod_eq_of_lt (by omega)]

theorem rightShiftAmount_eq (imm5 : BitVec 5) :
    rightShiftAmount imm5 = if imm5.toNat = 0 then 32 else imm5.toNat := by
  simp only [rightShiftAmount, BitVec.toNat_eq, BitVec.toNat_ofNat, Nat.zero_mod, BitVec.ofNat_eq_ofNat]

/-- A signed field with a zero bit appended, sign-extended, is twice the field. -/
theorem toInt_signExtend_append_zero {n : Nat} (hn : n + 1 ≤ 32) (v : BitVec n) :
    ((v ++ 0#1).signExtend 32).toInt = 2 * v.toInt := by
  rw [BitVec.toInt_signExtend_of_le hn, BitVec.toInt_append]
  split
  · next h =>
    rw [beq_iff_eq] at h
    subst h
    simp [BitVec.eq_nil v]
  · simp

/-! ## Register lists (R108) -/

theorem mem_lowList {list : BitVec 8} {r : LowReg} : r ∈ lowList list ↔ list.getLsbD r.val = true := by
  have hall : r ∈ ([0, 1, 2, 3, 4, 5, 6, 7] : List LowReg) := by
    revert r
    decide
  rw [lowList, List.mem_filter, and_iff_right hall]

theorem lowList_pairwise (list : BitVec 8) : (lowList list).Pairwise (· < ·) :=
  List.Pairwise.filter _ (by decide)

theorem finRange_eq_low_append :
    List.finRange 16 = ([0, 1, 2, 3, 4, 5, 6, 7] : List LowReg).map low ++ [8, 9, 10, 11, 12, 13, 14, 15] := by
  decide

/-- The registers of a set are those of its low byte, then those of its high byte. -/
theorem registersOf_append (high list : BitVec 8) :
    registersOf (high ++ list) =
      (lowList list).map low ++
        ([8, 9, 10, 11, 12, 13, 14, 15] : List Reg).filter fun r => high.getLsbD (r.val - 8) := by
  have hlow : ∀ r : LowReg, (high ++ list).getLsbD (low r).val = list.getLsbD r.val := fun r => by
    rw [BitVec.getLsbD_append, low_val, if_pos r.isLt]
  have hhigh : ∀ r ∈ ([8, 9, 10, 11, 12, 13, 14, 15] : List Reg),
      (high ++ list).getLsbD r.val = high.getLsbD (r.val - 8) := fun r hr => by
    have hr8 : ¬ r.val < 8 := by
      revert r
      decide
    rw [BitVec.getLsbD_append, if_neg hr8]
  rw [registersOf, finRange_eq_low_append, List.filter_append, List.filter_map, lowList, List.filter_congr hhigh]
  simp only [Function.comp_def, hlow]

theorem lowList_map_low (list : BitVec 8) : (lowList list).map low = registersOf (lowSet list) := by
  rw [lowSet, registersOf_append, show List.filter _ _ = [] by decide, List.append_nil]

theorem pushList_eq (m : Bool) (list : BitVec 8) : pushList m list = registersOf (pushSet m list) := by
  rw [pushSet, registersOf_append, pushList]
  congr 1
  revert m
  decide

/-! ## The obligation -/

/-- Settles O15: scaled immediates by their number, displacements by their signed value, lists by their ascending
filter. -/
theorem immediatesAndRegisterLists : Obligations.ImmediatesAndRegisterLists := by
  refine ⟨fun v => ⟨rightShiftAmount_eq v, toNat_immPlain (by decide) v, toNat_immTimes2 (by decide) v,
      toNat_immTimes4 (by decide) v⟩,
    fun v => ⟨toNat_immPlain (by decide) v, toNat_immTimes4 (by decide) v, toInt_signExtend_append_zero (by decide) v⟩,
    toNat_immTimes4 (by decide), toInt_signExtend_append_zero (by decide), fun s imm10 j1 j2 imm11 => ?_,
    fun list => ⟨lowList_map_low list, lowList_pairwise list, fun _ => mem_lowList⟩, pushList_eq⟩
  exact toInt_signExtend_append_zero (by decide) _

end Sys2Proof.Machine
end

section
/-! PROOFS. The instruction cycle (R100 to R102): what a step runs, and where it finds the sentinel. -/

namespace Sys2Proof.Machine

open Safety

variable {s t : State} {hw1 hw2 : Halfword}

/-! ## One instruction cycle (R100) -/

@[simp] theorem setReg_setReg (s : State) (r : Reg) (v w : Word) : (s.setReg r v).setReg r w = s.setReg r w := by
  simp [State.setReg]

theorem instructionCycle_sentinel (hpc : s.pc.getLsbD 0 = false) (h : HalfwordAt s s.pc s.endOfCode) :
    instructionCycle s = .next s.finish := by
  simp [instructionCycle, fetch16_of_halfwordAt hpc h]

theorem instructionCycle_short (hpc : s.pc.getLsbD 0 = false) (h : HalfwordAt s s.pc hw1) (hne : hw1 ≠ s.endOfCode)
    (hshort : isLong hw1 = false) : instructionCycle s = dispatch (s.setReg pcReg (s.pc + 2)) s.pc hw1 0 := by
  simp [instructionCycle, fetch16_of_halfwordAt hpc h, hne, hshort]

/-- The second halfword is not compared with the sentinel (R101). -/
theorem instructionCycle_long (hpc : s.pc.getLsbD 0 = false) (h : HalfwordAt s s.pc hw1) (hne : hw1 ≠ s.endOfCode)
    (hlong : isLong hw1 = true) (h2 : HalfwordAt s (s.pc + 2) hw2) :
    instructionCycle s = dispatch (s.setReg pcReg (s.pc + 4)) s.pc hw1 hw2 := by
  have hadvanced : HalfwordAt (s.setReg pcReg (s.pc + 2)) (s.pc + 2) hw2 := ⟨h2.low, h2.high⟩
  have hcycle := longCycle_of_halfwordAt hpc hadvanced hw1
  rw [setReg_setReg] at hcycle
  simpa [instructionCycle, fetch16_of_halfwordAt hpc h, hne, hlong] using hcycle

/-- The cycle executes the instruction at PC with PC moved past it. -/
theorem instructionCycle_of_instructionAt {i : Instr} (hpc : s.pc.getLsbD 0 = false) (hwf : i.wellFormed = true)
    (hi : InstructionAt s s.pc i) (hne : encodeFirst i ≠ s.endOfCode) :
    instructionCycle s = exec i (s.setReg pcReg (s.pc + byteLength i)) := by
  have hlen := isLong_encodeFirst i
  unfold byteLength
  rw [← dispatch_encode hwf _ s.pc 0]
  cases hsecond : encodeSecond i with
  | none => exact instructionCycle_short hpc hi.first hne (by rw [hlen, hsecond]; rfl)
  | some hw2 => exact instructionCycle_long hpc hi.first hne (by rw [hlen, hsecond]; rfl) (hi.second hw2 hsecond)

/-! ## One step (R333, R334) -/

/-- A step that is neither refused in Faulted nor an accepted halt is a cycle; outside a `run` it settles. -/
theorem step_of_instructionCycle (hrun : s.run ≠ .faulted) (hhalt : s.run = .running → s.haltReq = false)
    (ht : instructionCycle s = .next t) :
    step s = .next (if s.run = .running ∨ t.run = .faulted then t else { t with run := .halted }) := by
  unfold step advance
  cases hs : s.run with
  | idle | halted => simp [stepOnce, ht, settle]
  | running => simp [runTurn, hhalt hs, ht]
  | faulted => exact absurd hs hrun

theorem step_sentinel (hpc : s.pc.getLsbD 0 = false) (hrun : s.run ≠ .faulted)
    (hhalt : s.run = .running → s.haltReq = false) (h : HalfwordAt s s.pc s.endOfCode) : step s = .next s.finish := by
  rw [step_of_instructionCycle hrun hhalt (instructionCycle_sentinel hpc h)]
  split <;> rfl

/-! ## The sentinel (R101) -/

theorem isLong_endOfCodeDefault : isLong Config.endOfCodeDefault = true := by decide

theorem decodeLong_endOfCodeDefault (hw2 : Halfword) : decodeLong Config.endOfCodeDefault hw2 = none := by
  simp [decodeLong, Config.endOfCodeDefault, field]

/-- No instruction begins with the default sentinel, because the decoder reads none from it. -/
theorem encodeFirst_ne_endOfCodeDefault {i : Instr} (hwf : i.wellFormed = true) :
    encodeFirst i ≠ Config.endOfCodeDefault := by
  intro h
  have hdecode := decode_encode hwf 0
  rw [h] at hdecode
  obtain ⟨-, hi⟩ | ⟨hshort, -⟩ := decode_ok hdecode
  · simp [decodeLong_endOfCodeDefault] at hi
  · simp [isLong_endOfCodeDefault] at hshort

theorem halfwordAt_halfAt (s : State) (a : Word) : HalfwordAt s a (halfAt s a) := by
  have hbytes : halfAt s a = s.busReadByte (a + 1) ++ s.busReadByte a := by
    rw [halfAt, bytesAt_half, BitVec.toNat_setWidth_of_le (by decide), BitVec.ofNat_toNat, BitVec.setWidth_eq]
  rw [hbytes]
  constructor
  · exact (BitVec.extractLsb'_append_eq_right).symm
  · exact (BitVec.extractLsb'_append_eq_left).symm

/-- A next state with the completion of `s`. -/
def EndsKeepingCompletion (s : State) (r : Result) : Prop := Ends r fun t => t.completed = s.completed

theorem exec_endsKeepingCompletion (i : Instr) (s : State) : EndsKeepingCompletion s (exec i s) := by
  obtain ⟨t, ht, hcompleted | ⟨f, rfl⟩⟩ := exec_completesOrFaults i s
  · exact ⟨t, ht, hcompleted.control.completed⟩
  · exact ⟨_, ht, rfl⟩

theorem dispatch_endsKeepingCompletion (s : State) (ia : Word) (hw1 hw2 : Halfword) :
    EndsKeepingCompletion s (dispatch s ia hw1 hw2) := by
  unfold dispatch
  split
  · exact exec_endsKeepingCompletion _ s
  · exact ⟨_, rfl, rfl⟩

/-- Only a sentinel at PC completes the program within a cycle. -/
theorem instructionCycle_endsKeepingCompletion (hpc : s.pc.getLsbD 0 = false) (h : ¬ HalfwordAt s s.pc s.endOfCode) :
    EndsKeepingCompletion s (instructionCycle s) := by
  have hfirst := halfwordAt_halfAt s s.pc
  have hne : halfAt s s.pc ≠ s.endOfCode := fun he => h (he ▸ hfirst)
  cases hlen : isLong (halfAt s s.pc) with
  | false =>
    rw [instructionCycle_short hpc hfirst hne hlen]
    exact dispatch_endsKeepingCompletion _ _ _ _
  | true =>
    rw [instructionCycle_long hpc hfirst hne hlen (halfwordAt_halfAt s _)]
    exact dispatch_endsKeepingCompletion _ _ _ _

theorem step_endsKeepingCompletion (hpc : s.pc.getLsbD 0 = false) (h : ¬ HalfwordAt s s.pc s.endOfCode) :
    EndsKeepingCompletion s (step s) := by
  obtain ⟨t, ht, hkept⟩ := instructionCycle_endsKeepingCompletion hpc h
  by_cases hfaulted : s.run = .faulted
  · exact ⟨s, by simp only [step, advance, hfaulted], rfl⟩
  by_cases haccepted : s.run = .running ∧ s.haltReq = true
  · obtain ⟨hrun, hhalt⟩ := haccepted
    exact ⟨{ s with haltReq := false, run := .halted }, by simp [step, advance, hrun, runTurn, hhalt], rfl⟩
  · refine ⟨_, step_of_instructionCycle hfaulted (fun hrun => ?_) ht, ?_⟩
    · simpa [hrun] using haccepted
    · split
      · exact hkept
      · exact hkept

/-! ## The obligations -/

/-- Settles O16: the cycle fetches and decodes the instruction at PC, and the step is that cycle. -/
theorem aStepRunsTheInstructionAtPc : Obligations.AStepRunsTheInstructionAtPc := by
  intro s i hrun hhalt hpc hwf hi hne
  obtain ⟨t, ht, -⟩ := exec_completesOrFaults i (s.setReg pcReg (s.pc + byteLength i))
  have hcycle := (instructionCycle_of_instructionAt hpc hwf hi hne).trans ht
  exact ⟨t, ht, step_of_instructionCycle hrun hhalt hcycle⟩

/-- Settles O17: the cycle compares the first halfword, and only it, before PC moves; every other cycle keeps the
completion. -/
theorem theSentinelEndsTheProgram : Obligations.TheSentinelEndsTheProgram := by
  refine ⟨rfl, rfl, fun i => encodeFirst_ne_endOfCodeDefault, fun s hpc => ⟨fun h hrun hhalt => ?_, ?_, ?_⟩⟩
  · refine ⟨s.finish, step_sentinel hpc hrun hhalt h, rfl, ?_⟩
    exact step_sentinel (s := s.finish) hpc nofun nofun ⟨h.low, h.high⟩
  · exact fun hw1 h hne hlong h2 => instructionCycle_long hpc h hne hlong h2
  · intro t ht hbefore hafter
    by_contra h
    obtain ⟨u, hu, hkept⟩ := step_endsKeepingCompletion hpc h
    cases ht.symm.trans hu
    rw [hkept, hbefore] at hafter
    cases hafter

end Sys2Proof.Machine
end

section
/-! PROOFS. `Unpredictable` (R115): the operands that raise it, and that nothing else does. -/

namespace Sys2Proof.Machine

open Safety

variable {s t : State}

/-! ## The listed operands (R115) -/

/-- The base is not the lowest listed register where a lower one is listed. -/
theorem head?_lowList_ne_iff {rn : LowReg} {list : BitVec 8} (hrn : list.getLsbD rn.val = true) :
    (lowList list).head? ≠ some rn ↔ ∃ r, r < rn.val ∧ list.getLsbD r = true := by
  have hmem : rn ∈ lowList list := mem_lowList.mpr hrn
  have hlisted : ∀ r : LowReg, list.getLsbD r.val = true ↔ r ∈ lowList list := fun r => mem_lowList.symm
  have hsorted := lowList_pairwise list
  generalize lowList list = regs at hmem hlisted hsorted
  cases regs with
  | nil => cases hmem
  | cons first rest =>
    obtain ⟨hfirst, -⟩ := List.pairwise_cons.mp hsorted
    rw [List.head?_cons, Ne, Option.some.injEq]
    constructor
    · intro hne
      have hrest : rn ∈ rest := (List.mem_cons.mp hmem).resolve_left fun h => hne h.symm
      exact ⟨first.val, hfirst rn hrest, (hlisted first).mpr (.head _)⟩
    · rintro ⟨r, hr, hbit⟩ rfl
      rcases List.mem_cons.mp ((hlisted ⟨r, hr.trans first.isLt⟩).mp hbit) with h | h
      · exact absurd (congrArg Fin.val h) hr.ne
      · exact absurd (hfirst _ h) (Fin.lt_asymm hr)

/-- The guard of each instruction that refuses operand values. -/
def refusesOperands : Instr → Bool
  | .addHi rdn rm => addHiUnpredictable rdn rm
  | .cmpHi rn rm => cmpHiUnpredictable rn rm
  | .blx rm => blxUnpredictable rm
  | .push m list => stackListUnpredictable m list
  | .pop p list => stackListUnpredictable p list
  | .stm rn list => stmUnpredictable rn list
  | .ldm _ list => ldmUnpredictable list
  | _ => false

/-- The guards refuse the operands of the table of R115. -/
theorem refusesOperands_iff (i : Instr) : refusesOperands i = true ↔ Unpredictable i := by
  cases i with
  | addHi => simp [refusesOperands, addHiUnpredictable, Unpredictable]
  | cmpHi => simp [refusesOperands, cmpHiUnpredictable, Unpredictable, or_assoc]
  | blx => simp [refusesOperands, blxUnpredictable, Unpredictable]
  | push | pop => simp [refusesOperands, stackListUnpredictable, Unpredictable]
  | stm rn list =>
    simp only [refusesOperands, stmUnpredictable, Unpredictable, Bool.or_eq_true, beq_iff_eq, Bool.and_eq_true, bne_iff_ne]
    exact or_congr_right (and_congr_right head?_lowList_ne_iff)
  | ldm => simp [refusesOperands, ldmUnpredictable, Unpredictable]
  | _ => simp [refusesOperands, Unpredictable]

theorem exec_of_refusesOperands {i : Instr} (hi : refusesOperands i = true) (s : State) :
    exec i s = raiseShort s (unpredictableFault i) := by
  cases i with
  | addHi | cmpHi | blx | push | pop | stm | ldm => exact if_pos hi
  | _ => cases hi

theorem byteLength_of_refusesOperands {i : Instr} (hi : refusesOperands i = true) : byteLength i = 2 := by
  cases i with
  | addHi | cmpHi | blx | push | pop | stm | ldm => rfl
  | _ => cases hi

/-! ## The faults of each operation -/

/-- A fault other than `Unpredictable`. -/
def Predictable (f : Fault) : Prop := ∀ h, f ≠ .unpredictable h

theorem undefinedFault_predictable (i : Instr) : Predictable (undefinedFault i) := fun _ => by
  unfold undefinedFault
  nofun

theorem branchExchange_predictable {v : Word} {f : Fault} (h : s.branchExchange v = .error f) : Predictable f := by
  obtain ⟨-, rfl⟩ := State.branchExchange_error h
  nofun

theorem memRead_predictable {a : Word} {w : Width} {f : Fault} (h : s.memRead a w = .error f) : Predictable f := by
  unfold State.memRead at h
  split at h
  · cases h; nofun
  · cases h

theorem busWriteBytes_predictable {a v : Word} {n : Nat} {f : Fault} (h : s.busWriteBytes a v n = .error f) :
    Predictable f := by
  induction n generalizing s a v with
  | zero => cases h
  | succ n ih =>
    simp only [State.busWriteBytes] at h
    split at h
    · exact ih h
    · next hw =>
      cases h
      obtain rfl | rfl := busWriteByte_error hw <;> nofun

theorem memWrite_predictable {a v : Word} {w : Width} {f : Fault} (h : s.memWrite a w v = .error f) :
    Predictable f := by
  unfold State.memWrite at h
  split at h
  · cases h; nofun
  · exact busWriteBytes_predictable h

theorem loadRegs_predictable {a : Word} {rs : List Reg} {f : Fault} (h : s.loadRegs a rs = .error f) :
    Predictable f := by
  induction rs generalizing s a with
  | nil => cases h
  | cons r rs ih =>
    simp only [State.loadRegs] at h
    split at h
    · exact ih h
    · cases h; exact memRead_predictable ‹_›

theorem storeRegs_predictable {a : Word} {rs : List Reg} {f : Fault} (h : s.storeRegs a rs = .error f) :
    Predictable f := by
  induction rs generalizing s a with
  | nil => cases h
  | cons r rs ih =>
    simp only [State.storeRegs] at h
    split at h
    · exact ih h
    · cases h; exact memWrite_predictable ‹_›

theorem pushBody_predictable {m : Bool} {list : BitVec 8} {f : Fault} (h : pushBody s m list = .error f) :
    Predictable f := by
  simp only [pushBody] at h
  split at h
  · cases h
  · cases h; exact storeRegs_predictable ‹_›

theorem popPc_predictable {a : Word} {f : Fault} (h : popPc s a = .error f) : Predictable f := by
  unfold popPc at h
  split at h
  · exact branchExchange_predictable h
  · cases h; exact memRead_predictable ‹_›

theorem popBody_predictable {p : Bool} {list : BitVec 8} {f : Fault} (h : popBody s p list = .error f) :
    Predictable f := by
  simp only [popBody] at h
  split at h
  · cases h; exact loadRegs_predictable ‹_›
  · split at h
    · split at h
      · cases h
      · cases h; exact popPc_predictable ‹_›
    · cases h

theorem stmBody_predictable {rn : LowReg} {list : BitVec 8} {f : Fault} (h : stmBody s rn list = .error f) :
    Predictable f := by
  simp only [stmBody] at h
  split at h
  · cases h
  · cases h; exact storeRegs_predictable ‹_›

theorem ldmBody_predictable {rn : LowReg} {list : BitVec 8} {f : Fault} (h : ldmBody s rn list = .error f) :
    Predictable f := by
  simp only [ldmBody] at h
  split at h
  · cases h
  · cases h; exact loadRegs_predictable ‹_›

/-! ## How an instruction with other operands ends -/

/-- A next state that keeps the run state, or a fault other than `Unpredictable` in the record. -/
def EndsPredictably (s : State) (r : Result) : Prop :=
  Ends r fun t => t.run = s.run ∨ ∃ f ia, Predictable f ∧ t.fault = some ⟨f, ia⟩

namespace EndsPredictably

theorem next (h : t.run = s.run) : EndsPredictably s (.next t) := ⟨t, rfl, .inl h⟩

theorem takeFault (s : State) {f : Fault} (hf : Predictable f) (ia : Word) : EndsPredictably s (.next (s.takeFault f ia)) :=
  ⟨_, rfl, .inr ⟨f, ia, hf, rfl⟩⟩

theorem completeShort {r : Except Fault State} (hok : ∀ t, r = .ok t → Completed s t)
    (herror : ∀ f, r = .error f → Predictable f) : EndsPredictably s (completeShort s r) := by
  cases r with
  | ok t => exact next (hok t rfl).control.run
  | error f => exact takeFault s (herror f rfl) s.iaShort

theorem guarded {refused : Bool} {f : Fault} {r : Result} (hrefused : refused = false) (h : EndsPredictably s r) :
    EndsPredictably s (if refused then raiseShort s f else r) := by
  cases hrefused
  exact h

theorem loadInto (s : State) (rt : LowReg) (a : Word) (w : Width) (extend : Word → Word) :
    EndsPredictably s (loadInto s rt a w extend) := by
  refine completeShort (fun t h => ?_) fun f h => ?_
  · split at h
    · cases h; exact .setReg s (low_ne_pc rt) _
    · cases h
  · split at h
    · cases h
    · cases h; exact memRead_predictable ‹_›

theorem storeFrom (s : State) (rt : LowReg) (a : Word) (w : Width) : EndsPredictably s (storeFrom s rt a w) :=
  completeShort (fun _ => .memWrite) fun _ => memWrite_predictable

theorem branchExchange (s : State) (v : Word) : EndsPredictably s (Machine.completeShort s (s.branchExchange v)) :=
  completeShort (fun _ => .branchExchange) fun _ => branchExchange_predictable

end EndsPredictably

/-- An instruction whose operands R115 does not list completes, or raises another fault. -/
theorem exec_endsPredictably {i : Instr} (hi : refusesOperands i = false) (s : State) : EndsPredictably s (exec i s) := by
  cases i with
  | lslsImm | movsReg | lsrsImm | asrsImm | addsReg | subsReg | addsImm3 | subsImm3 | movsImm | addsImm8 | subsImm8
  | ands | eors | lslsReg | lsrsReg | asrsReg | adcs | sbcs | rors | rsbs | orrs | muls | bics | mvns
  | cmpImm | tst | cmpReg | cmn | adr | addRdSp | sxth | sxtb | uxth | uxtb | rev | rev16 | revsh | addSp | subSp
  | nop | b | bl =>
    exact .next rfl
  | ldrLit | ldrsbReg | ldrReg | ldrhReg | ldrbReg | ldrshReg | ldrImm | ldrbImm | ldrhImm | ldrSp =>
    exact .loadInto s _ _ _ _
  | strReg | strhReg | strbReg | strImm | strbImm | strhImm | strSp => exact .storeFrom s _ _ _
  | addHi => exact .guarded hi (.next (Completed.writeResult s _ _).control.run)
  | cmpHi => exact .guarded hi (.next rfl)
  | movHi => exact .next (Completed.writeResult s _ _).control.run
  | bx => exact .branchExchange s _
  | blx =>
    exact .guarded hi <| .completeShort (fun _ h => (Completed.setReg s (by decide) _).trans (.branchExchange h))
      fun _ => branchExchange_predictable
  | push => exact .guarded hi (.completeShort (fun _ => .pushBody) fun _ => pushBody_predictable)
  | pop => exact .guarded hi (.completeShort (fun _ => .popBody) fun _ => popBody_predictable)
  | stm => exact .guarded hi (.completeShort (fun _ => .stmBody) fun _ => stmBody_predictable)
  | ldm => exact .guarded hi (.completeShort (fun _ => .ldmBody) fun _ => ldmBody_predictable)
  | bcond cond imm8 =>
    change EndsPredictably s (.next (if _ then _ else _))
    split
    · exact .next rfl
    · exact .next rfl
  | cps | bkpt | yield | wfe | wfi | sev | udf | svc | msr | mrs | dsb | dmb | isb =>
    exact .takeFault s (undefinedFault_predictable _) _

/-! ## The obligation -/

/-- Settles O58: the guards refuse exactly the listed operands, and no other operation raises `Unpredictable`. -/
theorem exactlyTheListedOperandsAreUnpredictable : Obligations.ExactlyTheListedOperandsAreUnpredictable := by
  refine fun i s ia hpc => ⟨fun hi => ?_, fun hi hrun t h ht hfaulted hrecord => ?_⟩
  · rw [← refusesOperands_iff] at hi
    rw [byteLength_of_refusesOperands hi] at hpc
    rw [exec_of_refusesOperands hi]
    exact raises_raiseShort hpc _
  · rw [← refusesOperands_iff, Bool.not_eq_true] at hi
    obtain ⟨u, hu, hkept | ⟨f, ia', hf, hfault⟩⟩ := exec_endsPredictably hi s
    · cases ht.symm.trans hu
      exact hrun (hkept.symm.trans hfaulted)
    · cases ht.symm.trans hu
      cases hfault.symm.trans hrecord
      exact hf h rfl

end Sys2Proof.Machine
end

section
/-! PROOFS. The ALU (R131 to R145): sums and differences in the spec's terms, the tables of the four shift functions, and
the conditions, by their field and after a comparison. -/

namespace Sys2Proof.Safety

open Machine

/-! ## What the spec's terms say of each other -/

theorem toInt_range (x : Word) : -2 ^ 31 ≤ x.toInt ∧ x.toInt < 2 ^ 31 := ⟨BitVec.le_toInt x, BitVec.toInt_lt⟩

theorem getLsbD_31_eq_decide_toInt_neg (x : Word) : x.getLsbD 31 = decide (x.toInt < 0) :=
  (BitVec.msb_eq_getLsbD_last x).symm.trans BitVec.msb_eq_toInt

theorem overflows_iff_bmod_ne (x : Int) : Overflows x ↔ x.bmod (2 ^ 32) ≠ x := by
  simp only [Overflows, Ne, Int.bmod_eq_iff (show 0 < 2 ^ 32 by decide)]
  omega

theorem NZ.n_iff {r : Word} {f : Flags} (h : NZ r f) : f.n = true ↔ r.toInt < 0 := by
  rw [h.n, ← decide_eq_true_iff (p := r.toInt < 0), ← BitVec.msb_eq_toInt, BitVec.msb_eq_decide, decide_eq_true_iff]

section

variable {a b r : Word} {f : Flags}

theorem DifferenceOf.z_iff (h : DifferenceOf a b false r f) : f.z = true ↔ a = b := by
  rw [h.nz.z, h.value]
  simpa using sub_eq_zero (a := a)

theorem DifferenceOf.c_iff (h : DifferenceOf a b false r f) : f.c = true ↔ b.toNat ≤ a.toNat := h.c

theorem DifferenceOf.n_iff (h : DifferenceOf a b false r f) :
    f.n = true ↔ (a.toInt - b.toInt).bmod (2 ^ 32) < 0 := by
  rw [h.nz.n_iff, h.value, ← BitVec.toInt_sub]
  simp

/-- N is the wrong sign of the difference exactly where V is set, so the two together give the true one. -/
theorem DifferenceOf.n_eq_v_iff (h : DifferenceOf a b false r f) : f.n = f.v ↔ b.toInt ≤ a.toInt := by
  have hv : f.v = true ↔ Overflows (a.toInt - b.toInt) := by simpa using h.v
  have ha := toInt_range a
  have hb := toInt_range b
  rw [Bool.eq_iff_iff, h.n_iff, hv, Overflows, Int.bmod_def]
  omega

end

end Sys2Proof.Safety

namespace Sys2Proof.Machine

open Safety

/-! ## Addition and subtraction (R131, R133 to R135) -/

theorem addResult_eq (x y : Word) (cin : Bool) : addResult x y cin = x + y + BitVec.ofNat 32 cin.toNat := by
  simp [addResult, unsignedSum, BitVec.ofNat_add]

theorem toNat_addResult (x y : Word) (cin : Bool) :
    (addResult x y cin).toNat = (x.toNat + y.toNat + cin.toNat) % 2 ^ 32 := BitVec.toNat_ofNat ..

theorem toInt_addResult (x y : Word) (cin : Bool) :
    (addResult x y cin).toInt = (x.toInt + y.toInt + cin.toNat).bmod (2 ^ 32) := by
  have hcin : (BitVec.ofNat 32 cin.toNat).toInt = cin.toNat := by cases cin <;> rfl
  rw [addResult_eq, BitVec.toInt_add, BitVec.toInt_add, hcin, Int.bmod_add_bmod]

/-- N and Z of every result the ALU answers (R132). -/
theorem nz_nzFlags (r : Word) (c v : Bool) : NZ r (nzFlags r c v) where
  n := by simp [nzFlags, BitVec.msb_eq_decide]
  z := beq_iff_eq

theorem sumOf_addWithCarry (x y : Word) (cin : Bool) :
    SumOf x y cin (addWithCarry x y cin).result (addWithCarry x y cin).flags where
  value := toNat_addResult x y cin
  nz := nz_nzFlags _ _ _
  c := decide_eq_true_iff
  v := by
    rw [overflows_iff_bmod_ne, ← toInt_addResult]
    exact decide_eq_true_iff

theorem toInt_not_eq (b : Word) : (~~~b).toInt = -b.toInt - 1 := by
  rw [BitVec.toInt_not, BitVec.toInt_eq_toNat_bmod, Int.bmod_def, Int.bmod_def]
  have := b.isLt
  omega

/-- `AddWithCarry(a, NOT b, c)` subtracts `b` and the inverted carry (R134, R135). -/
theorem differenceOf_addWithCarry_not (a b : Word) (c : Bool) :
    DifferenceOf a b (!c) (addWithCarry a (~~~b) c).result (addWithCarry a (~~~b) c).flags := by
  obtain ⟨-, hnz, hc, hv⟩ := sumOf_addWithCarry a (~~~b) c
  have hsum : (!c).toNat + c.toNat = 1 := by cases c <;> rfl
  have hborrow : BitVec.ofNat 32 (!c).toNat = 1#32 - BitVec.ofNat 32 c.toNat := by cases c <;> rfl
  refine ⟨?_, hnz, ?_, ?_⟩
  · change addResult a (~~~b) c = _
    rw [addResult_eq, BitVec.not_eq_neg_add, hborrow]
    abel
  · rw [hc, BitVec.toNat_not]
    have := b.isLt
    omega
  · rw [hv, toInt_not_eq, show a.toInt + (-b.toInt - 1) + c.toNat = a.toInt - b.toInt - (!c).toNat by omega]

theorem differenceOf_aluSub (a b : Word) : DifferenceOf a b false (aluSub a b).result (aluSub a b).flags :=
  differenceOf_addWithCarry_not a b true

/-- Overflow by the sign bits alone, the rule's second form (R131). -/
theorem overflows_signedSum_iff (x y : Word) (cin : Bool) :
    Overflows (x.toInt + y.toInt + cin.toNat) ↔
      x.getLsbD 31 = y.getLsbD 31 ∧ (addResult x y cin).getLsbD 31 ≠ x.getLsbD 31 := by
  have hx := toInt_range x
  have hy := toInt_range y
  have hcin := Bool.toNat_le cin
  simp only [getLsbD_31_eq_decide_toInt_neg, toInt_addResult, Int.bmod_def, Overflows, Ne, decide_eq_decide]
  omega

/-! ## Shift functions (R137 to R140) -/

theorem lslTable_lslC (x : Word) (n : Nat) : LslTable x n (lslC x n).result (lslC x n).carry where
  below _ h := by simp [lslC, h, Nat.shiftLeft_eq]
  at32 h := by simp [lslC, h]
  above h := by simp [lslC, show ¬ n ≤ 31 by omega, show n ≠ 32 by omega]

theorem lsrTable_lsrC (x : Word) (n : Nat) : LsrTable x n (lsrC x n).result (lsrC x n).carry where
  below _ h := by simp [lsrC, h, Nat.shiftRight_eq_div_pow]
  at32 h := by simp [lsrC, h]
  above h := by simp [lsrC, show ¬ n ≤ 31 by omega, show n ≠ 32 by omega]

theorem asrTable_asrC (x : Word) (n : Nat) : AsrTable x n (asrC x n).result (asrC x n).carry where
  below _ h := by simp [asrC, h, BitVec.toInt_sshiftRight, Int.shiftRight_eq_div_pow]
  from32 h := by simp [asrC, show ¬ n ≤ 31 by omega]

theorem rorC_result (x : Word) (n : Nat) : (rorC x n).result = x.rotateRight n := by
  simp only [rorC, BitVec.rotateRight, BitVec.rotateRightAux]
  split
  · next h => simp [h]
  · rfl

theorem rorTable_rorC (x : Word) (n : Nat) : RorTable x n (rorC x n).result (rorC x n).carry where
  bits _ i hi := by
    rw [rorC_result, BitVec.getLsbD_rotateRight]
    by_cases h : i < 32 - n % 32
    · have hbit : (i + n) % 32 = n % 32 + i := by omega
      simp [h, hbit]
    · have hbit : (i + n) % 32 = i - (32 - n % 32) := by omega
      simp [h, hi, hbit]
  carry _ := rfl

/-! ## The condition field (R145) -/

/-- The halfword `1101 code imm8` as the encoder places its fields. -/
theorem append_conditional_eq_place (code : BitVec 4) (imm8 : BitVec 8) :
    (0b1101#4 ++ code ++ imm8 : Halfword) = 0xD000 ||| place code 8 ||| place imm8 0 := by
  have hhigh : ∀ code : BitVec 4, place (0b1101#4 ++ code) 8 = 0xD000 ||| place code 8 := by decide
  rw [append_eq_place, hhigh]

/-! ## The obligations -/

/-- Settles O37: the sum in the spec's terms; a sum differs from its remainder exactly where it reaches the modulus, and
overflow shows in the sign bits. -/
theorem addWithCarryIsTheUnboundedSum : Obligations.AddWithCarryIsTheUnboundedSum := by
  intro x y cin
  obtain ⟨hvalue, -, hc, hv⟩ := sumOf_addWithCarry x y cin
  refine ⟨hvalue, hc, ?_, decide_eq_true_iff, hv.trans (overflows_signedSum_iff x y cin)⟩
  rw [hc, hvalue]
  omega

/-- Settles O38, table by table. -/
theorem shiftFunctionsFollowTheirTables : Obligations.ShiftFunctionsFollowTheirTables := fun x n =>
  ⟨lslTable_lslC x n, lsrTable_lsrC x n, asrTable_asrC x n, rorTable_rorC x n⟩

/-- Settles O39: the table is `CondHolds`, the field is the one the encoder writes, and a comparison's
flags are those of the difference. -/
theorem conditionsFollowTheTable : Obligations.ConditionsFollowTheTable := by
  refine ⟨conditionPassed_iff, fun imm8 hw2 => ⟨fun cond => ?bcond, ?udf, ?svc⟩, by decide, fun a b => ?comparison⟩
  case bcond => rw [append_conditional_eq_place]; exact decode_encode (i := .bcond cond imm8) rfl hw2
  case udf => rw [append_conditional_eq_place]; exact decode_encode (i := .udf imm8) rfl hw2
  case svc => rw [append_conditional_eq_place]; exact decode_encode (i := .svc imm8) rfl hw2
  case comparison =>
    have h := differenceOf_aluSub a b
    simp only [conditionPassed_iff, CondHolds, ← Bool.not_eq_true, ne_eq, h.z_iff, h.c_iff, h.n_eq_v_iff, not_le]
    refine ⟨trivial, trivial, trivial, ?hi, ?ls, trivial, trivial, ?gt, ?le⟩
    case hi | ls => rw [← BitVec.toNat_inj]; omega
    case gt | le => rw [← BitVec.toInt_inj]; omega

end Sys2Proof.Machine
end

section
/-! PROOFS. Additions, subtractions, compares and immediate shifts (R160 to R171 and their kin of R180 to R201): the
ALU's tuple in the spec's terms, written back with the frame. -/

namespace Sys2Proof.Machine

open Safety

/-! ## An ALU result written back (R130, R146) -/

/-- What holds of the ALU's tuple holds of the destination and the flags after the write, and the rest is as before. -/
theorem ends_writeAlu (s : State) (r : Reg) {o : AluOut} {P : Word → Flags → Prop} (h : P o.result o.flags) :
    Ends (.next (s.writeAlu r o)) fun t => P (t.reg r) t.flags ∧ Frame s t [r] :=
  ⟨_, rfl, by rwa [State.reg_writeAlu_self, State.flags_writeAlu], frame_writeAlu s r o⟩

/-- What holds of the flags of a discarded result holds of the flags after the write, and the rest is as before. -/
theorem ends_writeFlags (s : State) {o : AluOut} {P : Flags → Prop} (h : P o.flags) :
    Ends (.next (s.writeFlags o)) fun t => P t.flags ∧ Frame s t [] :=
  ⟨_, rfl, h, frame_writeFlags s o⟩

theorem ends_sum (s : State) (r : Reg) (a b : Word) (cin : Bool) :
    Ends (.next (s.writeAlu r (addWithCarry a b cin))) fun t =>
      SumOf a b cin (t.reg r) t.flags ∧ Frame s t [r] :=
  ends_writeAlu s r (P := SumOf a b cin) (sumOf_addWithCarry a b cin)

theorem ends_difference (s : State) (r : Reg) (a b : Word) :
    Ends (.next (s.writeAlu r (aluSub a b))) fun t => DifferenceOf a b false (t.reg r) t.flags ∧ Frame s t [r] :=
  ends_writeAlu s r (P := DifferenceOf a b false) (differenceOf_aluSub a b)

theorem ends_compare (s : State) (a b : Word) :
    Ends (.next (s.writeFlags (aluSub a b))) fun t => (∃ r, DifferenceOf a b false r t.flags) ∧ Frame s t [] :=
  ends_writeFlags s (P := fun f => ∃ r, DifferenceOf a b false r f) ⟨_, differenceOf_aluSub a b⟩

/-! ## The ALU's functions in the spec's terms -/

theorem addWithCarry_comm (x y : Word) (cin : Bool) : addWithCarry x y cin = addWithCarry y x cin := by
  have hunsigned : unsignedSum x y cin = unsignedSum y x cin := congrArg (· + _) (Nat.add_comm ..)
  have hsigned : signedSum x y cin = signedSum y x cin := congrArg (· + _) (Int.add_comm ..)
  rw [addWithCarry, addResult, addCarry, addOverflow, addResult, hunsigned, hsigned]
  rfl

/-- The reverse subtraction of R189 is the subtraction from 0. -/
theorem differenceOf_aluNeg (b : Word) : DifferenceOf 0 b false (aluNeg b).result (aluNeg b).flags := by
  rw [aluNeg, addWithCarry_comm]
  exact differenceOf_aluSub 0 b

theorem keepsCV_aluLogic (r : Word) (old : Flags) : KeepsCV r old (aluLogic r old).flags :=
  ⟨nz_nzFlags r old.c old.v, rfl, rfl⟩

/-- A shift follows the table of its function: amount 0 passes through, and any other amount is in the table. -/
theorem shifted_aluShift {table : Word → Nat → Word → Bool → Prop} {f : Word → Nat → ShiftOut}
    (htable : ∀ x n, table x n (f x n).result (f x n).carry) (x : Word) (n : Nat) (old : Flags) :
    Shifted table x n old (aluShift f x n old).result (aluShift f x n old).flags := by
  unfold aluShift
  split
  · next hzero => exact ⟨fun _ => ⟨rfl, rfl⟩, fun hpos => by omega, nz_nzFlags _ _ _, rfl⟩
  · next hne => exact ⟨fun hzero => absurd hzero hne, fun _ => htable x n, nz_nzFlags _ _ _, rfl⟩

theorem ends_shifted (s : State) (r : Reg) {table : Word → Nat → Word → Bool → Prop}
    {f : Word → Nat → ShiftOut} (htable : ∀ x n, table x n (f x n).result (f x n).carry) (x : Word) (n : Nat) :
    Ends (.next (s.writeAlu r (aluShift f x n s.flags))) fun t =>
      Shifted table x n s.flags (t.reg r) t.flags ∧ Frame s t [r] :=
  ends_writeAlu s r (P := Shifted table x n s.flags) (shifted_aluShift htable x n s.flags)

/-! ## The high-register compare (R201) -/

theorem exec_cmpHi_of_predictable {rn rm : Reg} (h : ¬ Unpredictable (.cmpHi rn rm)) (s : State) :
    exec (.cmpHi rn rm) s = .next (s.writeFlags (aluSub (s.reg rn) (s.reg rm))) :=
  if_neg (mt (refusesOperands_iff (.cmpHi rn rm)).mp h)

/-! ## The obligations -/

/-- Settles O40: each of the four is one `AddWithCarry`, with carry in 0 or the old C. -/
theorem additionsWriteTheSumAndAllFlags : Obligations.AdditionsWriteTheSumAndAllFlags := fun s =>
  ⟨fun _ _ _ => ends_sum s _ _ _ false, fun _ _ _ => ends_sum s _ _ _ false, fun _ _ => ends_sum s _ _ _ false,
    fun _ _ => ends_sum s _ _ _ s.flags.c⟩

/-- Settles O41: the three forms of `SUBS` are one subtraction, `SBCS` borrows the inverted carry, and `RSBS` is the
subtraction from 0. -/
theorem subtractionsWriteTheDifferenceAndAllFlags : Obligations.SubtractionsWriteTheDifferenceAndAllFlags := fun s =>
  ⟨fun _ _ _ => ends_difference s _ _ _, fun _ _ _ => ends_difference s _ _ _, fun _ _ => ends_difference s _ _ _,
    fun _ _ => ends_writeAlu s _ (P := DifferenceOf _ _ (!s.flags.c)) (differenceOf_addWithCarry_not _ _ s.flags.c),
    fun _ _ => ends_writeAlu s _ (P := DifferenceOf 0 _ false) (differenceOf_aluNeg _)⟩

/-- Settles O42: a compare is a subtraction or an addition whose result is discarded, a test a conjunction; the operands
of the high-register form that R115 does not list pass its guard. -/
theorem comparesWriteTheFlagsOnly : Obligations.ComparesWriteTheFlagsOnly := by
  refine fun s => ⟨fun _ _ => ends_compare s _ _, fun _ _ => ends_compare s _ _, fun rn rm => ?cmn,
    fun rn rm hhigh hrn hrm => ?cmpHi, fun rn rm => ?tst⟩
  case cmn =>
    exact ends_writeFlags s (P := fun f => ∃ r, SumOf _ _ false r f) ⟨_, sumOf_addWithCarry _ _ false⟩
  case cmpHi =>
    have hpredictable : ¬ Unpredictable (.cmpHi rn rm) := by
      simp only [Unpredictable, hrn, hrm, or_false]
      omega
    rw [exec_cmpHi_of_predictable hpredictable]
    exact ends_compare s _ _
  case tst => exact ends_writeFlags s (P := KeepsCV _ s.flags) (keepsCV_aluLogic _ _)

/-- Settles O44, by the table of each shift function; a right shift's field is its amount but for 0, which is 32. -/
theorem immediateShiftsFollowTheTables : Obligations.ImmediateShiftsFollowTheTables := by
  intro s rd rm imm5 n
  have hamount : rightShiftAmount imm5 = n := rightShiftAmount_eq imm5
  rw [← hamount]
  exact ⟨ends_shifted s _ lslTable_lslC _ _, ends_shifted s _ lsrTable_lsrC _ _, ends_shifted s _ asrTable_asrC _ _⟩

/-- Settles O10, by running the decoder on each word. -/
theorem sampleWordsDecode : Obligations.SampleWordsDecode := by
  unfold Obligations.SampleWordsDecode
  decide

end Sys2Proof.Machine
end

section
/-! PROOFS. The two-register logic, multiply and shifts by a register, and the moves (R161, R168, R180 to R195): the
result, N and Z by the spec's terms, C and V kept or by the shift's table. -/

namespace Sys2Proof.Machine

open Safety

/-! ## Results that keep C and V (R136, R143) -/

theorem keepsCV_aluMul (a b : Word) (old : Flags) : KeepsCV (aluMul a b old).result old (aluMul a b old).flags :=
  keepsCV_aluLogic _ old

theorem toNat_aluMul_result (a b : Word) (old : Flags) :
    (aluMul a b old).result.toNat = (a.toNat * b.toNat) % 2 ^ 32 :=
  BitVec.toNat_ofNat ..

/-- A tuple that keeps C and V, written back: what holds of its result holds of the destination. -/
theorem ends_keepsCV (s : State) (r : Reg) {o : AluOut} {P : Word → Prop} (hresult : P o.result)
    (hflags : KeepsCV o.result s.flags o.flags) :
    Ends (.next (s.writeAlu r o)) fun t => P (t.reg r) ∧ KeepsCV (t.reg r) s.flags t.flags ∧ Frame s t [r] := by
  obtain ⟨t, ht, ⟨hreg, hkeeps⟩, hframe⟩ :=
    ends_writeAlu s r (P := fun v f => P v ∧ KeepsCV v s.flags f) ⟨hresult, hflags⟩
  exact ⟨t, ht, hreg, hkeeps, hframe⟩

theorem ends_aluLogic (s : State) (r : Reg) (v : Word) :
    Ends (.next (s.writeAlu r (aluLogic v s.flags))) fun t =>
      t.reg r = v ∧ KeepsCV (t.reg r) s.flags t.flags ∧ Frame s t [r] :=
  ends_keepsCV s r (P := (· = v)) rfl (keepsCV_aluLogic v s.flags)

theorem ends_aluMul (s : State) (r : Reg) (a b : Word) :
    Ends (.next (s.writeAlu r (aluMul a b s.flags))) fun t =>
      (t.reg r).toNat = (a.toNat * b.toNat) % 2 ^ 32 ∧ KeepsCV (t.reg r) s.flags t.flags ∧ Frame s t [r] :=
  ends_keepsCV s r (P := fun v => v.toNat = (a.toNat * b.toNat) % 2 ^ 32) (toNat_aluMul_result a b s.flags)
    (keepsCV_aluMul a b s.flags)

/-! ## The amount of a register shift (R142) -/

theorem registerShiftAmount_eq (x : Word) : registerShiftAmount x = x.toNat % 256 := BitVec.toNat_setWidth 8 x

/-! ## The obligations -/

/-- Settles O43: each logical operation and each move is one `aluLogic` of its own result, and `MULS` is `aluMul`. -/
theorem logicMovesAndMultiplyKeepCarryAndOverflow : Obligations.LogicMovesAndMultiplyKeepCarryAndOverflow := by
  refine fun s => ⟨fun rdn rm => ?ands, fun rdn rm => ?eors, fun rdn rm => ?orrs, fun rdn rm => ?bics,
    fun rd rm => ?mvns, fun rd rm => ?movsReg, fun rd imm8 => ?movsImm, fun rdm rn => ?muls⟩
  case ands => exact ends_aluLogic s (low rdn) (s.reg (low rdn) &&& s.reg (low rm))
  case eors => exact ends_aluLogic s (low rdn) (s.reg (low rdn) ^^^ s.reg (low rm))
  case orrs => exact ends_aluLogic s (low rdn) (s.reg (low rdn) ||| s.reg (low rm))
  case bics => exact ends_aluLogic s (low rdn) (s.reg (low rdn) &&& ~~~(s.reg (low rm)))
  case mvns => exact ends_aluLogic s (low rd) (~~~(s.reg (low rm)))
  case movsReg => exact ends_aluLogic s (low rd) (s.reg (low rm))
  case movsImm => exact ends_aluLogic s (low rd) (imm8.setWidth 32)
  case muls => exact ends_aluMul s (low rdm) (s.reg (low rn)) (s.reg (low rdm))

/-- Settles O45, by the table of each shift function, at the low byte of the amount register. -/
theorem registerShiftsFollowTheTables : Obligations.RegisterShiftsFollowTheTables := by
  intro s rdn rm n
  have hamount : registerShiftAmount (s.reg (low rm)) = n := registerShiftAmount_eq _
  rw [← hamount]
  exact ⟨ends_shifted s _ lslTable_lslC _ _, ends_shifted s _ lsrTable_lsrC _ _, ends_shifted s _ asrTable_asrC _ _,
    ends_shifted s _ rorTable_rorC _ _⟩

end Sys2Proof.Machine
end

section
/-! PROOFS. High-register addition and move, and branch-exchange (R200, R202 to R206): the operands at `ia`, a result that
may be a branch, and a target that may raise `Interwork`. -/

namespace Sys2Proof.Machine

open Safety

variable {s : State} {ia v : Word}

/-! ## Operands and results of any register (R25, R206) -/

theorem regRead_eq_operandAt (hpc : s.pc = ia + 2) (r : Reg) : s.regRead r = operandAt s ia r := by
  rw [State.regRead, iaShort_of_pc hpc]
  rfl

theorem ends_writeResult (s : State) (r : Reg) (v : Word) :
    Ends (.next (s.writeResult r v)) fun t =>
      t.reg r = (if r = 15 then v &&& 0xFFFFFFFE else v) ∧ FrameKeepingFlags s t [r] :=
  ⟨_, rfl, by rw [State.reg_writeResult, if_pos rfl], frame_writeResult s r v⟩

/-! ## Branches, with and without a link (R26, R204) -/

theorem ends_branchTo (s : State) (target : Word) :
    Ends (.next (s.branchTo target)) fun t => t.pc = target &&& 0xFFFFFFFE ∧ FrameKeepingFlags s t [pcReg] :=
  ⟨_, rfl, State.reg_setReg_self .., frame_branchTo s target⟩

theorem frame_branchTo_setReg (s : State) (r : Reg) (w target : Word) :
    FrameKeepingFlags s ((s.setReg r w).branchTo target) [r, pcReg] := by
  refine ((OnlyRegs.setReg s r w).trans (.branchTo _ target)).frame fun q hq => ?_
  rw [List.mem_cons, List.mem_singleton, not_or] at hq
  obtain ⟨hr, hpc⟩ := hq
  rw [State.reg_branchTo, if_neg hpc, State.reg_setReg_ne s w hr]

theorem ends_branchTo_link (s : State) (link target : Word) :
    Ends (.next ((s.setReg lrReg link).branchTo target)) fun t =>
      t.pc = target &&& 0xFFFFFFFE ∧ t.reg 14 = link ∧ FrameKeepingFlags s t [14, pcReg] := by
  refine ⟨_, rfl, State.reg_setReg_self .., ?_, frame_branchTo_setReg s lrReg link target⟩
  rw [State.reg_branchTo, if_neg (by decide), State.reg_setReg_self]

/-! ## Branch-exchange (R205) -/

theorem completeShort_branchExchange_of_odd (s u : State) (hv : v.getLsbD 0 = true) :
    completeShort s (u.branchExchange v) = .next (u.branchTo v) := by
  rw [State.branchExchange, if_pos hv, completeShort_ok]

/-- The state the branch would have started from, with its link written or not, is dropped. -/
theorem raises_branchExchange_of_even (hpc : s.pc = ia + 2) (u : State) (hv : v.getLsbD 0 = false) :
    Raises s (completeShort s (u.branchExchange v)) (.interwork v) ia := by
  rw [State.branchExchange, if_neg (ne_true_of_eq_false hv)]
  exact raises_raiseShort hpc _

/-! ## The instructions at `ia` -/

theorem exec_addHi_of_predictable (hpc : s.pc = ia + 2) {rdn rm : Reg} (h : ¬ Unpredictable (.addHi rdn rm)) :
    exec (.addHi rdn rm) s = .next (s.writeResult rdn (operandAt s ia rdn + operandAt s ia rm)) := by
  rw [← regRead_eq_operandAt hpc, ← regRead_eq_operandAt hpc]
  exact if_neg (mt (refusesOperands_iff (.addHi rdn rm)).mp h)

theorem exec_movHi (hpc : s.pc = ia + 2) (rd rm : Reg) :
    exec (.movHi rd rm) s = .next (s.writeResult rd (operandAt s ia rm)) := by
  rw [← regRead_eq_operandAt hpc]
  rfl

theorem exec_bx (hpc : s.pc = ia + 2) (rm : Reg) :
    exec (.bx rm) s = completeShort s (s.branchExchange (operandAt s ia rm)) := by
  rw [← regRead_eq_operandAt hpc]
  rfl

theorem exec_blx_of_predictable (hpc : s.pc = ia + 2) {rm : Reg} (h : ¬ Unpredictable (.blx rm)) :
    exec (.blx rm) s = completeShort s ((s.setReg lrReg ((ia + 2) ||| 1)).branchExchange (s.reg rm)) := by
  rw [← iaShort_of_pc hpc]
  exact if_neg (mt (refusesOperands_iff (.blx rm)).mp h)

/-! ## The obligations -/

/-- Settles O46: both instructions write one result to any register, from operands read at `ia`. -/
theorem highRegisterAddAndMove : Obligations.HighRegisterAddAndMove := by
  refine fun s ia hpc => ⟨fun rdn rm hne => ?addHi, fun rd rm => ?movHi⟩
  case addHi => rw [exec_addHi_of_predictable hpc hne]; exact ends_writeResult s rdn _
  case movHi => rw [exec_movHi hpc]; exact ends_writeResult s rd _

/-- Settles O47: bit 0 of the target decides between the branch and `Interwork`; `BLX` branches from the state with its
link written. -/
theorem branchExchange : Obligations.BranchExchange := by
  refine fun s ia rm hpc => ⟨fun hodd => ?bxOdd, fun heven => ?bxEven, fun hne hodd => ?blxOdd, fun hne heven => ?blxEven⟩
  case bxOdd => rw [exec_bx hpc, completeShort_branchExchange_of_odd s s hodd]; exact ends_branchTo s _
  case bxEven => rw [exec_bx hpc]; exact raises_branchExchange_of_even hpc s heven
  case blxOdd =>
    rw [exec_blx_of_predictable hpc hne, completeShort_branchExchange_of_odd s _ hodd]
    exact ends_branchTo_link s _ _
  case blxEven =>
    rw [exec_blx_of_predictable hpc hne]
    exact raises_branchExchange_of_even hpc _ heven

end Sys2Proof.Machine
end

section
/-! PROOFS. Loads and stores (R210 to R230): one load and one store of any width at any address, then each instruction's
address and extension in the spec's terms. -/

namespace Sys2Proof.Machine

open Safety

variable {i : Instr} {s : State} {ia a addr value : Word} {w : Width} {rt : LowReg}

/-! ## Effective addresses (R210 (a)) -/

theorem literalAddress_eq (hpc : s.pc = ia + 2) (imm8 : BitVec 8) :
    literalAddress s imm8 = ((ia + 4) &&& 0xFFFFFFFC) + BitVec.ofNat 32 (4 * imm8.toNat) := by
  rw [literalAddress, literalBase, iaShort_of_pc hpc, immTimes4_eq]

theorem offsetAddress_immTimes4 (s : State) (rn : LowReg) (imm5 : BitVec 5) :
    offsetAddress s rn (immTimes4 imm5) = s.reg (low rn) + BitVec.ofNat 32 (4 * imm5.toNat) := by
  rw [offsetAddress, State.lowReg, immTimes4_eq]

theorem offsetAddress_immTimes2 (s : State) (rn : LowReg) (imm5 : BitVec 5) :
    offsetAddress s rn (immTimes2 imm5) = s.reg (low rn) + BitVec.ofNat 32 (2 * imm5.toNat) := by
  rw [offsetAddress, State.lowReg, immTimes2_eq]

theorem offsetAddress_immPlain (s : State) (rn : LowReg) (imm5 : BitVec 5) :
    offsetAddress s rn (immPlain imm5) = s.reg (low rn) + BitVec.ofNat 32 imm5.toNat := by
  rw [offsetAddress, State.lowReg, immPlain_eq]

theorem spAddress_eq (s : State) (imm8 : BitVec 8) :
    spAddress s imm8 = s.reg 13 + BitVec.ofNat 32 (4 * imm8.toNat) := by
  rw [spAddress, immTimes4_eq]

/-! ## The loaded bytes, extended (R210 (d)) -/

theorem zeroExtend16_busReadBytes (s : State) (a : Word) :
    zeroExtend16 (s.busReadBytes a 2) = (halfAt s a).setWidth 32 := by
  rw [zeroExtend16, busReadBytes_half]

theorem signExtend16_busReadBytes (s : State) (a : Word) :
    signExtend16 (s.busReadBytes a 2) = (halfAt s a).signExtend 32 := by
  rw [signExtend16, busReadBytes_half]

theorem zeroExtend8_busReadBytes (s : State) (a : Word) :
    zeroExtend8 (s.busReadBytes a 1) = (s.busReadByte a).setWidth 32 := by
  rw [zeroExtend8, busReadBytes_byte]

theorem signExtend8_busReadBytes (s : State) (a : Word) :
    signExtend8 (s.busReadBytes a 1) = (s.busReadByte a).signExtend 32 := by
  rw [signExtend8, busReadBytes_byte]

/-! ## A load and a store of any width (R210) -/

/-- An instruction that is `loadInto` reads within the address space and writes its register, or raises `AddressRange`. -/
theorem loads_of_loadInto {extend : Word → Word} (hpc : s.pc = ia + 2) (hexec : exec i s = loadInto s rt addr w extend)
    (haddr : addr = a) (hvalue : extend (s.busReadBytes a w.bytes) = value) : Loads i s ia (low rt) a w value where
  loaded hin := by
    subst haddr hvalue
    rw [hexec, loadInto, memRead_of_canLoad s hin]
    exact ⟨_, rfl, State.reg_setReg_self .., frame_setReg s (low rt) _⟩
  raises hout := by
    rw [hexec, haddr, loadInto, memRead_of_not_canLoad s hout]
    exact raises_raiseShort hpc _

theorem OnlyStores.storeFrame {t : State} (h : OnlyStores s t) (written : List Reg) : StoreFrame s t written :=
  ⟨fun r _ => h.reg r, h.flags, h.control⟩

/-- An instruction that is `storeFrom` is the bus write: the fault is the write's own, and where each byte can be stored
the write lands. -/
theorem stores_of_storeFrom (hpc : s.pc = ia + 2) (hexec : exec i s = storeFrom s rt addr w) (haddr : addr = a) :
    Stores i s ia a w (s.reg (low rt)) := by
  have hwrite : exec i s = completeShort s (s.memWrite a w (s.reg (low rt))) := by
    rw [hexec, haddr, storeFrom, State.lowReg]
  refine ⟨fun hinv hstore => ?stored, fun t ht => ?taken, fun f hf => ?raises⟩
  case stored =>
    obtain ⟨t, ht, hstored⟩ := memWrite_storable (storesWf_of_inv hinv) (s.reg (low rt)) hstore
    rw [hwrite, ht]
    exact ⟨t, rfl, hstored, (State.memWrite_ok ht).storeFrame []⟩
  case taken => rw [hwrite, ht, completeShort_ok]
  case raises =>
    rw [hwrite, hf]
    exact raises_raiseShort hpc f

/-! ## The obligations -/

/-- Settles O48: each load is `loadInto` at its address, with its extension of the bytes there. -/
theorem loadsReadTheirAddress : Obligations.LoadsReadTheirAddress := by
  refine fun s ia hpc => ⟨fun rt imm8 => ?ldrLit, fun rt rn rm => ⟨?ldrReg, ?ldrhReg, ?ldrbReg, ?ldrshReg, ?ldrsbReg⟩,
    fun rt rn imm5 => ?ldrImm, fun rt rn imm5 => ?ldrhImm, fun rt rn imm5 => ?ldrbImm, fun rt imm8 => ?ldrSp⟩
  case ldrLit => exact loads_of_loadInto hpc rfl (literalAddress_eq hpc imm8) (busReadBytes_word s _)
  case ldrReg => exact loads_of_loadInto hpc rfl rfl (busReadBytes_word s _)
  case ldrhReg => exact loads_of_loadInto hpc rfl rfl (zeroExtend16_busReadBytes s _)
  case ldrbReg => exact loads_of_loadInto hpc rfl rfl (zeroExtend8_busReadBytes s _)
  case ldrshReg => exact loads_of_loadInto hpc rfl rfl (signExtend16_busReadBytes s _)
  case ldrsbReg => exact loads_of_loadInto hpc rfl rfl (signExtend8_busReadBytes s _)
  case ldrImm => exact loads_of_loadInto hpc rfl (offsetAddress_immTimes4 s rn imm5) (busReadBytes_word s _)
  case ldrhImm => exact loads_of_loadInto hpc rfl (offsetAddress_immTimes2 s rn imm5) (zeroExtend16_busReadBytes s _)
  case ldrbImm => exact loads_of_loadInto hpc rfl (offsetAddress_immPlain s rn imm5) (zeroExtend8_busReadBytes s _)
  case ldrSp => exact loads_of_loadInto hpc rfl (spAddress_eq s imm8) (busReadBytes_word s _)

/-- Settles O49: each store is `storeFrom` at its address. -/
theorem storesWriteTheirAddress : Obligations.StoresWriteTheirAddress := fun s _ hpc =>
  ⟨fun _ _ _ => ⟨stores_of_storeFrom hpc rfl rfl, stores_of_storeFrom hpc rfl rfl, stores_of_storeFrom hpc rfl rfl⟩,
    fun _ rn imm5 => stores_of_storeFrom hpc rfl (offsetAddress_immTimes4 s rn imm5),
    fun _ rn imm5 => stores_of_storeFrom hpc rfl (offsetAddress_immTimes2 s rn imm5),
    fun _ rn imm5 => stores_of_storeFrom hpc rfl (offsetAddress_immPlain s rn imm5),
    fun _ imm8 => stores_of_storeFrom hpc rfl (spAddress_eq s imm8)⟩

end Sys2Proof.Machine
end

section
/-! PROOFS. Address generation, stack-pointer adjustment, extension, byte reversal and `NOP` (R240 to R251): one register
written, no flag touched. -/

namespace Sys2Proof.Machine

open Safety

/-! ## A register written, and nothing else -/

/-- What holds of the value holds of the register after the write, and the rest is as before, the flags too. -/
theorem ends_setReg (s : State) (r : Reg) {v : Word} {P : Word → Prop} (h : P v) :
    Ends (.next (s.setReg r v)) fun t => P (t.reg r) ∧ FrameKeepingFlags s t [r] :=
  ⟨_, rfl, by rwa [State.reg_setReg_self], frame_setReg s r v⟩

/-! ## The extensions (R147) -/

theorem toInt_signExtend_setWidth {n : Nat} (hn : n ≤ 32) (x : Word) :
    ((x.setWidth n).signExtend 32).toInt = (x.extractLsb' 0 n).toInt := by
  rw [BitVec.toInt_signExtend_of_le hn, BitVec.setWidth_eq_extractLsb' hn]

theorem toNat_setWidth_setWidth {n : Nat} (hn : n ≤ 32) (x : Word) :
    ((x.setWidth n).setWidth 32).toNat = x.toNat % 2 ^ n := by
  rw [BitVec.toNat_setWidth_of_le hn, BitVec.toNat_setWidth]

/-! ## The byte reversals (R147) -/

theorem byteOf_eq_wordByte (x : Word) (i : Nat) : byteOf x i = wordByte x i := by
  rw [byteOf, BitVec.extractLsb', Nat.shiftRight_eq_div_pow, wordByte]

/-- The bytes of four concatenated bytes, from the least significant, which is the last. -/
theorem wordByte_append (b3 b2 b1 b0 : Byte) {i : Nat} (hi : i < 4) :
    wordByte (b3 ++ b2 ++ b1 ++ b0) i = [b0, b1, b2, b3][i] := by
  rw [← byteOf_eq_wordByte, byteOf]
  match i with
  | 0 => exact BitVec.extractLsb'_append_eq_right
  | 1 => exact (BitVec.extractLsb'_append_eq_of_le (by decide)).trans BitVec.extractLsb'_append_eq_right
  | 2 =>
    rw [BitVec.extractLsb'_append_eq_of_le (by decide), BitVec.extractLsb'_append_eq_of_le (by decide)]
    exact BitVec.extractLsb'_append_eq_right
  | 3 =>
    rw [BitVec.extractLsb'_append_eq_of_le (by decide), BitVec.extractLsb'_append_eq_of_le (by decide)]
    exact BitVec.extractLsb'_append_eq_left

theorem wordByte_revWord (x : Word) {i : Nat} (hi : i < 4) : wordByte (revWord x) i = wordByte x (3 - i) := by
  rw [revWord, wordByte_append _ _ _ _ hi]
  match i with
  | 0 | 1 | 2 | 3 => exact byteOf_eq_wordByte x _

theorem wordByte_rev16Word (x : Word) {h : Nat} (hh : h < 2) :
    wordByte (rev16Word x) (2 * h) = wordByte x (2 * h + 1) ∧
      wordByte (rev16Word x) (2 * h + 1) = wordByte x (2 * h) := by
  rw [rev16Word, wordByte_append _ _ _ _ (by omega), wordByte_append _ _ _ _ (by omega)]
  match h with
  | 0 | 1 => exact ⟨byteOf_eq_wordByte x _, byteOf_eq_wordByte x _⟩

theorem toInt_revshWord (x : Word) : (revshWord x).toInt = (wordByte x 0 ++ wordByte x 1).toInt := by
  rw [revshWord, BitVec.toInt_signExtend_of_le (by decide), byteOf_eq_wordByte, byteOf_eq_wordByte]

/-! ## The obligations -/

/-- Settles O50: each writes one register with an address, and the immediate is four times its field. -/
theorem addressGenerationAndStackAdjustment : Obligations.AddressGenerationAndStackAdjustment := by
  refine fun s ia hpc => ⟨fun rd imm8 => ?adr, fun rd imm8 => ?addRdSp, fun imm7 => ?addSp, fun imm7 => ?subSp⟩
  case adr => exact ends_setReg s (low rd) (P := (· = _)) (literalAddress_eq hpc imm8)
  case addRdSp => exact ends_setReg s (low rd) (P := (· = _)) (spAddress_eq s imm8)
  case addSp => exact ends_setReg s spReg (P := (· = _)) (congrArg (s.reg 13 + ·) (immTimes4_eq imm7))
  case subSp => exact ends_setReg s spReg (P := (· = _)) (congrArg (s.reg 13 - ·) (immTimes4_eq imm7))

/-- Settles O51: each but `NOP` writes one register, with the value of its extension or reversal. -/
theorem extensionReversalAndNop : Obligations.ExtensionReversalAndNop := by
  refine fun s => ⟨fun rd rm => ?sxth, fun rd rm => ?sxtb, fun rd rm => ?uxth, fun rd rm => ?uxtb, fun rd rm => ?rev,
    fun rd rm => ?rev16, fun rd rm => ?revsh, rfl⟩
  case sxth => exact ends_setReg s (low rd) (P := (·.toInt = _)) (toInt_signExtend_setWidth (by decide) _)
  case sxtb => exact ends_setReg s (low rd) (P := (·.toInt = _)) (toInt_signExtend_setWidth (by decide) _)
  case uxth => exact ends_setReg s (low rd) (P := (·.toNat = _)) (toNat_setWidth_setWidth (by decide) _)
  case uxtb => exact ends_setReg s (low rd) (P := (·.toNat = _)) (toNat_setWidth_setWidth (by decide) _)
  case rev =>
    exact ends_setReg s (low rd) (P := fun v => ∀ i, i < 4 → wordByte v i = wordByte (s.reg (low rm)) (3 - i))
      fun _ => wordByte_revWord _
  case rev16 =>
    exact ends_setReg s (low rd)
      (P := fun v => ∀ h, h < 2 → wordByte v (2 * h) = wordByte (s.reg (low rm)) (2 * h + 1) ∧
        wordByte v (2 * h + 1) = wordByte (s.reg (low rm)) (2 * h))
      fun _ => wordByte_rev16Word _
  case revsh => exact ends_setReg s (low rd) (P := (·.toInt = _)) (toInt_revshWord _)

end Sys2Proof.Machine
end

section
/-! PROOFS. `PUSH`, `POP`, `STM` and `LDM` (R260 to R264): word stores and then one register, word loads and then one
register, and the branch-exchange of a popped PC in between. -/

namespace Sys2Proof.Machine

open Safety

variable {i : Instr} {s t u : State} {ia a v : Word} {r : Reg} {rn : LowReg} {regs written : List Reg} {m p : Bool}
  {list : BitVec 8} {f : Fault}

/-! ## The registers of a list (R108) -/

theorem length_registersOf_le (set : BitVec 16) : (registersOf set).length ≤ 16 :=
  (List.length_filter_le _ _).trans List.length_finRange.le

theorem nodup_registersOf (set : BitVec 16) : (registersOf set).Nodup := (List.nodup_finRange 16).filter _

theorem low_mem_registersOf_lowSet : low rn ∈ registersOf (lowSet list) ↔ list.getLsbD rn.val = true := by
  rw [← lowList_map_low, List.mem_map_of_injective fun _ _ => low_injective, mem_lowList]

theorem not_mem_registersOf_lowSet (hr : ∀ q, low q ≠ r) : r ∉ registersOf (lowSet list) := by
  rw [← lowList_map_low, List.mem_map]
  exact fun ⟨q, _, hq⟩ => hr q hq

/-- LR, where bit M lists it, comes after the low registers. -/
theorem registersOf_pushSet (m : Bool) (list : BitVec 8) :
    registersOf (pushSet m list) = registersOf (lowSet list) ++ if m then [lrReg] else [] := by
  rw [← pushList_eq, pushList, lowList_map_low]

theorem length_registersOf_pushSet (m : Bool) (list : BitVec 8) :
    (registersOf (pushSet m list)).length = (registersOf (lowSet list)).length + m.toNat := by
  rw [registersOf_pushSet, List.length_append]
  cases m <;> rfl

/-! ## Words stored, and then one register (R260, R262) -/

theorem storedWords_congr (h : StoredWords s t a regs) (hmem : u.mem = t.mem) (hdevices : u.devices = t.devices) :
    StoredWords s u a regs where
  landed k r hr i hi := (State.busReadByte_congr hmem hdevices _).trans (h.landed k r hr i hi)
  elsewhere b hb := (State.busReadByte_congr hmem hdevices b).trans (h.elsewhere b hb)
  underDevice b hb := by rw [hmem, h.underDevice b hb]
  descriptors := by rw [← h.descriptors, descriptors, hdevices, descriptors]

theorem OnlyStores.storeFrame_setReg (h : OnlyStores s t) (r : Reg) (v : Word) : StoreFrame s (t.setReg r v) [r] where
  regs q hq := (State.reg_setReg_ne t v (List.ne_of_not_mem_cons hq)).trans (h.reg q)
  flags := h.flags
  control := by rw [h.same]; exact controlKept_of_eq rfl

/-- The word stores of `regs` at `a`, and then the register `r` set to `v`: what `PUSH` and `STM` do. -/
def storeRegsThenSet (s : State) (a : Word) (regs : List Reg) (r : Reg) (v : Word) : Except Fault State :=
  (s.storeRegs a regs).map (·.setReg r v)

theorem pushBody_eq (s : State) (m : Bool) (list : BitVec 8) :
    pushBody s m list =
      let regs := registersOf (pushSet m list)
      let a := s.reg 13 - BitVec.ofNat 32 (4 * regs.length)
      storeRegsThenSet s a regs 13 a := by
  rw [← pushList_eq]
  simp only [pushBody, pushAddress, storeRegsThenSet]
  cases s.storeRegs _ _ <;> rfl

theorem stmBody_eq (s : State) (rn : LowReg) (list : BitVec 8) :
    stmBody s rn list =
      let regs := registersOf (lowSet list)
      let a := s.reg (low rn)
      storeRegsThenSet s a regs (low rn) (a + BitVec.ofNat 32 (4 * regs.length)) := by
  rw [← lowList_map_low]
  simp only [stmBody, State.lowReg, wordsAfter, storeRegsThenSet]
  cases s.storeRegs _ _ <;> rfl

/-- An instruction that is `storeRegsThenSet` is its word stores: the fault is theirs, and where each word can be stored
it lands. -/
theorem stores_of_storeRegsThenSet (hpc : s.pc = ia + 2) (hregs : regs.length ≤ 16)
    (hexec : exec i s = completeShort s (storeRegsThenSet s a regs r v)) :
    (MachineInv s → CanStoreWords s a regs.length → Ends (exec i s) fun t =>
      t.reg r = v ∧ StoredWords s t a regs ∧ StoreFrame s t [r]) ∧
    (∀ t, s.storeRegs a regs = .ok t → Ends (exec i s) fun u => u = t.setReg r v) ∧
    (∀ f, s.storeRegs a regs = .error f → Raises s (exec i s) f ia) := by
  have htaken : ∀ t, s.storeRegs a regs = .ok t → exec i s = .next (t.setReg r v) := fun t ht => by
    rw [hexec, storeRegsThenSet, ht]
    rfl
  refine ⟨fun hinv hstore => ?stored, fun t ht => ⟨_, htaken t ht, rfl⟩, fun f hf => ?raises⟩
  case stored =>
    obtain ⟨t, ht, hstored⟩ := storeRegs_storable (storesWf_of_inv hinv) a regs hregs hstore
    exact ⟨_, htaken t ht, State.reg_setReg_self .., storedWords_congr hstored rfl rfl,
      (State.storeRegs_ok ht).storeFrame_setReg r v⟩
  case raises =>
    rw [hexec, storeRegsThenSet, hf]
    exact raises_raiseShort hpc f

/-! ## Words loaded (R261, R263) -/

theorem memRead_word (s : State) (h : CanLoad a .word) : s.memRead a .word = .ok (wordAt s a) := by
  rw [← busReadBytes_word]
  exact memRead_of_canLoad s h

/-- The words from `a` upward are in the registers `regs`, and nothing but registers among `written` changed. -/
structure LoadedWords (s t : State) (a : Word) (regs written : List Reg) : Prop where
  values   : ∀ k r, regs[k]? = some r → t.reg r = wordAt s (a + BitVec.ofNat 32 (4 * k))
  onlyRegs : OnlyRegs s t
  kept     : RegsKept s t written

theorem loadRegs_loadedWords (s : State) (hregs : regs.Nodup) (hload : CanLoadWords a regs.length) :
    ∃ t, s.loadRegs a regs = .ok t ∧ LoadedWords s t a regs regs := by
  obtain ⟨t, ht, hvalues⟩ := loadRegs_loads s a regs hregs hload
  obtain ⟨honly, hkept⟩ := State.loadRegs_ok ht
  exact ⟨t, ht, hvalues, honly, hkept⟩

namespace LoadedWords

theorem frame (h : LoadedWords s t a regs written) : FrameKeepingFlags s t written := h.onlyRegs.frame h.kept

theorem allowing (h : LoadedWords s t a regs written) (r : Reg) : LoadedWords s t a regs (r :: written) :=
  ⟨h.values, h.onlyRegs, fun q hq => h.kept q (List.not_mem_of_not_mem_cons hq)⟩

/-- A register outside the list written after the loads. -/
theorem setReg (h : LoadedWords s t a regs written) (hr : r ∉ regs) (v : Word) :
    LoadedWords s (t.setReg r v) a regs (r :: written) where
  values k q hq :=
    have hne : q ≠ r := fun he => hr (he ▸ List.mem_of_getElem? hq)
    (State.reg_setReg_ne t v hne).trans (h.values k q hq)
  onlyRegs := h.onlyRegs.trans (.setReg t r v)
  kept q hq := (State.reg_setReg_ne t v (List.ne_of_not_mem_cons hq)).trans
    (h.kept q (List.not_mem_of_not_mem_cons hq))

end LoadedWords

/-! ## The instructions at `ia` (R115) -/

theorem exec_push_of_nonempty (s : State) (hne : m = true ∨ list ≠ 0) :
    exec (.push m list) s = completeShort s (pushBody s m list) :=
  if_neg (mt (refusesOperands_iff (.push m list)).mp fun ⟨hm, hlist⟩ => by simp [hm, hlist] at hne)

theorem exec_pop_of_nonempty (s : State) (hne : p = true ∨ list ≠ 0) :
    exec (.pop p list) s = completeShort s (popBody s p list) :=
  if_neg (mt (refusesOperands_iff (.pop p list)).mp fun ⟨hp, hlist⟩ => by simp [hp, hlist] at hne)

theorem exec_stm_of_predictable (s : State) (h : ¬ Unpredictable (.stm rn list)) :
    exec (.stm rn list) s = completeShort s (stmBody s rn list) :=
  if_neg (mt (refusesOperands_iff (.stm rn list)).mp h)

theorem exec_ldm_of_nonempty (s : State) (hne : list ≠ 0) :
    exec (.ldm rn list) s = completeShort s (ldmBody s rn list) :=
  if_neg (mt (refusesOperands_iff (.ldm rn list)).mp hne)

/-! ## `LDM` (R263) -/

theorem ldmBody_of_loadRegs (h : s.loadRegs (s.reg (low rn)) (registersOf (lowSet list)) = .ok t) :
    ldmBody s rn list = .ok (if low rn ∈ registersOf (lowSet list) then t
      else t.setReg (low rn) (s.reg (low rn) + BitVec.ofNat 32 (4 * (registersOf (lowSet list)).length))) := by
  simp only [low_mem_registersOf_lowSet]
  rw [← lowList_map_low] at h ⊢
  simp only [ldmBody, State.lowReg, h, wordsAfter]

theorem ldmBody_of_loadRegs_error (h : s.loadRegs (s.reg (low rn)) (registersOf (lowSet list)) = .error f) :
    ldmBody s rn list = .error f := by
  rw [← lowList_map_low] at h
  simp only [ldmBody, State.lowReg, h]

/-! ## `POP` (R261) -/

theorem popBody_of_loadRegs_error (h : s.loadRegs (s.reg 13) (registersOf (lowSet list)) = .error f) :
    popBody s p list = .error f := by
  rw [← lowList_map_low] at h
  simp only [popBody, h]

theorem popBody_false_of_loadRegs (h : s.loadRegs (s.reg 13) (registersOf (lowSet list)) = .ok t) :
    popBody s false list =
      .ok (t.setReg 13 (s.reg 13 + BitVec.ofNat 32 (4 * (registersOf (lowSet list)).length))) := by
  rw [← lowList_map_low] at h ⊢
  simp only [popBody, h, wordsAfter]
  rfl

/-- With bit P the word after the low registers' is popped into PC before SP is written. -/
theorem popBody_true_of_popPc {popped : Except Fault State}
    (h : s.loadRegs (s.reg 13) (registersOf (lowSet list)) = .ok t)
    (hpop : popPc t (s.reg 13 + BitVec.ofNat 32 (4 * (registersOf (lowSet list)).length)) = popped) :
    popBody s true list = popped.map
      (·.setReg 13 (s.reg 13 + BitVec.ofNat 32 (4 * ((registersOf (lowSet list)).length + 1)))) := by
  rw [← lowList_map_low] at h hpop ⊢
  simp only [popBody, h, wordsAfter, hpop]
  rw [← add_four_mul, add_right_comm]
  cases popped <;> rfl

theorem popPc_of_canLoad (h : OnlyRegs s t) (hload : CanLoad a .word) : popPc t a = t.branchExchange (wordAt s a) := by
  rw [popPc, h.memRead, memRead_word s hload]

theorem popPc_of_not_canLoad (t : State) (hout : ¬ CanLoad a .word) : popPc t a = .error (.addressRange a) := by
  rw [popPc, memRead_of_not_canLoad t hout]

theorem pc_setReg_sp_branchTo (s : State) (target sp : Word) :
    ((s.branchTo target).setReg spReg sp).pc = target &&& 0xFFFFFFFE :=
  (State.reg_setReg_ne _ sp (by decide)).trans (State.reg_setReg_self ..)

/-- Where every word can be loaded, what is left to decide is bit 0 of the popped PC (R205). -/
theorem popBody_true_of_canLoadWords
    (hload : CanLoadWords (s.reg 13) ((registersOf (lowSet list)).length + 1)) :
    let regs := registersOf (lowSet list)
    let target := wordAt s (s.reg 13 + BitVec.ofNat 32 (4 * regs.length))
    ∃ t, LoadedWords s t (s.reg 13) regs regs ∧ popBody s true list = (t.branchExchange target).map
      (·.setReg 13 (s.reg 13 + BitVec.ofNat 32 (4 * (regs.length + 1)))) := by
  obtain ⟨t, ht, hwords⟩ := loadRegs_loadedWords s (nodup_registersOf _) fun k hk => hload k (Nat.lt_succ_of_lt hk)
  have hpop := popPc_of_canLoad hwords.onlyRegs (hload _ (Nat.lt_succ_self _))
  exact ⟨t, hwords, popBody_true_of_popPc ht hpop⟩

/-! ## `POP` after `PUSH` (R261) -/

/-- A word that was stored is read back from its address. -/
theorem wordAt_of_storedWords (h : StoredWords s t a regs) {k : Nat} (hr : regs[k]? = some r) :
    wordAt t (a + BitVec.ofNat 32 (4 * k)) = s.reg r := by
  have hbytes : bytesAt t (a + BitVec.ofNat 32 (4 * k)) 4 = (s.reg r).toNat % 2 ^ 32 :=
    bytesAt_of_landed fun i hi => by rw [BitVec.add_assoc, ← BitVec.ofNat_add, h.landed k r hr i hi]
  rw [wordAt, hbytes, Nat.mod_eq_of_lt (s.reg r).isLt, BitVec.ofNat_toNat, BitVec.setWidth_eq]

theorem getElem?_registersOf_pushSet {k : Nat} (h : (registersOf (lowSet list))[k]? = some r) :
    (registersOf (pushSet m list))[k]? = some r := by
  rw [registersOf_pushSet, List.getElem?_append_left (List.getElem?_eq_some_iff.mp h).1, h]

/-- A register loaded with the word that was stored from it has its value back. -/
theorem reg_restored_of_storedWords {v : State} (hstored : StoredWords s u a (registersOf (pushSet m list)))
    (hvalues : ∀ k r, (registersOf (lowSet list))[k]? = some r → v.reg r = wordAt u (a + BitVec.ofNat 32 (4 * k)))
    (hr : r ∈ registersOf (lowSet list)) : v.reg r = s.reg r := by
  obtain ⟨k, hk⟩ := List.mem_iff_getElem?.mp hr
  exact (hvalues k r hk).trans (wordAt_of_storedWords hstored (getElem?_registersOf_pushSet hk))

theorem getElem?_registersOf_pushSet_lr :
    (registersOf (pushSet true list))[(registersOf (lowSet list)).length]? = some lrReg := by
  rw [registersOf_pushSet]
  exact List.getElem?_concat_length

/-! ## The obligations -/

/-- Settles O52: `PUSH` is its word stores, and then SP set to the lowest address. -/
theorem pushStoresItsRegistersBelowSp : Obligations.PushStoresItsRegistersBelowSp := by
  intro s ia m list hpc hne
  refine stores_of_storeRegsThenSet hpc (length_registersOf_le _) ?_
  rw [exec_push_of_nonempty s hne, pushBody_eq]

/-- Settles O53: the loads, the branch-exchange of a popped PC, and then SP; the first word out of range raises. -/
theorem popLoadsItsRegistersFromSp : Obligations.PopLoadsItsRegistersFromSp := by
  intro s ia p list hpc hne regs a target
  have hsp : 13 ∉ regs := not_mem_registersOf_lowSet low_ne_sp
  have hpcReg : pcReg ∉ regs := not_mem_registersOf_lowSet low_ne_pc
  rw [exec_pop_of_nonempty s hne]
  refine ⟨fun hp hload => ?low, fun hp hload hodd => ?withPc, fun hp hload heven => ?interwork,
    fun k hk hbelow hout => ?raises⟩
  case low =>
    obtain ⟨t, ht, hwords⟩ := loadRegs_loadedWords s (nodup_registersOf _) hload
    have hwritten := hwords.setReg hsp (a + BitVec.ofNat 32 (4 * regs.length))
    rw [hp, popBody_false_of_loadRegs ht]
    exact ⟨_, rfl, hwritten.values, State.reg_setReg_self .., hwritten.frame⟩
  case withPc =>
    obtain ⟨t, hwords, hpop⟩ := popBody_true_of_canLoadWords hload
    have hwritten := (hwords.setReg hpcReg (target &&& 0xFFFFFFFE)).setReg hsp
      (a + BitVec.ofNat 32 (4 * (regs.length + 1)))
    rw [hp, hpop, State.branchExchange, if_pos hodd]
    exact ⟨_, rfl, hwritten.values, pc_setReg_sp_branchTo t target _, State.reg_setReg_self .., hwritten.frame⟩
  case interwork =>
    obtain ⟨t, -, hpop⟩ := popBody_true_of_canLoadWords hload
    rw [hp, hpop, State.branchExchange, if_neg (ne_true_of_eq_false heven)]
    exact raises_raiseShort hpc _
  case raises =>
    rcases Nat.lt_or_ge k regs.length with hlow | hlast
    · rw [popBody_of_loadRegs_error (loadRegs_raises s a regs k hlow hbelow hout)]
      exact raises_raiseShort hpc _
    · obtain rfl : p = true := by
        cases p with
        | true => rfl
        | false => exact absurd hk hlast.not_gt
      obtain rfl : k = regs.length := hlast.antisymm' (Nat.le_of_lt_succ hk)
      obtain ⟨t, ht, -⟩ := loadRegs_loadedWords s (nodup_registersOf _) hbelow
      rw [popBody_true_of_popPc ht (popPc_of_not_canLoad t hout)]
      exact raises_raiseShort hpc _

/-- Settles O54: `STM` is its word stores, and then the base set to the end address. -/
theorem stmStoresItsRegistersAndWritesBack : Obligations.StmStoresItsRegistersAndWritesBack := by
  intro s ia rn list hpc hpredictable
  refine stores_of_storeRegsThenSet hpc (length_registersOf_le _) ?_
  rw [exec_stm_of_predictable s hpredictable, stmBody_eq]

/-- Settles O55: the loads, and then the write-back of a base that is not listed; the first word out of range raises. -/
theorem ldmLoadsItsRegisters : Obligations.LdmLoadsItsRegisters := by
  intro s ia rn list hpc hne regs a
  rw [exec_ldm_of_nonempty s hne]
  refine ⟨fun hload => ?loaded, fun k hk hbelow hout => ?raises⟩
  case loaded =>
    obtain ⟨t, ht, hwords⟩ := loadRegs_loadedWords s (nodup_registersOf _) hload
    rw [ldmBody_of_loadRegs ht]
    by_cases hlisted : low rn ∈ regs
    · rw [if_pos hlisted]
      exact ⟨t, rfl, hwords.values, fun hnot => absurd hlisted hnot, (hwords.allowing (low rn)).frame⟩
    · rw [if_neg hlisted]
      have hwritten := hwords.setReg hlisted (a + BitVec.ofNat 32 (4 * regs.length))
      exact ⟨_, rfl, hwritten.values, fun _ => State.reg_setReg_self .., hwritten.frame⟩
  case raises =>
    rw [ldmBody_of_loadRegs_error (loadRegs_raises s a regs k hk hbelow hout)]
    exact raises_raiseShort hpc _

/-- Settles O56: `POP` starts at the address where `PUSH` put the words, and so finds the listed registers', then LR's. -/
theorem popRestoresWhatPushStored : Obligations.PopRestoresWhatPushStored := by
  intro s m list hne hinv hodd hstore
  have hpush := pushStoresItsRegistersBelowSp s (s.pc - 2) m list (BitVec.sub_add_cancel ..).symm hne
  obtain ⟨t, ht, hsp, hstored, -⟩ := hpush.1 hinv hstore
  refine ⟨t, ht, fun u hmem hdevices husp => ?_⟩
  have hload : CanLoadWords _ _ := fun k hk => (hstore k hk).inRange
  have hwords := storedWords_congr hstored hmem hdevices
  rw [← hsp, ← husp] at hload hwords
  rw [length_registersOf_pushSet] at hload
  have hend : u.reg 13 + BitVec.ofNat 32 (4 * ((registersOf (lowSet list)).length + m.toNat)) = s.reg 13 := by
    rw [← length_registersOf_pushSet, husp, hsp, BitVec.sub_add_cancel]
  obtain ⟨hlow, hwithPc, -, -⟩ :=
    popLoadsItsRegistersFromSp u (u.pc - 2) m list (BitVec.sub_add_cancel ..).symm hne
  cases m with
  | false =>
    obtain ⟨v, hv, hvalues, hvsp, hframe⟩ := hlow rfl hload
    exact ⟨v, hv, fun _ => reg_restored_of_storedWords hwords hvalues, hvsp.trans hend, nofun, hframe⟩
  | true =>
    have hlr := wordAt_of_storedWords hwords getElem?_registersOf_pushSet_lr
    obtain ⟨v, hv, hvalues, hvpc, hvsp, hframe⟩ := hwithPc rfl hload (hlr ▸ hodd rfl)
    exact ⟨v, hv, fun _ => reg_restored_of_storedWords hwords hvalues, hvsp.trans hend, fun _ => hlr ▸ hvpc, hframe⟩

end Sys2Proof.Machine
end

section
/-! PROOFS. Branches (R270 to R273): the displacement in the spec's terms, then a branch from `ia` with or without a
link. -/

namespace Sys2Proof.Machine

open Safety

variable {s : State} {ia : Word}

/-! ## Displacements (R107) -/

theorem branchOffset_eq {n : Nat} (hn : n + 1 ≤ 32) (v : BitVec n) :
    branchOffset v = BitVec.ofInt 32 (2 * v.toInt) := by
  rw [branchOffset, ← toInt_signExtend_append_zero hn, BitVec.ofInt_toInt]

/-- The displacement of `BL` is that of a branch with the 24-bit field `S : I1 : I2 : imm10 : imm11` (R272). -/
theorem blOffset_eq_branchOffset (sign : BitVec 1) (imm10 : BitVec 10) (j1 j2 : BitVec 1) (imm11 : BitVec 11) :
    blOffset sign imm10 j1 j2 imm11 =
      branchOffset (sign ++ ~~~(j1 ^^^ sign) ++ ~~~(j2 ^^^ sign) ++ imm10 ++ imm11) := rfl

/-! ## The instructions at `ia` (R270 to R273) -/

theorem exec_bcond_of_condHolds (hpc : s.pc = ia + 2) {cond : Cond} (h : CondHolds cond s.flags) (imm8 : BitVec 8) :
    exec (.bcond cond imm8) s = .next (s.branchTo (ia + 4 + branchOffset imm8)) := by
  rw [← conditionPassed_iff] at h
  rw [← iaShort_of_pc hpc]
  exact congrArg Host.Outcome.next (if_pos h)

theorem exec_b (hpc : s.pc = ia + 2) (imm11 : BitVec 11) :
    exec (.b imm11) s = .next (s.branchTo (ia + 4 + branchOffset imm11)) := by
  rw [← iaShort_of_pc hpc]
  rfl

theorem exec_bl (hpc : s.pc = ia + 4) (sign : BitVec 1) (imm10 : BitVec 10) (j1 j2 : BitVec 1) (imm11 : BitVec 11) :
    exec (.bl sign imm10 j1 j2 imm11) s =
      .next ((s.setReg lrReg ((ia + 4) ||| 1)).branchTo (ia + 4 + blOffset sign imm10 j1 j2 imm11)) := by
  rw [← iaLong_of_pc hpc]
  rfl

/-! ## The obligation -/

/-- Settles O57: a condition that fails leaves the state as it is; every other case is a branch to `ia + 4` and the
displacement, after the link where there is one. -/
theorem branchesAreRelativeToTheInstruction : Obligations.BranchesAreRelativeToTheInstruction := by
  refine fun s ia => ⟨fun hpc => ⟨fun cond imm8 => ?bcond, fun imm11 => ?b⟩, fun hpc sign imm10 j1 j2 imm11 => ?bl⟩
  case bcond =>
    by_cases h : CondHolds cond s.flags
    · obtain ⟨t, ht, htarget, hframe⟩ := ends_branchTo s (ia + 4 + branchOffset imm8)
      rw [branchOffset_eq (by decide)] at htarget
      exact ⟨t, (exec_bcond_of_condHolds hpc h imm8).trans ht, fun _ => htarget, absurd h, hframe⟩
    · exact ⟨s, exec_bcond_of_not_condHolds h imm8, fun hc => absurd hc h, fun _ => hpc,
        (OnlyRegs.refl s).frame fun _ _ => rfl⟩
  case b =>
    rw [exec_b hpc, branchOffset_eq (by decide)]
    exact ends_branchTo s _
  case bl =>
    rw [exec_bl hpc, blOffset_eq_branchOffset, branchOffset_eq (by decide)]
    exact ends_branchTo_link s _ _

end Sys2Proof.Machine
end

section
/-! PROOFS. Faults (R300 to R306) and the run states (R330 to R335): what a fault records, and what a step and each
transaction reach and return in each run state. -/

namespace Sys2Proof.Machine

open Safety

variable {s t : State} {ia : Word} {hw1 hw2 : Halfword}

/-! ## The record of a fault (R300, R305) -/

theorem byteLength_of_decode {i : Instr} (hi : decode hw1 hw2 = .ok i) : byteLength i = if isLong hw1 then 4 else 2 := by
  obtain ⟨-, hfirst, -⟩ := encode_of_decode hi
  rw [byteLength, ← hfirst, isLong_encodeFirst]

/-- R11, R305: an instruction at `ia` keeps the sequencer, or records a fault with the address `ia`. -/
theorem exec_keepsControlOrFaults {i : Instr} (hpc : s.pc = ia + byteLength i) :
    Ends (exec i s) fun t => ControlKept s t ∨ ∃ f, FaultedWith s t f ia := by
  have hia : s.pc - byteLength i = ia := by rw [hpc, BitVec.add_sub_cancel]
  obtain ⟨t, ht, hcompleted | ⟨f, rfl⟩⟩ := exec_completesOrFaults i s
  · exact ⟨t, ht, .inl hcompleted.control⟩
  · exact ⟨_, ht, .inr ⟨f, hia ▸ faultedWith_takeFault s f _⟩⟩

/-- A next state that, where it is `Faulted`, has the record of a fault at `ia`. -/
def EndsRecordingFault (s : State) (ia : Word) (r : Result) : Prop :=
  Ends r fun t => t.run = .faulted → ∃ f, FaultedWith s t f ia

namespace EndsRecordingFault

theorem of_raises {r : Result} {f : Fault} (h : Raises s r f ia) : EndsRecordingFault s ia r := by
  obtain ⟨t, ht, hfaulted⟩ := h
  exact ⟨t, ht, fun _ => ⟨f, hfaulted⟩⟩

/-- The record says nothing of the registers, so it does not matter that PC was advanced first. -/
theorem of_setReg {r : Reg} {v : Word} {result : Result} (h : EndsRecordingFault (s.setReg r v) ia result) :
    EndsRecordingFault s ia result := by
  obtain ⟨t, ht, hrecord⟩ := h
  refine ⟨t, ht, fun hrun => ?_⟩
  obtain ⟨f, hfaulted⟩ := hrecord hrun
  exact ⟨f, faultedWith_congr hfaulted rfl rfl rfl rfl rfl rfl⟩

theorem exec {i : Instr} (hrun : s.run ≠ .faulted) (hpc : s.pc = ia + byteLength i) :
    EndsRecordingFault s ia (exec i s) := by
  obtain ⟨t, ht, hcontrol | hfaulted⟩ := exec_keepsControlOrFaults hpc
  · exact ⟨t, ht, fun ht => absurd (hcontrol.run.symm.trans ht) hrun⟩
  · exact ⟨t, ht, fun _ => hfaulted⟩

theorem dispatch (hrun : s.run ≠ .faulted) (hpc : s.pc = ia + if isLong hw1 then 4 else 2) :
    EndsRecordingFault s ia (dispatch s ia hw1 hw2) := by
  cases hdecode : decode hw1 hw2 with
  | error r => exact of_raises (dispatch_of_decode_error hdecode s ia)
  | ok i =>
    rw [← byteLength_of_decode hdecode] at hpc
    rw [dispatch_of_decode hdecode]
    exact exec hrun hpc

theorem longCycle (hrun : s.run ≠ .faulted) (hlong : isLong hw1 = true) :
    EndsRecordingFault s ia (longCycle s ia hw1) := by
  unfold Machine.longCycle
  split
  · exact of_setReg (dispatch hrun (by rw [State.pc, State.reg_setReg_self, if_pos hlong]))
  · exact of_raises (raises_takeFault s _ ia)

/-- Whatever raises the fault, a fetch or the instruction, the record has the PC the cycle began at. -/
theorem instructionCycle (hrun : s.run ≠ .faulted) : EndsRecordingFault s s.pc (instructionCycle s) := by
  simp only [Machine.instructionCycle]
  split
  · exact of_raises (raises_takeFault s _ s.pc)
  · split
    · exact ⟨s.finish, rfl, nofun⟩
    · split
      · next hlong => exact of_setReg (longCycle hrun hlong)
      · next hshort => exact of_setReg (dispatch hrun (by rw [State.pc, State.reg_setReg_self, if_neg hshort]))

end EndsRecordingFault

/-! ## What a step reaches in each run state (R330, R333, R334) -/

theorem run_of_idle_or_halted (hrun : s.run = .idle ∨ s.run = .halted) : s.run ≠ .faulted ∧ s.run ≠ .running := by
  rcases hrun with hrun | hrun <;> simp [hrun]

theorem step_faulted (hrun : s.run = .faulted) : step s = .next s := by
  simp only [step, advance, hrun]

theorem step_haltAccepted (hrun : s.run = .running) (hhalt : s.haltReq = true) :
    step s = .next { s with haltReq := false, run := .halted } := by
  simp only [step, advance, hrun, runTurn, hhalt, if_true]

theorem step_running (hrun : s.run = .running) (hhalt : s.haltReq = false) : step s = instructionCycle s := by
  simp only [step, advance, hrun, runTurn, hhalt, Bool.false_eq_true, if_false]

theorem step_of_not_running (hfaulted : s.run ≠ .faulted) (hrunning : s.run ≠ .running)
    (ht : instructionCycle s = .next t) : step s = .next (settle t) := by
  rw [step_of_instructionCycle hfaulted (absurd · hrunning) ht, settle]
  simp only [hrunning, false_or]

theorem settle_faulted (h : t.run = .faulted) : settle t = t := if_pos h

theorem settle_of_not_faulted (h : t.run ≠ .faulted) : settle t = { t with run := .halted } := if_neg h

theorem instructionCycle_of_atSentinel (h : atSentinel s = true) : instructionCycle s = .next s.finish := by
  unfold atSentinel at h
  split at h
  · next hfetch => simp only [instructionCycle, hfetch, eq_of_beq h, if_true]
  · cases h

/-! ## What a transaction reaches and `step` returns (R333) -/

theorem stepState_of_step (h : step s = .next t) : stepState s = some t := by
  simp only [stepState, h]

theorem transact_step (hrun : s.run ≠ .running) (h : step s = .next t) : transact .step s = some t :=
  (if_neg hrun).trans (stepState_of_step h)

theorem transact_turn (hrun : s.run = .running) (h : step s = .next t) : transact .turn s = some t :=
  (if_pos hrun).trans (stepState_of_step h)

theorem stepReply_of_step (h : step s = .next t) :
    stepReply s = (s.run != .faulted && !atSentinel s && t.run != .faulted) := by
  simp only [stepReply, stepState_of_step h]

/-- A step that ends in `Faulted` returns false, whether the fault is new or old. -/
theorem stepReply_of_step_faulted (h : step s = .next t) (ht : t.run = .faulted) : stepReply s = false := by
  simp [stepReply_of_step h, ht]

theorem transact_run (hrun : s.run = .idle ∨ s.run = .halted) : transact .run s = some s.startRun := by
  rcases hrun with hrun | hrun <;> simp only [transact, hrun]

theorem transact_run_faulted (hrun : s.run = .faulted) : transact .run s = some s := by
  simp only [transact, hrun]

theorem transact_halt_running (hrun : s.run = .running) : transact .halt s = some { s with haltReq := true } :=
  congrArg some (if_pos hrun)

theorem transact_halt_of_not_running (hrun : s.run ≠ .running) : transact .halt s = some s :=
  congrArg some (if_neg hrun)

theorem transact_load (hrun : s.run ≠ .running) (image : List (Word × Byte)) (entry : Word) :
    transact (.load image entry) s = some (s.loadTransaction image entry) :=
  if_neg hrun

/-- A `dev_input` sets devices and nothing else (R68). -/
theorem devInput_eq (s : State) (i event : Nat) :
    s.devInput i event = { s with devices := (s.devInput i event).devices } := by
  obtain ⟨t, hok, ht, -⟩ | ⟨_, -, ht, -⟩ := State.devInput_cases s i event
  · obtain ⟨d, st, -, -, -, rfl⟩ := State.tryDevInput_ok hok
    rw [ht]
  · rw [ht]

/-- R306: every transaction but `reset` and `load` leaves `Faulted` and its record as they are. -/
theorem transact_faulted {tr : Transaction} (hrun : s.run = .faulted) (ht : transact tr s = some t) :
    (t.run = .faulted ∧ t.fault = s.fault) ∨
      ((tr = .reset ∨ ∃ image entry, tr = .load image entry) ∧ t.run = .idle ∧ t.fault = none) := by
  have hrunning : s.run ≠ .running := by rw [hrun]; decide
  cases tr with
  | reset => cases ht; exact .inr ⟨.inl rfl, rfl, rfl⟩
  | load image entry =>
    cases (transact_load hrunning image entry).symm.trans ht
    exact .inr ⟨.inr ⟨image, entry, rfl⟩, rfl, rfl⟩
  | step => cases (transact_step hrunning (step_faulted hrun)).symm.trans ht; exact .inl ⟨hrun, rfl⟩
  | run => cases (transact_run_faulted hrun).symm.trans ht; exact .inl ⟨hrun, rfl⟩
  | turn => cases (if_neg hrunning : transact .turn s = none).symm.trans ht
  | halt => cases (transact_halt_of_not_running hrunning).symm.trans ht; exact .inl ⟨hrun, rfl⟩
  | devInput i event =>
    cases ht
    rw [devInput_eq]
    exact .inl ⟨hrun, rfl⟩

/-! ## The obligations -/

/-- Settles O9: each of the thirteen rows raises `Undefined` with the halfwords that its own encoding gives. -/
theorem rowsRefusedByNameRaiseUndefined : Obligations.RowsRefusedByNameRaiseUndefined :=
  fun _ _ _ hi hpc => exec_refusedByName hi hpc

/-- Settles O22: two bytes at an even address do not pass the top of the address space. -/
theorem fetchingNeverFaults : Obligations.FetchingNeverFaults := by
  intro s ia hia
  exact ⟨halfAt s ia, halfAt s (ia + 2), fetch16_of_even s hia,
    fetch16_of_even s ((getLsbD_zero_add_even rfl).trans hia), halfwordAt_halfAt s ia, halfwordAt_halfAt s (ia + 2)⟩

/-- Settles O27: an instruction completes or takes a fault at its own address, and so does a cycle, whose first advance
of PC the record does not see. -/
theorem faultEntryRecordsTheInstruction : Obligations.FaultEntryRecordsTheInstruction := by
  constructor
  · intro i s t ia hpc ht
    obtain ⟨u, hu, hends⟩ := exec_keepsControlOrFaults hpc
    cases hu.symm.trans ht
    exact hends
  · intro s t ht hfaulted hrun
    obtain ⟨u, hu, hrecord⟩ := EndsRecordingFault.instructionCycle hrun
    cases hu.symm.trans ht
    refine ⟨hrecord hfaulted, fun hrunning => ?_, fun hrunning hhalt => (step_running hrunning hhalt).trans ht⟩
    have hstep := step_of_not_running hrun hrunning ht
    rw [settle_faulted hfaulted] at hstep
    exact ⟨hstep, stepReply_of_step_faulted hstep hfaulted⟩

/-- Settles O18: a step outside a `run` is one settled cycle; at the sentinel the cycle finishes the program. -/
theorem theStepTransaction : Obligations.TheStepTransaction := by
  refine fun s => ⟨fun hrun => ?_, fun hrun => ?_⟩
  · obtain ⟨hfaulted, hrunning⟩ := run_of_idle_or_halted hrun
    refine ⟨fun hsentinel => ?_, fun hsentinel => ?_⟩
    · have hstep := step_of_not_running hfaulted hrunning (instructionCycle_of_atSentinel hsentinel)
      exact ⟨transact_step hrunning hstep, by simp [stepReply_of_step hstep, hsentinel]⟩
    · obtain ⟨t, ht, -⟩ := EndsRecordingFault.instructionCycle hfaulted
      have hstep := step_of_not_running hfaulted hrunning ht
      refine ⟨t, ht, fun hft => ?_, fun hft => ?_⟩
      · rw [settle_faulted hft] at hstep
        exact ⟨transact_step hrunning hstep, stepReply_of_step_faulted hstep hft⟩
      · rw [settle_of_not_faulted hft] at hstep
        exact ⟨transact_step hrunning hstep, by simp [stepReply_of_step hstep, hsentinel, hfaulted]⟩
  · have hstep := step_faulted hrun
    exact ⟨transact_step (by simp [hrun]) hstep, stepReply_of_step_faulted hstep hrun⟩

/-- Settles O20, transaction by transaction. -/
theorem onlyResetLeavesFaulted : Obligations.OnlyResetLeavesFaulted := by
  intro s hrun
  have hrunning : s.run ≠ .running := by simp [hrun]
  have hstep := step_faulted hrun
  exact ⟨hstep, transact_step hrunning hstep, stepReply_of_step_faulted hstep hrun, transact_run_faulted hrun,
    transact_halt_of_not_running hrunning, fun _ _ => transact_faulted hrun⟩

/-- Settles O19: the request is set in a `run` only, and the next turn takes it before it begins a cycle. -/
theorem haltIsAcceptedBetweenCycles : Obligations.HaltIsAcceptedBetweenCycles := by
  refine fun s => ⟨transact_run, transact_halt_running, transact_halt_of_not_running,
    fun hrun hhalt => transact_turn hrun (step_haltAccepted hrun hhalt), step_running, fun hrun => ?_⟩
  have hfaulted : s.run ≠ .faulted := by simp [hrun]
  obtain ⟨t, ht, -⟩ := EndsRecordingFault.instructionCycle hfaulted
  exact ⟨t, ht, step_of_not_running hfaulted (by simp [hrun]) ht⟩

end Sys2Proof.Machine
end

section
/-! PROOFS. What `reset` leaves (R331, R85), and what the host observes (R322): the registers and flags, and the status
port. -/

namespace Sys2Proof.Machine

open Safety

variable {s : State} {ia : Word}

/-! ## The image in memory (R85) -/

theorem imageMemory_concat (image : List (Word × Byte)) (c : Word × Byte) :
    State.imageMemory (image ++ [c]) = Memory.write (State.imageMemory image) c.1.toNat c.2 :=
  List.foldl_concat ..

/-- A later pair of the image wins; an address of no pair reads as zero. -/
theorem read_imageMemory (image : List (Word × Byte)) (a : Word) :
    (State.imageMemory image).read a.toNat = (image.reverse.find? fun c => c.1 == a).elim 0 Prod.snd := by
  induction image using List.reverseRecOn with
  | nil => rfl
  | append_singleton image c ih =>
    obtain ⟨hrising, -⟩ := State.wf_imageMemory image
    rw [imageMemory_concat, Memory.read_write hrising, ih, List.reverse_concat']
    by_cases h : c.1 = a
    · simp only [h, if_true, List.find?_cons, BEq.rfl, Option.elim_some]
    · have hne : a.toNat ≠ c.1.toNat := fun hx => h (BitVec.eq_of_toNat_eq hx.symm)
      simp only [hne, if_false, List.find?_cons, beq_false_of_ne h]

/-! ## The APSR view (R30) -/

theorem getLsbD_apsr (f : Flags) :
    f.apsr.getLsbD 31 = f.n ∧ f.apsr.getLsbD 30 = f.z ∧ f.apsr.getLsbD 29 = f.c ∧ f.apsr.getLsbD 28 = f.v := by
  simp only [Flags.apsr, BitVec.getLsbD_append]
  simp

theorem getLsbD_apsr_of_lt (f : Flags) {b : Nat} (hb : b < 28) : f.apsr.getLsbD b = false := by
  rw [Flags.apsr, BitVec.getLsbD_append, if_pos hb, BitVec.getLsbD_zero]

theorem apsr_clear : Flags.apsr ⟨false, false, false, false⟩ = 0 := by decide

/-! ## The status port (R300) -/

theorem status_fault_of_none (h : s.fault = none) : (status s).fault = none := by
  simp only [status, h, Option.map_none]

theorem status_fault_of_some {f : Fault} (h : s.fault = some ⟨f, ia⟩) :
    (status s).fault = some (f.code, f.info, ia) := by
  simp only [status, h, Option.map_some]

/-! ## The obligations -/

/-- Settles O23: the fields that `reset` sets, the image read pair by pair, and `load` as `reset` of the new program. -/
theorem resetAndLoadLeaveTheTabulatedState : Obligations.ResetAndLoadLeaveTheTabulatedState := by
  refine fun s => ⟨fun image entry hrun => transact_load hrun image entry, s.resetTransaction, rfl,
    fun r hr => State.reg_resetTransaction_ne s hr, State.reg_resetTransaction_pc s, rfl, apsr_clear, fun a => ?_,
    rfl, rfl, rfl, rfl, rfl, rfl, rfl, rfl⟩
  rw [State.mem_resetTransaction, read_imageMemory]
  cases s.image.reverse.find? fun c => c.1 == a with
  | none => rfl
  | some c => rfl

/-- Settles O59: each port returns its field of the state, the record with its code and numbers. -/
theorem theHostObservesTheState : Obligations.TheHostObservesTheState := by
  intro s
  obtain ⟨hn, hz, hc, hv⟩ := getLsbD_apsr s.flags
  exact ⟨fun _ => rfl, ⟨hn, hz, hc, hv, fun _ => getLsbD_apsr_of_lt s.flags⟩, ⟨rfl, rfl, rfl, rfl⟩, fun _ => rfl, rfl, rfl,
    status_fault_of_none, fun ia => ⟨fun _ => status_fault_of_some, fun _ _ => status_fault_of_some,
      fun _ => status_fault_of_some, fun _ => status_fault_of_some, fun _ => status_fault_of_some,
      fun _ => status_fault_of_some, fun _ => status_fault_of_some⟩⟩

end Sys2Proof.Machine
end
